-- ==== Sys2Proof/Word.lean ====
section
/-! DEFINITION. The bit vectors of the block, each at the width the spec gives it (spec/00_scope.md R9, R11). -/

namespace Sys2Proof

/-- A host register, an ARG word, a CMD word, a bus error code: 32 bits (R9 `CSR_WIDTH`, `BUSERR_WIDTH`). -/
abbrev Word := BitVec 32

/-- A PHY register value or a Clause 45 register number: 16 bits (R9 `DATA_WIDTH`, `C45_REGNUM_WIDTH`). -/
abbrev Half := BitVec 16

/-- An MMD identifier as CMD.DEVAD carries it, or one byte of a register: 8 bits (R9 `N_MMD`). -/
abbrev Byte := BitVec 8

/-- A PHY bus address or a Clause 22 register address: 5 bits (R9 `N_PHYADDR`, `N_C22REG`, R86). -/
abbrev Addr5 := BitVec 5

end Sys2Proof
end

