-- ==== Sys2Proof/Machine/Listing.lean ====
section
/-! DEFINITION. Lines of the host-side assembler of spec/30_encoding.md R145 to R151: operands as the numbers that were
written, before any range check. -/

namespace Sys2Proof.Machine

/-- The `<reg>` operand forms (R150). -/
inductive RegOperand where
  | bmcr | bmsr | phyid1 | phyid2 | anar | anlpar | mmdctl | mmddata
  | vend (n : Nat)
  | reg (n : Nat)
  deriving DecidableEq, Repr, Inhabited

/-- The `<dev>` operand forms (R151). -/
inductive DevOperand where
  | pmapmd | wis | pcs | phyxs | dtexs | an | vend1 | vend2
  | dev (n : Nat)
  deriving DecidableEq, Repr, Inhabited

/-- One line: a command (R145) or a pseudo-instruction (R147). -/
inductive AsmLine where
  | c22Rd (phy : Nat) (reg : RegOperand)
  | c22Wr (phy : Nat) (reg : RegOperand) (value : Nat)
  | c45Rd (phy : Nat) (dev : DevOperand) (regnum : Nat)
  | c45Wr (phy : Nat) (dev : DevOperand) (regnum value : Nat)
  | phyReset
  | phyInit
  | pollLink
  | wait
  | ack
  | setaddr (a : Nat)
  | auto
  | setpoll (n : Nat)
  | ien
  | idis
  | rdData
  | rdLink
  deriving DecidableEq, Repr, Inhabited

end Sys2Proof.Machine
end

