-- ==== Sys2Proof/Machine/PhyRegs.lean ====
section
/-! DEFINITION. The numbers, bits and words of spec/20_memory.md R95 to R99 and the fixed counts of spec/00_scope.md R9. The
register numbers, bit positions and MMD numbers are IEEE 802.3 values the spec takes from general knowledge (R10, spec/93 G1
to G5); the model follows the spec. -/

namespace Sys2Proof.Machine

/-- Clause 22 register numbers (R95). -/
def bmcr : Addr5 := 0
def bmsr : Addr5 := 1
def phyid1 : Addr5 := 2
def phyid2 : Addr5 := 3
def anar : Addr5 := 4
def anlpar : Addr5 := 5
def mmdctl : Addr5 := 13
def mmddata : Addr5 := 14

/-- BMCR bits (R96). -/
def bmcrReset : Half := 0x8000
def bmcrSpeedSel : Half := 0x2000
def bmcrAnEn : Half := 0x1000
def bmcrAnRestart : Half := 0x0200

/-- `BMCR_RESET_WORD`: the reset bit only (R96). -/
def bmcrResetWord : Half := bmcrReset

/-- `BMCR_INIT_WORD` = SPEED_SEL | AN_EN | AN_RESTART = 0x3200 (R96). -/
def bmcrInitWord : Half := bmcrSpeedSel ||| bmcrAnEn ||| bmcrAnRestart

/-- BMCR.RESET of a value read: bit 15 (R96, R222, R226). -/
def resetBit (v : Half) : Bool := v.getLsbD 15

/-- BMSR.AN_COMPLETE: bit 5 (R97, R241). -/
def anComplete (v : Half) : Bool := v.getLsbD 5

/-- BMSR.LINK_UP: bit 2 (R97, R241). -/
def linkUp (v : Half) : Bool := v.getLsbD 2

/-- Ability bits of ANAR & ANLPAR: 8 = 100 Full, 7 = 100 Half, 6 = 10 Full (R98, spec/90_conflicts.md C3). -/
def able100Full (n : Half) : Bool := n.getLsbD 8
def able100Half (n : Half) : Bool := n.getLsbD 7
def able10Full (n : Half) : Bool := n.getLsbD 6

/-- MMD identifiers (R99). -/
def mmdPmapmd : Byte := 1
def mmdWis : Byte := 2
def mmdPcs : Byte := 3
def mmdPhyxs : Byte := 4
def mmdDtexs : Byte := 5
def mmdAn : Byte := 7
def mmdVend1 : Byte := 30
def mmdVend2 : Byte := 31

/-- `DISC_ATTEMPTS`: reads per candidate (R9, R228). -/
def discAttempts : BitVec 4 := 10

/-- The last of the `DISC_CANDIDATES` = 32 candidates (R9, R228). -/
def lastCandidate : Addr5 := 31

end Sys2Proof.Machine
end

