-- ==== Sys2Proof/Machine/Ports.lean ====
section
/-! DEFINITION. What crosses the block's edges: primitives and answers on the bus port (R180, R186), the host's accesses
(R12, R80 to R85) and the turns of the four agents (R5). Plain data only. -/

namespace Sys2Proof.Machine

/-- A primitive on the bus port (R180): a Clause 22 read or write of one 16-bit register. -/
inductive BusRequest where
  | rd (pa ra : Addr5)
  | wr (pa ra : Addr5) (wdata : Half)
  deriving DecidableEq, Repr, Inhabited

/-- The backend's answer to the primitive in flight (R180, R181): an oracle draw. The answer to a write carries no
value (R180), so the value of `ok` is looked at for a read only and is never recorded for a write (DEDUCED, log 7). -/
inductive BusAnswer where
  | ok (v : Half)
  | err (e : Word)
  deriving DecidableEq, Repr, Inhabited

/-- One answered primitive of the bus history (R186): kind, addresses, the value read or written, and the outcome. -/
inductive BusEvent where
  | rdOk (pa ra : Addr5) (v : Half)
  | rdErr (pa ra : Addr5) (e : Word)
  | wrOk (pa ra : Addr5) (wdata : Half)
  | wrErr (pa ra : Addr5) (wdata : Half) (e : Word)
  deriving DecidableEq, Repr, Inhabited

/-- One host access by host address (R81: `CSR_BASE + off`), with its width in bytes (R84: only 4 exists). -/
inductive HostAccess where
  | read (addr size : Nat)
  | write (addr size : Nat) (value : Word)
  deriving DecidableEq, Repr, Inhabited

/-- One item of the host's program: an access; the blocking wait `wait` (R147, R268), which reads STATUS at each of its
turns until BUSY = 0; or the suspending wait for IRQ (R268), which makes no access. -/
inductive HostOp where
  | access (a : HostAccess)
  | waitIdle
  | waitIrq
  deriving DecidableEq, Repr, Inhabited

/-- What one host `MemRead` returned: the offset in the window and the value (R83). -/
structure HostRead where
  off : Nat
  value : Word
  deriving DecidableEq, Repr, Inhabited

/-- Whose atomic step comes next (R5, R13): the host; the bus backend answering the primitive in flight, which is the
sequencer's step at that label; the sequencer's own step at a delay label (R271); the tick source (R270); or hardware
reset (R290). -/
inductive Turn where
  | host
  | bus (r : BusAnswer)
  | seq
  | tick
  | reset
  deriving DecidableEq, Repr, Inhabited

end Sys2Proof.Machine
end

