-- ==== Sys2Proof/Config.lean ====
section
/-! DEFINITION. The implementation parameters of spec/00_scope.md R9 (spec/93_implementation_defined.md section 2), and the
free values of the model. A claim over every state holds for every value of the parameters, because a state carries them. -/

namespace Sys2Proof

/-- The controller's PHY address (R40): a bus address 0 to 31, or the sentinel "unknown" (0xFF). The register is
write-any-read-legal, so no other value can be held. -/
inductive PhyAddr where
  | known (a : Addr5)
  | unknown
  deriving DecidableEq, Repr, Inhabited

/-- The parameters of R9. No step changes them. `BUSERR_WIDTH` is the fixed width of `Word` (log 8). -/
structure Params where
  /-- `PHY_ADDR_RESET` (R9, R40). -/
  phyAddrReset : PhyAddr
  /-- `DISC_DELAY_TICKS` (R9, R226), at the 32-bit width of the delay counter that takes it (R49, log 9). -/
  discDelayTicks : Word
  /-- `WUCSR_REG` (R9, R100). -/
  wucsrReg : Half
  /-- `CSR_BASE` (R9, R81): OPEN. -/
  csrBase : Nat
  /-- `TICK_PERIOD` in microseconds (R9, R270). No rule of the machine depends on it. -/
  tickPeriodUs : Nat
  /-- `IRQ_LINE` (R9, R267): OPEN. -/
  irqLine : Nat
  deriving DecidableEq, Repr, Inhabited

/-- The defaults of R9. `CSR_BASE` and `IRQ_LINE` are OPEN in the spec and 0 here (DESIGN CHOICE, log 2). -/
def Params.default : Params where
  phyAddrReset := .unknown
  discDelayTicks := 10
  wucsrReg := 0x8010
  csrBase := 0
  tickPeriodUs := 1000
  irqLine := 0

/-- FREE VALUE (log 3): whose step comes next once the listed schedule is used up. R5 fixes no order. -/
opaque Config.freeTurn : Nat → Machine.Turn

/-- FREE VALUE (log 3): what the host does at a turn of its own once its listed program is used up. -/
opaque Config.freeHostOp : Nat → Machine.HostOp

end Sys2Proof
end

