-- ==== Sys2Proof/Syntax.lean ====
section
/-! DEFINITION. The commands: one constructor per row of spec/opcode_table.json (spec/30_encoding.md R122). R6: the
"instruction" of this hardware is the command. -/

namespace Sys2Proof

/-- A command with the operands its CMD word carries (R121, R122). REGNUM and WDATA are not part of the word: a command
takes them from the ARG register when it is accepted (R120, R163). DEVAD keeps all of its 8 bits (R121, R201). -/
inductive Instr where
  /-- 0x1 C22_RD: Clause 22 primitive read (R183). -/
  | c22Rd (phy reg : Addr5)
  /-- 0x2 C22_WR: Clause 22 primitive write (R185). -/
  | c22Wr (phy reg : Addr5)
  /-- 0x3 C45_RD: Clause 45 composite read (R202). -/
  | c45Rd (phy : Addr5) (dev : Byte)
  /-- 0x4 C45_WR: Clause 45 composite write (R206). -/
  | c45Wr (phy : Addr5) (dev : Byte)
  /-- 0x5 PHY_RESET: reset with a known address, or discovery (R221, R224). -/
  | phyReset
  /-- 0x6 PHY_INIT: initialisation (R232). -/
  | phyInit
  /-- 0x7 POLL_LINK: one link poll (R239). -/
  | pollLink
  deriving DecidableEq, Repr, Inhabited

end Sys2Proof
end

