-- ==== Sys2Proof/Machine/State.lean ====
section
/-! DEFINITION. The state of the block (spec/10_state.md R30 to R54), of the agents around it (R5), and the model's own
records. Plain data. -/

namespace Sys2Proof.Machine

/-- The labels of the sequencer, its program counter (R47, R50). -/
inductive Label where
  | idle | fatal
  | c22r | c22w
  | c45ca | c45rn | c45co | c45dr | c45dw
  | rstW | rstP
  | dscW | dscP | dscD
  | iniCA | iniRN | iniCO | iniDW | iniBM
  | polD | polS | polA | polP
  deriving DecidableEq, Repr, Inhabited

/-- STATUS.ERRCODE (R260). The codes 5 to 15 are never written. -/
inductive ErrCode where
  | none | bus | illegal | addrUnknown | noDevice
  deriving DecidableEq, Repr, Inhabited

/-- The speeds of a link status, in Mbit/s (R140). -/
inductive Speed where
  | s10 | s100 | s1000 | s2500 | s5000 | s10000
  deriving DecidableEq, Repr, Inhabited

/-- The duplex of a link status (R140). -/
inductive Duplex where
  | half | full
  deriving DecidableEq, Repr, Inhabited

/-- A link status: "Down, or Up{Speed, Duplex}" (R140). -/
inductive LinkStatus where
  | down
  | up (speed : Speed) (duplex : Duplex)
  deriving DecidableEq, Repr, Inhabited

/-- The stored bits of the host registers (R30 to R46). BUSY and FATAL are functions of `pc`, not stored (R35); CMD has
no stored value (R54); reserved bits read 0 (R31). -/
structure Regs where
  /-- CTRL.IE (R32). -/
  ie : Bool
  /-- STATUS.DONE (R33). -/
  done : Bool
  /-- STATUS.ERR (R33). -/
  err : Bool
  /-- STATUS.REJ (R33). -/
  rej : Bool
  /-- STATUS.ERRCODE (R33, R260). -/
  errcode : ErrCode
  /-- ARG: WDATA in 31:16, REGNUM in 15:0 (R36). -/
  arg : Word
  /-- RDATA.DATA (R39). -/
  rdata : Half
  /-- PHYADDR.ADDR (R40). -/
  phyaddr : PhyAddr
  /-- POLLINT.TICKS (R43). -/
  pollint : Word
  /-- LINK: the last successful poll's status; absent is VALID = 0, "not a link status" (R44, R140). -/
  link : Option LinkStatus
  /-- BUSERR.CODE (R46). -/
  buserr : Word
  deriving DecidableEq, Repr

/-- The internal latches of the sequencer (R49). The host cannot read them. -/
structure Latches where
  op : BitVec 4
  pa : Addr5
  ra : Addr5
  dev : Addr5
  regnum : Half
  wdata : Half
  cand : Addr5
  att : BitVec 4
  dcnt : Word
  anar : Half
  deriving DecidableEq, Repr

/-- The agents around the block (R5), as plain data: what the host still does, whose step comes when, and which step is
being taken. These are the model's own fields, not registers of the block (log 1, log 3). -/
structure Env where
  /-- The host's program, next item first (R107). -/
  prog : List HostOp
  /-- Whose steps come next, next one first (R5); after the last one, free values. -/
  sched : List Turn
  /-- Whose step is being taken, or was taken last. `exec` reads it: at a host turn a command is issued, at the
  sequencer's turns it takes its next atomic step (R13). -/
  turn : Turn
  /-- How many free turns have been drawn (log 3). -/
  turnDraws : Nat
  /-- How many free host items have been drawn (log 3). -/
  opDraws : Nat
  /-- What the host's reads returned, oldest first (R83). -/
  reads : List HostRead
  deriving DecidableEq, Repr

/-- The machine. -/
structure State where
  /-- The parameters of R9; no step changes them. -/
  params : Params
  /-- The host registers. -/
  regs : Regs
  /-- The sequencer's label (R47, R50). -/
  pc : Label
  /-- The sequencer's latches (R49). -/
  latch : Latches
  /-- The bus history, oldest first: "the model's record, not state of the block" (R186). -/
  history : List BusEvent
  /-- The agents around the block (R5). -/
  env : Env
  deriving DecidableEq, Repr

/-- Why a run stops with a fault. -/
inductive Fault where
  /-- Raised by a host turn: the host address lies outside the 0x40-byte CSR window (R81), so the access is none of this
  block's. Safe: the run stops where the platform would go on (log 5). -/
  | outsideWindow
  deriving DecidableEq, Repr

/-- Why a step is refused. -/
inductive Refusal where
  /-- Raised by an arm of `exec` for an instruction with no meaning yet. Safe. No arm raises it. -/
  | notModelled (mnemonic : String)
  /-- Raised by a host turn: an access of a width other than 32 bits, which "a model has no step for ... and refuses ...
  by name" (R84). Safe: no state changes. -/
  | accessWidth
  /-- Raised by a host turn: a 32-bit access at an offset that is not a multiple of 4 (R84). Safe: no state changes. -/
  | accessAlignment
  deriving DecidableEq, Repr

/-- What every step answers with. -/
abbrev Result := Host.Outcome State Fault Refusal

/-- The host registers after hardware reset (R54, R290). -/
def Regs.reset (p : Params) : Regs where
  ie := false
  done := false
  err := false
  rej := false
  errcode := .none
  arg := 0
  rdata := 0
  phyaddr := p.phyAddrReset
  pollint := 500
  link := none
  buserr := 0

/-- The latches after reset. The spec leaves them unspecified and lets a model take 0 (R49, spec/93 I17): DESIGN CHOICE,
log 4. -/
def Latches.reset : Latches where
  op := 0
  pa := 0
  ra := 0
  dev := 0
  regnum := 0
  wdata := 0
  cand := 0
  att := 0
  dcnt := 0
  anar := 0

/-- Nothing listed: no host program, no schedule, no read (DESIGN CHOICE, log 3). -/
def Env.reset : Env where
  prog := []
  sched := []
  turn := .host
  turnDraws := 0
  opDraws := 0
  reads := []

/-- The block right after hardware reset with parameters `p` (R54, R290), nothing on the bus yet. -/
def State.resetWith (p : Params) : State where
  params := p
  regs := Regs.reset p
  pc := .idle
  latch := Latches.reset
  history := []
  env := Env.reset

/-- The machine right after reset with the default parameters (R9, R54). -/
def State.reset : State := State.resetWith Params.default

end Sys2Proof.Machine
end

