-- ==== Sys2Proof/Machine/Operands.lean ====
section
/-! DEFINITION. Operand forms: the fields of ARG (R124), the masked device identifier (R201), the MMD control word (R130 to
R132), the PHYADDR write (R41), and the assembler's `<reg>` and `<dev>` forms (R150, R151). -/

namespace Sys2Proof.Machine

/-- ARG.REGNUM, bits 15:0 (R124). -/
def argRegnum (a : Word) : Half := a.extractLsb' 0 16

/-- ARG.WDATA, bits 31:16 (R124). -/
def argWdata (a : Word) : Half := a.extractLsb' 16 16

/-- DEVAD & 0x1F as the 5-bit latch holds it (R163, R201). -/
def maskDev (dev : Byte) : Addr5 := dev.extractLsb' 0 5

/-- FUNC values of the MMD control word (R131). -/
def funcAddr : BitVec 2 := 0b00
def funcRead : BitVec 2 := 0b11
def funcWrite : BitVec 2 := 0b01

/-- `ctlword(f, dev)` of R132: FUNC in the top two bits, the identifier masked to 5 bits. -/
def ctlword (f : BitVec 2) (dev : Byte) : Half :=
  f.setWidth 16 <<< 14 ||| (dev &&& 0x1F).setWidth 16

/-- `CTL_ADDR`, `CTL_READ` and `CTL_WRITE` of R132. -/
def ctlAddr (dev : Byte) : Half := ctlword funcAddr dev
def ctlRead (dev : Byte) : Half := ctlword funcRead dev
def ctlWrite (dev : Byte) : Half := ctlword funcWrite dev

/-- PHYADDR.ADDR as its 8 bits (R40). -/
def phyAddrByte : PhyAddr → Byte
  | .known a => a.setWidth 8
  | .unknown => 0xFF

/-- What a write of `v` leaves in PHYADDR.ADDR that held `old` (R41): 0x00 to 0x1F and 0xFF are taken from v[7:0], any
other value is ignored. -/
def phyAddrWrite (v : Word) (old : PhyAddr) : PhyAddr :=
  let b := v.extractLsb' 0 8
  if b ≤ 0x1F then .known (b.extractLsb' 0 5) else if b = 0xFF then .unknown else old

/-- The register address of a `<reg>` operand (R150). -/
def RegOperand.number : RegOperand → Addr5
  | .bmcr => Machine.bmcr
  | .bmsr => Machine.bmsr
  | .phyid1 => Machine.phyid1
  | .phyid2 => Machine.phyid2
  | .anar => Machine.anar
  | .anlpar => Machine.anlpar
  | .mmdctl => Machine.mmdctl
  | .mmddata => Machine.mmddata
  | .vend n => BitVec.ofNat 5 n
  | .reg n => BitVec.ofNat 5 n

/-- The MMD identifier of a `<dev>` operand (R151). -/
def DevOperand.number : DevOperand → Byte
  | .pmapmd => mmdPmapmd
  | .wis => mmdWis
  | .pcs => mmdPcs
  | .phyxs => mmdPhyxs
  | .dtexs => mmdDtexs
  | .an => mmdAn
  | .vend1 => mmdVend1
  | .vend2 => mmdVend2
  | .dev n => BitVec.ofNat 8 n

end Sys2Proof.Machine
end

