-- ==== Sys2Proof/Machine/Flags.lean ====
section
/-! DEFINITION. The flags and the words the host reads: BUSY and FATAL (R35), the STATUS and LINK words (R33, R44, R140), the
interrupt output (R267), the link decode (R244), and every register as its 32-bit value (R30 to R46, R83). -/

namespace Sys2Proof.Machine

/-- `BUSY = (pc ∉ {IDLE, FATAL})` (R33). -/
def Label.busy : Label → Bool
  | .idle | .fatal => false
  | _ => true

/-- STATUS.BUSY (R33, R35). -/
def State.busy (s : State) : Bool := s.pc.busy

/-- STATUS.FATAL (R33, R35). -/
def State.fatal (s : State) : Bool := s.pc == .fatal

/-- The numbers of ERRCODE (R260). -/
def ErrCode.code : ErrCode → BitVec 4
  | .none => 0
  | .bus => 1
  | .illegal => 2
  | .addrUnknown => 3
  | .noDevice => 4

/-- Flag `b` at bit `n` of a word. -/
def flagAt (b : Bool) (n : Nat) : Word := (BitVec.ofBool b).setWidth 32 <<< n

/-- CTRL as read (R32). -/
def ctrlWord (s : State) : Word := flagAt s.regs.ie 0

/-- STATUS as read (R33): ERRCODE in 11:8, FATAL, REJ, ERR, DONE and BUSY in 4:0. -/
def statusWord (s : State) : Word :=
  s.regs.errcode.code.setWidth 32 <<< 8 ||| flagAt s.fatal 4 ||| flagAt s.regs.rej 3 ||| flagAt s.regs.err 2 |||
    flagAt s.regs.done 1 ||| flagAt s.busy 0

/-- SPEED codes (R140). -/
def Speed.code : Speed → BitVec 3
  | .s10 => 0
  | .s100 => 1
  | .s1000 => 2
  | .s2500 => 3
  | .s5000 => 4
  | .s10000 => 5

/-- FULL (R140). -/
def Duplex.isFull : Duplex → Bool
  | .half => false
  | .full => true

/-- The LINK word of a status, with VALID = 1 (R140, R245). -/
def LinkStatus.word : LinkStatus → Word
  | .down => 0x00000080
  | .up speed duplex => flagAt true 7 ||| speed.code.setWidth 32 <<< 4 ||| flagAt duplex.isFull 1 ||| flagAt true 0

/-- LINK as read (R44): 0 before the first successful poll. -/
def linkWord (s : State) : Word :=
  match s.regs.link with
  | none => 0
  | some st => st.word

/-- The interrupt output: `IRQ = x[CTRL].IE & x[STATUS].DONE` (R267). -/
def irq (s : State) : Bool := s.regs.ie && s.regs.done

/-- Whether the block drives line `n` of the platform's interrupt controller: IRQ stands on `IRQ_LINE` alone (R267). -/
def irqOn (s : State) (n : Nat) : Bool := n == s.params.irqLine && irq s

/-- Priority resolution of a negotiated word (R244): bit 8, then bit 7, then bit 6, else 10 Mbit/s half duplex. -/
def resolve (n : Half) : LinkStatus :=
  if able100Full n then .up .s100 .full
  else if able100Half n then .up .s100 .half
  else if able10Full n then .up .s10 .full
  else .up .s10 .half

/-- The registers of the CSR window (R30). -/
def offCtrl : Nat := 0x00
def offStatus : Nat := 0x04
def offArg : Nat := 0x08
def offCmd : Nat := 0x0C
def offRdata : Nat := 0x10
def offPhyaddr : Nat := 0x14
def offPollint : Nat := 0x18
def offLink : Nat := 0x1C
def offBuserr : Nat := 0x20

/-- `MemRead(off, 4)` (R83): the register at `off`; CMD and the reserved slots read 0 (R31, R37). -/
def csrRead (s : State) (off : Nat) : Word :=
  if off = offCtrl then ctrlWord s
  else if off = offStatus then statusWord s
  else if off = offArg then s.regs.arg
  else if off = offRdata then s.regs.rdata.setWidth 32
  else if off = offPhyaddr then (phyAddrByte s.regs.phyaddr).setWidth 32
  else if off = offPollint then s.regs.pollint
  else if off = offLink then linkWord s
  else if off = offBuserr then s.regs.buserr
  else 0

/-- The byte at byte offset `b` of the window (R82): bits 7:0 of a register stand at its offset, 31:24 three above. No
access reads a single byte (R84); this is only where the byte order shows. -/
def windowByte (s : State) (b : Nat) : Byte :=
  (csrRead s (b / 4 * 4)).extractLsb' (b % 4 * 8) 8

end Sys2Proof.Machine
end

