-- ==== Sys2Proof/Machine/Ops.lean ====
section
/-! DEFINITION. The named operations every meaning is built from: the bus port and its history (R12, R180, R186), the ends of
a command (R229, R261, R262: this block's exceptions), refusal, acceptance and the checks of a CMD write (R38, R160 to R165),
the tick (R270) and hardware reset (R290 to R292). -/

namespace Sys2Proof.Machine

/-- The history event of an answered primitive (R186). A write's answer carries no value (R180). -/
def BusEvent.of : BusRequest → BusAnswer → BusEvent
  | .rd pa ra, .ok v => .rdOk pa ra v
  | .rd pa ra, .err e => .rdErr pa ra e
  | .wr pa ra w, .ok _ => .wrOk pa ra w
  | .wr pa ra w, .err e => .wrErr pa ra w e

/-- Append an answered primitive to the bus history (R186). -/
def State.record (s : State) (q : BusRequest) (r : BusAnswer) : State :=
  { s with history := s.history ++ [BusEvent.of q r] }

/-- `pc <- l` (R12). -/
def State.goto (s : State) (l : Label) : State := { s with pc := l }

/-- `complete()` (R261): DONE is set and the sequencer is idle. -/
def State.complete (s : State) : State :=
  { s with regs := { s.regs with done := true }, pc := .idle }

/-- `raise BusError(e)` (R262): the code is recorded as it is, and no result register is written. -/
def State.busError (s : State) (e : Word) : State :=
  { s with regs := { s.regs with err := true, errcode := .bus, buserr := e, done := true }, pc := .idle }

/-- `raise NoDevice()` (R229): the sequencer enters FATAL. -/
def State.noDevice (s : State) : State :=
  { s with regs := { s.regs with done := true, err := true, errcode := .noDevice }, pc := .fatal }

/-- A command that ends at once with an error and no primitive (R162, R165): `pc`, latches and results stay. -/
def State.failAtOnce (s : State) (c : ErrCode) : State :=
  { s with regs := { s.regs with done := true, err := true, errcode := c, buserr := 0 } }

/-- A refused host write: nothing changes but REJ (R38, R160). -/
def State.reject (s : State) : State := { s with regs := { s.regs with rej := true } }

/-- `x[RDATA].DATA <- v` (R183, R205). -/
def State.setRdata (s : State) (v : Half) : State := { s with regs := { s.regs with rdata := v } }

/-- `x[LINK] <- encode(status)` (R245). -/
def State.setLink (s : State) (st : LinkStatus) : State := { s with regs := { s.regs with link := some st } }

/-- `x[PHYADDR].ADDR <- zext_8(a)` (R227). -/
def State.setPhyaddr (s : State) (a : Addr5) : State := { s with regs := { s.regs with phyaddr := .known a } }

/-- Acceptance (R163): the operands are latched by `f`, the previous outcome is cleared (REJ is not), and the sequencer
stands at the start label. -/
def State.accept (s : State) (start : Label) (f : Latches → Latches) : State :=
  { s with
    regs := { s.regs with done := false, err := false, errcode := .none, buserr := 0 }
    latch := f s.latch
    pc := start }

/-- The first two checks of a CMD write (R160): busy, then fatal; otherwise `go`. -/
def State.issue (s : State) (go : State → State) : State :=
  if s.busy then s.reject else if s.fatal then s.reject else go s

/-- The address check of PHY_INIT and POLL_LINK (R160, R165), after busy and fatal. -/
def State.issueAddressed (s : State) (go : Addr5 → State → State) : State :=
  s.issue fun s =>
    match s.regs.phyaddr with
    | .unknown => s.failAtOnce .addrUnknown
    | .known a => go a s

/-- A CMD write with an illegal opcode (R160, R162). -/
def State.issueIllegal (s : State) : State := s.issue fun s => s.failAtOnce .illegal

/-- `BusRead(pa, ra)` answered by `r` (R12, R13): one history event, then `ok v` or a bus error. -/
def State.busRead (s : State) (pa ra : Addr5) (r : BusAnswer) (ok : Half → State → State) : State :=
  match r with
  | .ok v => ok v (s.record (.rd pa ra) r)
  | .err e => (s.record (.rd pa ra) r).busError e

/-- `BusWrite(pa, ra, w)` answered by `r` (R12, R13): one history event, then `ok` or a bus error. -/
def State.busWrite (s : State) (pa ra : Addr5) (w : Half) (r : BusAnswer) (ok : State → State) : State :=
  match r with
  | .ok _ => ok (s.record (.wr pa ra w) r)
  | .err e => (s.record (.wr pa ra w) r).busError e

/-- One atomic step of a command (R5, R13, R160): issued at the host's turn, stepped by the backend's answer at a bus
label, and by the sequencer itself at a delay label. The tick source and reset take no step of a command. -/
def State.commandStep (s : State) (onIssue : State → State) (onAnswer : BusAnswer → State → State)
    (onDelayEnd : State → State) : Result :=
  match s.env.turn with
  | .host => .next (onIssue s)
  | .bus r => .next (onAnswer r s)
  | .seq => .next (onDelayEnd s)
  | .tick | .reset => .next s

/-- `DEV` as an 8-bit identifier for the control-word functions (R132, R201). -/
def Latches.devByte (l : Latches) : Byte := l.dev.setWidth 8

/-- The primitive in flight at each label (R50); nothing at IDLE, at FATAL and during a delay. -/
def State.inFlight (s : State) : Option BusRequest :=
  let l := s.latch
  match s.pc with
  | .idle | .fatal | .dscD | .polD => none
  | .c22r => some (.rd l.pa l.ra)
  | .c22w => some (.wr l.pa l.ra l.wdata)
  | .c45ca => some (.wr l.pa mmdctl (ctlAddr l.devByte))
  | .c45rn => some (.wr l.pa mmddata l.regnum)
  | .c45co => some (.wr l.pa mmdctl (if l.op = 0x3 then ctlRead l.devByte else ctlWrite l.devByte))
  | .c45dr => some (.rd l.pa mmddata)
  | .c45dw => some (.wr l.pa mmddata l.wdata)
  | .rstW => some (.wr l.pa bmcr bmcrResetWord)
  | .rstP => some (.rd l.pa bmcr)
  | .dscW => some (.wr l.cand bmcr bmcrResetWord)
  | .dscP => some (.rd l.cand bmcr)
  | .iniCA => some (.wr l.pa mmdctl (ctlAddr mmdPcs))
  | .iniRN => some (.wr l.pa mmddata s.params.wucsrReg)
  | .iniCO => some (.wr l.pa mmdctl (ctlWrite mmdPcs))
  | .iniDW => some (.wr l.pa mmddata 0)
  | .iniBM => some (.wr l.pa bmcr bmcrInitWord)
  | .polS => some (.rd l.pa bmsr)
  | .polA => some (.rd l.pa anar)
  | .polP => some (.rd l.pa anlpar)

/-- The command that is running, read from the label (R50); at the labels C45_RD and C45_WR share, from `L.OP` (R203). -/
def State.running (s : State) : Option Instr :=
  let l := s.latch
  match s.pc with
  | .idle | .fatal => none
  | .c22r => some (.c22Rd l.pa l.ra)
  | .c22w => some (.c22Wr l.pa l.ra)
  | .c45ca | .c45rn | .c45co => some (if l.op = 0x3 then .c45Rd l.pa l.devByte else .c45Wr l.pa l.devByte)
  | .c45dr => some (.c45Rd l.pa l.devByte)
  | .c45dw => some (.c45Wr l.pa l.devByte)
  | .rstW | .rstP | .dscW | .dscP | .dscD => some .phyReset
  | .iniCA | .iniRN | .iniCO | .iniDW | .iniBM => some .phyInit
  | .polD | .polS | .polA | .polP => some .pollLink

/-- A tick (R270): it lowers the delay counter during a delay, and has no effect otherwise. -/
def State.tick (s : State) : State :=
  if (s.pc = .dscD ∨ s.pc = .polD) ∧ s.latch.dcnt ≠ 0 then
    { s with latch := { s.latch with dcnt := s.latch.dcnt - 1 } }
  else s

/-- Hardware reset (R290, R54): every register at its reset value and the sequencer idle. It sends nothing on the bus
(R292) and keeps the bus history (R186). An answer that comes later finds no primitive in flight and is dropped (R291). -/
def State.hardReset (s : State) : State :=
  { State.resetWith s.params with history := s.history, env := s.env }

end Sys2Proof.Machine
end

