-- ==== Sys2Proof/Machine/Clause22.lean ====
section
/-! DEFINITION. The Clause 22 commands C22_RD and C22_WR (spec/41_station_management.md). -/

namespace Sys2Proof.Machine

/-- C22_RD (R163, R164, R183): accepted with its two addresses; one primitive read; its value goes to RDATA. -/
def execC22Rd (phy reg : Addr5) (s : State) : Result :=
  s.commandStep
    (fun s => s.issue fun s => s.accept .c22r fun l => { l with op := 0x1, pa := phy, ra := reg })
    (fun r s =>
      match s.pc with
      | .c22r => s.busRead s.latch.pa s.latch.ra r fun v s => (s.setRdata v).complete
      | _ => s)
    (fun s => s)

/-- C22_WR (R163, R164, R185): accepted with its two addresses and ARG.WDATA; one primitive write. -/
def execC22Wr (phy reg : Addr5) (s : State) : Result :=
  s.commandStep
    (fun s => s.issue fun s =>
      s.accept .c22w fun l => { l with op := 0x2, pa := phy, ra := reg, wdata := argWdata s.regs.arg })
    (fun r s =>
      match s.pc with
      | .c22w => s.busWrite s.latch.pa s.latch.ra s.latch.wdata r fun s => s.complete
      | _ => s)
    (fun s => s)

end Sys2Proof.Machine
end

