-- ==== Sys2Proof/Machine/Clause45.lean ====
section
/-! DEFINITION. The Clause 45 composites C45_RD and C45_WR (spec/42_clause45.md): four primitives through MMDCTL and MMDDATA,
with the device identifier masked when the command is accepted (R201). -/

namespace Sys2Proof.Machine

/-- C45_RD (R163, R164, R202, R203, R205). -/
def execC45Rd (phy : Addr5) (dev : Byte) (s : State) : Result :=
  s.commandStep
    (fun s => s.issue fun s =>
      s.accept .c45ca fun l =>
        { l with op := 0x3, pa := phy, dev := maskDev dev, regnum := argRegnum s.regs.arg })
    (fun r s =>
      let l := s.latch
      match s.pc with
      | .c45ca => s.busWrite l.pa mmdctl (ctlAddr l.devByte) r fun s => s.goto .c45rn
      | .c45rn => s.busWrite l.pa mmddata l.regnum r fun s => s.goto .c45co
      | .c45co => s.busWrite l.pa mmdctl (ctlRead l.devByte) r fun s => s.goto .c45dr
      | .c45dr => s.busRead l.pa mmddata r fun v s => (s.setRdata v).complete
      | _ => s)
    (fun s => s)

/-- C45_WR (R163, R164, R203, R206, R207). -/
def execC45Wr (phy : Addr5) (dev : Byte) (s : State) : Result :=
  s.commandStep
    (fun s => s.issue fun s =>
      s.accept .c45ca fun l =>
        { l with
          op := 0x4, pa := phy, dev := maskDev dev
          regnum := argRegnum s.regs.arg, wdata := argWdata s.regs.arg })
    (fun r s =>
      let l := s.latch
      match s.pc with
      | .c45ca => s.busWrite l.pa mmdctl (ctlAddr l.devByte) r fun s => s.goto .c45rn
      | .c45rn => s.busWrite l.pa mmddata l.regnum r fun s => s.goto .c45co
      | .c45co => s.busWrite l.pa mmdctl (ctlWrite l.devByte) r fun s => s.goto .c45dw
      | .c45dw => s.busWrite l.pa mmddata l.wdata r fun s => s.complete
      | _ => s)
    (fun s => s)

end Sys2Proof.Machine
end

