-- ==== Sys2Proof/Machine/PhyInit.lean ====
section
/-! DEFINITION. PHY_INIT (spec/43_phy_controller.md section 2): a composite write of 0 to the wake-up register in the PCS
device, then the BMCR write that starts auto-negotiation (R232 to R235). -/

namespace Sys2Proof.Machine

/-- PHY_INIT (R163 to R165, R232 to R234). -/
def execPhyInit (s : State) : Result :=
  s.commandStep
    (fun s => s.issueAddressed fun a s => s.accept .iniCA fun l => { l with op := 0x6, pa := a })
    (fun r s =>
      let l := s.latch
      match s.pc with
      | .iniCA => s.busWrite l.pa mmdctl (ctlAddr mmdPcs) r fun s => s.goto .iniRN
      | .iniRN => s.busWrite l.pa mmddata s.params.wucsrReg r fun s => s.goto .iniCO
      | .iniCO => s.busWrite l.pa mmdctl (ctlWrite mmdPcs) r fun s => s.goto .iniDW
      | .iniDW => s.busWrite l.pa mmddata 0x0000 r fun s => s.goto .iniBM
      | .iniBM => s.busWrite l.pa bmcr bmcrInitWord r fun s => s.complete
      | _ => s)
    (fun s => s)

end Sys2Proof.Machine
end

