-- ==== Sys2Proof/Machine/PhyReset.lean ====
section
/-! DEFINITION. PHY_RESET (spec/43_phy_controller.md section 1): the reset of a known PHY with its unbounded wait (R221 to
R223), and discovery over the 32 candidates with ten attempts each (R224 to R231). -/

namespace Sys2Proof.Machine

/-- `found()` (R227): the candidate becomes the PHY address and the command ends. -/
def State.found (s : State) : State := (s.setPhyaddr s.latch.cand).complete

/-- A discovery read that saw the reset bit set (R226): one more attempt counted, then the delay. -/
def State.missed (s : State) : State :=
  { s with
    latch := { s.latch with att := s.latch.att + 1, dcnt := s.params.discDelayTicks }
    pc := .dscD }

/-- The end of a discovery delay (R228): the next attempt, the next candidate, or NoDevice. -/
def State.discoveryNext (s : State) : State :=
  if s.latch.att < discAttempts then s.goto .dscP
  else if s.latch.cand < lastCandidate then
    { s with latch := { s.latch with cand := s.latch.cand + 1 }, pc := .dscW }
  else s.noDevice

/-- PHY_RESET (R163, R164, R221 to R229). -/
def execPhyReset (s : State) : Result :=
  s.commandStep
    (fun s => s.issue fun s =>
      match s.regs.phyaddr with
      | .known a => s.accept .rstW fun l => { l with op := 0x5, pa := a }
      | .unknown => s.accept .dscW fun l => { l with op := 0x5, cand := 0, att := 0 })
    (fun r s =>
      let l := s.latch
      match s.pc with
      | .rstW => s.busWrite l.pa bmcr bmcrResetWord r fun s => s.goto .rstP
      | .rstP => s.busRead l.pa bmcr r fun v s => if resetBit v then s.goto .rstP else s.complete
      | .dscW => s.busWrite l.cand bmcr bmcrResetWord r fun s =>
          { s with latch := { s.latch with att := 0 }, pc := .dscP }
      | .dscP => s.busRead l.cand bmcr r fun v s => if resetBit v then s.missed else s.found
      | _ => s)
    (fun s => if s.pc = .dscD ∧ s.latch.dcnt = 0 then s.discoveryNext else s)

end Sys2Proof.Machine
end

