-- ==== Sys2Proof/Machine/PollLink.lean ====
section
/-! DEFINITION. POLL_LINK (spec/43_phy_controller.md section 3): the poll interval, then BMSR, ANAR and ANLPAR with the
auto-negotiation decode (R239 to R248). -/

namespace Sys2Proof.Machine

/-- A poll ends with a status: LINK is written in the step of `complete()` (R245). -/
def State.pollEnds (s : State) (st : LinkStatus) : State := (s.setLink st).complete

/-- POLL_LINK (R163 to R165, R239 to R245). -/
def execPollLink (s : State) : Result :=
  s.commandStep
    (fun s => s.issueAddressed fun a s =>
      s.accept .polD fun l => { l with op := 0x7, pa := a, dcnt := s.regs.pollint })
    (fun r s =>
      let l := s.latch
      match s.pc with
      | .polS => s.busRead l.pa bmsr r fun v s =>
          if !anComplete v then s.pollEnds .down
          else if !linkUp v then s.pollEnds .down
          else s.goto .polA
      | .polA => s.busRead l.pa anar r fun v s =>
          { s with latch := { s.latch with anar := v }, pc := .polP }
      | .polP => s.busRead l.pa anlpar r fun v s => s.pollEnds (resolve (s.latch.anar &&& v))
      | _ => s)
    (fun s => if s.pc = .polD ∧ s.latch.dcnt = 0 then s.goto .polS else s)

end Sys2Proof.Machine
end

