-- ==== Sys2Proof/Machine/Dispatch.lean ====
section
/-! DEFINITION. One arm per command (R6): the meaning of each row of spec/opcode_table.json. -/

namespace Sys2Proof.Machine

def exec (i : Instr) (s : State) : Host.Outcome State Fault Refusal :=
  match i with
  | .c22Rd phy reg => Sys2Proof.Machine.execC22Rd phy reg s
  | .c22Wr phy reg => Sys2Proof.Machine.execC22Wr phy reg s
  | .c45Rd phy dev => Sys2Proof.Machine.execC45Rd phy dev s
  | .c45Wr phy dev => Sys2Proof.Machine.execC45Wr phy dev s
  | .phyReset => Sys2Proof.Machine.execPhyReset s
  | .phyInit => Sys2Proof.Machine.execPhyInit s
  | .pollLink => Sys2Proof.Machine.execPollLink s

end Sys2Proof.Machine
end

