-- ==== Sys2Proof/WellFormed.lean ====
section
/-! DEFINITION. Which terms are well formed. A command's operands have the widths of their CMD fields, so "a value that is
out of range cannot be formed" (R86) and every `Instr` is well formed. The spec's range checks stand on assembler lines:
"an operand out of range is an assembler error, not an encoding" (R145, R150, R151). -/

namespace Sys2Proof

/-- Every command is well formed (R86): the operand types are the CMD fields' widths, so nothing is left to check. -/
def Instr.wf : Instr → Bool
  | .c22Rd _ _ | .c22Wr _ _ | .c45Rd _ _ | .c45Wr _ _ | .phyReset | .phyInit | .pollLink => true

namespace Machine

/-- `<phy>` is 0 to 31 (R145). -/
def phyOk (n : Nat) : Bool := n ≤ 31

/-- `<imm16>` is 0 to 0xFFFF (R145). -/
def immOk (n : Nat) : Bool := n ≤ 0xFFFF

/-- `vend(n)` needs 16 ≤ n ≤ 31, `reg(n)` needs n ≤ 31 (R150, spec/90_conflicts.md C1). -/
def RegOperand.wf : RegOperand → Bool
  | .vend n => 16 ≤ n && n ≤ 31
  | .reg n => n ≤ 31
  | _ => true

/-- `dev(n)` needs n ≤ 255 (R151). -/
def DevOperand.wf : DevOperand → Bool
  | .dev n => n ≤ 255
  | _ => true

/-- The range checks of a line (R145, R147, R150, R151). -/
def AsmLine.wf : AsmLine → Bool
  | .c22Rd phy reg => phyOk phy && reg.wf
  | .c22Wr phy reg value => phyOk phy && reg.wf && immOk value
  | .c45Rd phy dev regnum => phyOk phy && dev.wf && immOk regnum
  | .c45Wr phy dev regnum value => phyOk phy && dev.wf && immOk regnum && immOk value
  | .setaddr a => a ≤ 31 || a == 0xFF
  | .setpoll n => n ≤ 0xFFFFFFFF
  | _ => true

end Machine

end Sys2Proof
end

