-- ==== Sys2Proof/Decode.lean ====
section
/-! DEFINITION. The CMD word (spec/30_encoding.md R120 to R126): a decoder that is total on any bytes and rejects by name, and
after it an encoder written from the same field layout. -/

namespace Sys2Proof

/-- Why bytes are no command: fewer than the four bytes of a CMD word, or one of the illegal opcodes 0x0 and 0x8 to 0xF
(R125). -/
inductive DecodeReject where
  | truncated
  | illegalOpcode (op : BitVec 4)
  deriving DecidableEq, Repr, Inhabited

/-- CMD.OP, bits 3:0 (R121). -/
def cmdOp (w : Word) : BitVec 4 := w.extractLsb' 0 4

/-- CMD.PHYAD, bits 12:8 (R121). -/
def cmdPhyad (w : Word) : Addr5 := w.extractLsb' 8 5

/-- CMD.REGAD, bits 20:16 (R121). -/
def cmdRegad (w : Word) : Addr5 := w.extractLsb' 16 5

/-- CMD.DEVAD, bits 31:24 (R121). -/
def cmdDevad (w : Word) : Byte := w.extractLsb' 24 8

/-- The command of a CMD word (R122, R123): selected by CMD[3:0] alone; reserved bits and the fields a command does not
use are ignored. -/
def decodeCmd (w : Word) : Except DecodeReject Instr :=
  match (cmdOp w).toNat with
  | 1 => .ok (.c22Rd (cmdPhyad w) (cmdRegad w))
  | 2 => .ok (.c22Wr (cmdPhyad w) (cmdRegad w))
  | 3 => .ok (.c45Rd (cmdPhyad w) (cmdDevad w))
  | 4 => .ok (.c45Wr (cmdPhyad w) (cmdDevad w))
  | 5 => .ok .phyReset
  | 6 => .ok .phyInit
  | 7 => .ok .pollLink
  | _ => .error (.illegalOpcode (cmdOp w))

/-- A word from its four bytes, the first byte lowest (R82: little-endian). -/
def wordOfBytes (b0 b1 b2 b3 : Byte) : Word :=
  b3.setWidth 32 <<< 24 ||| b2.setWidth 32 <<< 16 ||| b1.setWidth 32 <<< 8 ||| b0.setWidth 32

/-- The bytes of a word, lowest first (R82). -/
def bytesOfWord (w : Word) : List Byte :=
  [w.extractLsb' 0 8, w.extractLsb' 8 8, w.extractLsb' 16 8, w.extractLsb' 24 8]

/-- The command at the head of a list of bytes. -/
def decodeBytes : List Byte → Except DecodeReject Instr
  | b0 :: b1 :: b2 :: b3 :: _ => decodeCmd (wordOfBytes b0 b1 b2 b3)
  | _ => .error .truncated

/-- The CMD word whose bits are the lowest `nbits` bits of `w`; every bit above them is 0. -/
def tableWord (nbits w : Nat) : Word := BitVec.ofNat 32 (w % 2 ^ nbits)

/-- What the decoder reads from a word of spec/opcode_table.json, laid out as the CSR window stores it. -/
def decodeTableWord (nbits w : Nat) : Option Instr :=
  (decodeBytes (bytesOfWord (tableWord nbits w))).toOption

/-- The opcode of a command (R122). -/
def Instr.opcode : Instr → BitVec 4
  | .c22Rd _ _ => 0x1
  | .c22Wr _ _ => 0x2
  | .c45Rd _ _ => 0x3
  | .c45Wr _ _ => 0x4
  | .phyReset => 0x5
  | .phyInit => 0x6
  | .pollLink => 0x7

/-- `cmdword(op, phy, reg, dev)` of R146. -/
def cmdword (op : BitVec 4) (phy reg : Addr5) (dev : Byte) : Word :=
  dev.setWidth 32 <<< 24 ||| reg.setWidth 32 <<< 16 ||| phy.setWidth 32 <<< 8 ||| op.setWidth 32

/-- The CMD word of a command, with every ignored bit 0 (R121, R146). -/
def encode : Instr → Word
  | .c22Rd phy reg => cmdword 0x1 phy reg 0
  | .c22Wr phy reg => cmdword 0x2 phy reg 0
  | .c45Rd phy dev => cmdword 0x3 phy 0 dev
  | .c45Wr phy dev => cmdword 0x4 phy 0 dev
  | .phyReset => cmdword 0x5 0 0 0
  | .phyInit => cmdword 0x6 0 0 0
  | .pollLink => cmdword 0x7 0 0 0

/-- The four bytes of a command's CMD word, as the CSR window holds them (R82). -/
def encodeBytes (i : Instr) : List Byte := bytesOfWord (encode i)

end Sys2Proof
end

