-- ==== Sys2Proof/Machine/HostPort.lean ====
section
/-! DEFINITION. The turns (R5) and the host port: reads and writes of the CSR window (R30 to R46, R81 to R85), the refusal of
writes while busy (R38), and the host's two ways of waiting (R147, R268). -/

namespace Sys2Proof.Machine

/-- Whose step comes next, taken from the schedule, or a free value once the schedule is used up (R5, log 3). -/
def State.takeTurn (s : State) : State :=
  match s.env.sched with
  | t :: rest => { s with env := { s.env with sched := rest, turn := t } }
  | [] => { s with env := { s.env with turn := Config.freeTurn s.env.turnDraws, turnDraws := s.env.turnDraws + 1 } }

/-- A host write that is refused while BUSY = 1 (R38). -/
def State.unlessBusy (s : State) (go : State → State) : State := if s.busy then s.reject else go s

/-- `MemWrite(off, 4, v)` to every slot but CMD (R85). RDATA, LINK, BUSERR and the reserved slots take no write. -/
def csrWrite (s : State) (off : Nat) (v : Word) : State :=
  if off = offCtrl then { s with regs := { s.regs with ie := v.getLsbD 0 } }
  else if off = offStatus then
    { s with regs := { s.regs with done := s.regs.done && !v.getLsbD 1, rej := s.regs.rej && !v.getLsbD 3 } }
  else if off = offArg then s.unlessBusy fun s => { s with regs := { s.regs with arg := v } }
  else if off = offPhyaddr then
    s.unlessBusy fun s => { s with regs := { s.regs with phyaddr := phyAddrWrite v s.regs.phyaddr } }
  else if off = offPollint then s.unlessBusy fun s => { s with regs := { s.regs with pollint := v } }
  else s

/-- What a host turn comes to: the state after it; a CMD write, whose word is handled next; or a stop. -/
inductive HostAction where
  | done (s : State)
  | command (w : Word) (s : State)
  | fault (r : Fault)
  | refused (r : Refusal)

/-- What an access of `size` bytes at host address `addr` reaches (R81, R84): an offset of the window, or a stop. -/
inductive Reach where
  | slot (off : Nat)
  | fault (r : Fault)
  | refused (r : Refusal)
  deriving DecidableEq, Repr

/-- The window check, then the width, then the alignment (R81, R84). The order of the three is DESIGN CHOICE (log 5). -/
def reach (p : Params) (addr size : Nat) : Reach :=
  if addr < p.csrBase ∨ p.csrBase + 0x40 ≤ addr then .fault .outsideWindow
  else if size ≠ 4 then .refused .accessWidth
  else if (addr - p.csrBase) % 4 ≠ 0 then .refused .accessAlignment
  else .slot (addr - p.csrBase)

/-- `MemRead(off, 4)`: no state of the block changes (R83); the value is noted in the model's record of reads. -/
def State.hostRead (s : State) (off : Nat) : State :=
  { s with env := { s.env with reads := s.env.reads ++ [{ off := off, value := csrRead s off }] } }

/-- One host access (R83 to R85). -/
def State.hostAccess (s : State) : HostAccess → HostAction
  | .read addr size =>
    match reach s.params addr size with
    | .slot off => .done (s.hostRead off)
    | .fault r => .fault r
    | .refused r => .refused r
  | .write addr size v =>
    match reach s.params addr size with
    | .slot off => if off = offCmd then .command v s else .done (csrWrite s off v)
    | .fault r => .fault r
    | .refused r => .refused r

/-- One turn of the host on item `op`, with `rest` the program after it. `wait` reads STATUS and stays while BUSY = 1
(R147); the wait for IRQ stays while IRQ = 0 (R268). -/
def State.hostOp (s : State) (op : HostOp) (rest : List HostOp) : HostAction :=
  match op with
  | .access a => { s with env := { s.env with prog := rest } }.hostAccess a
  | .waitIdle =>
    .done ({ s with env := { s.env with prog := if s.busy then op :: rest else rest } }.hostRead offStatus)
  | .waitIrq => .done { s with env := { s.env with prog := if irq s then rest else op :: rest } }

/-- The host's turn: the next item of its program, or a free value once the program is used up (R5, log 3). -/
def State.hostTurn (s : State) : HostAction :=
  match s.env.prog with
  | op :: rest => s.hostOp op rest
  | [] => { s with env := { s.env with opDraws := s.env.opDraws + 1 } }.hostOp (Config.freeHostOp s.env.opDraws) []

/-- `s` with a CMD write of `w` as the host's next access and the host's turn next. -/
def State.withCmdWrite (s : State) (w : Word) : State :=
  { s with
    env := { s.env with
      prog := .access (.write (s.params.csrBase + offCmd) 4 w) :: s.env.prog
      sched := .host :: s.env.sched } }

end Sys2Proof.Machine
end

