-- ==== Sys2Proof/Machine/Turns.lean ====
section
/-! DEFINITION. The atomic step of the agent whose turn it is (R5, R13), and the handling of a CMD write (R160). -/

namespace Sys2Proof.Machine

/-- A CMD write of `w` (R160): the command it decodes to, or an illegal opcode. -/
def State.cmdWrite (w : Word) (s : State) : Result :=
  match decodeCmd w with
  | .ok i => exec i s
  | .error _ => .next s.issueIllegal

/-- The step of the agent whose turn it is, in a state whose `turn` says so. -/
def State.takeStep (s : State) : Result :=
  match s.env.turn with
  | .host =>
    match s.hostTurn with
    | .done s' => .next s'
    | .command w s' => s'.cmdWrite w
    | .fault r => .fault r
    | .refused r => .refused r
  | .bus _ | .seq =>
    match s.running with
    | some i => exec i s
    | none => .next s
  | .tick => .next s.tick
  | .reset => .next s.hardReset

end Sys2Proof.Machine
end

