-- ==== Sys2Proof/Machine/Step.lean ====
section
/-! DEFINITION. One atomic step of one agent (R5, R13). -/

namespace Sys2Proof.Machine

/-- One step of the machine: the next turn is taken, then that agent's atomic step (R5). -/
def step (s : State) : Host.Outcome State Fault Refusal := s.takeTurn.takeStep

/-- `s` with the command word `w` (its lowest `nbits` bits) written to CMD by the very next step. A program comes to run
by the host's CMD writes alone (R6, R112, log 6). -/
def State.withFetchWord (s : State) (nbits w : Nat) : State := s.withCmdWrite (tableWord nbits w)

end Sys2Proof.Machine
end

