-- ==== Sys2Proof/Machine/Assembler.lean ====
section
/-! DEFINITION. The host-side assembler (spec/30_encoding.md R145 to R151): lines to host accesses, and the text of a line to
the line. It changes nothing in the machine (spec/92 D35): its output is what the host's program may hold. -/

namespace Sys2Proof.Machine

/-- A 32-bit write at offset `off` of the window at `base` (R81, R146). -/
def writeOp (base off : Nat) (v : Word) : HostOp := .access (.write (base + off) 4 v)

/-- A 32-bit read at offset `off` of the window at `base` (R81, R147). -/
def readOp (base off : Nat) : HostOp := .access (.read (base + off) 4)

/-- ARG as R146 writes it: `v << 16 | n`. -/
def argWord (value regnum : Nat) : Word := BitVec.ofNat 32 value <<< 16 ||| BitVec.ofNat 32 regnum

/-- The expansion of a line whose operands are in range (R146, R147). -/
def AsmLine.expand (base : Nat) : AsmLine → List HostOp
  | .c22Rd phy reg => [writeOp base offCmd (cmdword 0x1 (BitVec.ofNat 5 phy) reg.number 0)]
  | .c22Wr phy reg value =>
    [writeOp base offArg (argWord value 0), writeOp base offCmd (cmdword 0x2 (BitVec.ofNat 5 phy) reg.number 0)]
  | .c45Rd phy dev regnum =>
    [writeOp base offArg (argWord 0 regnum), writeOp base offCmd (cmdword 0x3 (BitVec.ofNat 5 phy) 0 dev.number)]
  | .c45Wr phy dev regnum value =>
    [writeOp base offArg (argWord value regnum), writeOp base offCmd (cmdword 0x4 (BitVec.ofNat 5 phy) 0 dev.number)]
  | .phyReset => [writeOp base offCmd 0x00000005]
  | .phyInit => [writeOp base offCmd 0x00000006]
  | .pollLink => [writeOp base offCmd 0x00000007]
  | .wait => [.waitIdle]
  | .ack => [writeOp base offStatus 0x0000000A]
  | .setaddr a => [writeOp base offPhyaddr (BitVec.ofNat 32 a)]
  | .auto => [writeOp base offPhyaddr 0x000000FF]
  | .setpoll n => [writeOp base offPollint (BitVec.ofNat 32 n)]
  | .ien => [writeOp base offCtrl 1]
  | .idis => [writeOp base offCtrl 0]
  | .rdData => [readOp base offRdata]
  | .rdLink => [readOp base offLink]

/-- A line's host items, or nothing where an operand is out of range: "an assembler error, not an encoding" (R145). -/
def AsmLine.assemble (base : Nat) (line : AsmLine) : Option (List HostOp) :=
  if line.wf then some (line.expand base) else none

/-- A listing's host items, in order. -/
def assembleAll (base : Nat) : List AsmLine → Option (List HostOp)
  | [] => some []
  | line :: rest =>
    match line.assemble base, assembleAll base rest with
    | some ops, some more => some (ops ++ more)
    | _, _ => none

/-- The value of a digit, at most 15. -/
def digitValue (c : Char) : Option Nat :=
  if '0' ≤ c ∧ c ≤ '9' then some (c.toNat - '0'.toNat)
  else if 'a' ≤ c ∧ c ≤ 'f' then some (c.toNat - 'a'.toNat + 10)
  else if 'A' ≤ c ∧ c ≤ 'F' then some (c.toNat - 'A'.toNat + 10)
  else none

/-- The number written by digits after `acc`, in radix `radix`. -/
def parseDigits (radix acc : Nat) : List Char → Option Nat
  | [] => some acc
  | c :: cs =>
    match digitValue c with
    | some d => if d < radix then parseDigits radix (acc * radix + d) cs else none
    | none => none

/-- A decimal or hexadecimal number (R145). -/
def parseNumber : List Char → Option Nat
  | [] => none
  | '0' :: 'x' :: [] => none
  | '0' :: 'x' :: cs => parseDigits 16 0 cs
  | cs => parseDigits 10 0 cs

/-- A line without its comment, which `--` or `;` opens (DEDUCED from the listings of R145 and spec/95 section 3, log 10). -/
def dropComment : List Char → List Char
  | [] => []
  | ';' :: _ => []
  | '-' :: '-' :: _ => []
  | c :: cs => c :: dropComment cs

/-- A blank between the parts of a line. -/
def isBlank (c : Char) : Bool := c == ' ' || c == '\t'

/-- Without the blanks around it. -/
def trimBlanks (cs : List Char) : List Char := ((cs.dropWhile isBlank).reverse.dropWhile isBlank).reverse

/-- The operands of a line: its parts between commas (R145). -/
def splitCommas : List Char → List (List Char)
  | [] => [[]]
  | c :: cs =>
    match splitCommas cs with
    | [] => [[c]]
    | part :: parts => if c = ',' then [] :: part :: parts else (c :: part) :: parts

/-- `n` where the text is `name(n)` (R150, R151). -/
def parseCall (name cs : List Char) : Option Nat :=
  if cs.take name.length = name ∧ (cs.drop name.length).head? = some '(' ∧ cs.getLast? = some ')' then
    parseNumber (trimBlanks ((cs.drop (name.length + 1)).dropLast))
  else none

/-- The named registers of R150. -/
def regNames : List (List Char × RegOperand) :=
  [("bmcr".toList, .bmcr), ("bmsr".toList, .bmsr), ("phyid1".toList, .phyid1), ("phyid2".toList, .phyid2),
    ("anar".toList, .anar), ("anlpar".toList, .anlpar), ("mmdctl".toList, .mmdctl), ("mmddata".toList, .mmddata)]

/-- The named devices of R151. -/
def devNames : List (List Char × DevOperand) :=
  [("pmapmd".toList, .pmapmd), ("wis".toList, .wis), ("pcs".toList, .pcs), ("phyxs".toList, .phyxs),
    ("dtexs".toList, .dtexs), ("an".toList, .an), ("vend1".toList, .vend1), ("vend2".toList, .vend2)]

/-- A `<reg>` operand (R150). -/
def parseReg (cs : List Char) : Option RegOperand :=
  (regNames.lookup cs).or
    (((parseCall "vend".toList cs).map .vend).or ((parseCall "reg".toList cs).map .reg))

/-- A `<dev>` operand (R151). -/
def parseDev (cs : List Char) : Option DevOperand :=
  (devNames.lookup cs).or ((parseCall "dev".toList cs).map .dev)

/-- The mnemonics that take no operand (R145, R147). -/
def plainLines : List (List Char × AsmLine) :=
  [("phy.reset".toList, .phyReset), ("phy.init".toList, .phyInit), ("poll.link".toList, .pollLink),
    ("wait".toList, .wait), ("ack".toList, .ack), ("auto".toList, .auto), ("ien".toList, .ien),
    ("idis".toList, .idis), ("rd.data".toList, .rdData), ("rd.link".toList, .rdLink)]

/-- A line from its mnemonic and its operands (R145, R147). -/
def parseOperands (mn : List Char) (ops : List (List Char)) : Option AsmLine :=
  match ops with
  | [] => plainLines.lookup mn
  | [a] =>
    if mn = "setaddr".toList then (parseNumber a).map .setaddr
    else if mn = "setpoll".toList then (parseNumber a).map .setpoll
    else none
  | [a, b] =>
    if mn = "c22.rd".toList then (parseNumber a).bind fun p => (parseReg b).map (.c22Rd p) else none
  | [a, b, c] =>
    if mn = "c22.wr".toList then
      (parseNumber a).bind fun p => (parseReg b).bind fun r => (parseNumber c).map (.c22Wr p r)
    else if mn = "c45.rd".toList then
      (parseNumber a).bind fun p => (parseDev b).bind fun d => (parseNumber c).map (.c45Rd p d)
    else none
  | [a, b, c, e] =>
    if mn = "c45.wr".toList then
      (parseNumber a).bind fun p => (parseDev b).bind fun d =>
        (parseNumber c).bind fun n => (parseNumber e).map (.c45Wr p d n)
    else none
  | _ => none

/-- A line from its text (R145): a mnemonic, then its operands separated by commas. -/
def parseLine (text : List Char) : Option AsmLine :=
  let cs := trimBlanks (dropComment text)
  let mn := cs.takeWhile (fun c => !isBlank c)
  let rest := trimBlanks (cs.drop mn.length)
  parseOperands mn (if rest = [] then [] else (splitCommas rest).map trimBlanks)

end Sys2Proof.Machine
end

