-- ==== Sys2Proof/Safety.lean ====
section
/-! DEFINITION. The terms claims use: runs of several steps, the invariant of the machine, the events a running command has
put on the bus so far, and the schedules of discovery. -/

namespace Sys2Proof.Machine

/-- `n` steps, stopping at the first fault or refusal. -/
def stepN : Nat → State → Result
  | 0, s => .next s
  | n + 1, s =>
    match step s with
    | .next s' => stepN n s'
    | .fault r => .fault r
    | .refused r => .refused r

/-- How the outcome flags, the error code and BUSERR stand together (R33, R46, R163, R229, R260 to R263): a running command
has a cleared outcome; ERR stands with a cause; BUSERR is 0 unless the cause is BUS; NO_DEVICE is the FATAL state. -/
structure State.OutcomeOk (s : State) : Prop where
  cleared : s.busy = true →
    s.regs.done = false ∧ s.regs.err = false ∧ s.regs.errcode = .none ∧ s.regs.buserr = 0
  cause : s.regs.err = true ↔ s.regs.errcode ≠ .none
  code : s.regs.errcode ≠ .bus → s.regs.buserr = 0
  fatal : s.regs.errcode = .noDevice ↔ s.pc = .fatal

/-- What stands at each label (R49, R50, R164, R226 to R228, R240): the opcode latched, the address the command runs at, and
the bounds of the attempt and delay counters. -/
def State.SequencerOk (s : State) : Prop :=
  let l := s.latch
  let atAddress : Prop := s.regs.phyaddr = .known l.pa
  match s.pc with
  | .idle | .fatal => True
  | .c22r => l.op = 0x1
  | .c22w => l.op = 0x2
  | .c45ca | .c45rn | .c45co => l.op = 0x3 ∨ l.op = 0x4
  | .c45dr => l.op = 0x3
  | .c45dw => l.op = 0x4
  | .rstW | .rstP => l.op = 0x5 ∧ atAddress
  | .dscW => l.op = 0x5 ∧ s.regs.phyaddr = .unknown
  | .dscP => l.op = 0x5 ∧ s.regs.phyaddr = .unknown ∧ l.att.toNat < 10
  | .dscD => l.op = 0x5 ∧ s.regs.phyaddr = .unknown ∧ 1 ≤ l.att.toNat ∧ l.att.toNat ≤ 10 ∧
      l.dcnt ≤ s.params.discDelayTicks
  | .iniCA | .iniRN | .iniCO | .iniDW | .iniBM => l.op = 0x6 ∧ atAddress
  | .polD => l.op = 0x7 ∧ atAddress ∧ l.dcnt ≤ s.regs.pollint
  | .polS | .polA | .polP => l.op = 0x7 ∧ atAddress

/-- The statuses the generic decode produces (R140, R244). -/
def genericStatus : List LinkStatus :=
  [.down, .up .s10 .half, .up .s10 .full, .up .s100 .half, .up .s100 .full]

/-- The invariant that every step keeps. -/
structure State.Inv (s : State) : Prop where
  outcome : s.OutcomeOk
  sequencer : s.SequencerOk
  link : ∀ st, s.regs.link = some st → st ∈ genericStatus

/-- The events a straight-line command has put on the bus when the sequencer stands at its label: for C45_RD and C45_WR by
R203, for PHY_INIT by R233. -/
def State.issuedSoFar (s : State) : Option (List BusEvent) :=
  let l := s.latch
  let ca : BusEvent := .wrOk l.pa mmdctl (ctlAddr l.devByte)
  let rn : BusEvent := .wrOk l.pa mmddata l.regnum
  let iniCA : BusEvent := .wrOk l.pa mmdctl (ctlAddr mmdPcs)
  let iniRN : BusEvent := .wrOk l.pa mmddata s.params.wucsrReg
  let iniCO : BusEvent := .wrOk l.pa mmdctl (ctlWrite mmdPcs)
  let iniDW : BusEvent := .wrOk l.pa mmddata 0
  match s.pc with
  | .c45ca => some []
  | .c45rn => some [ca]
  | .c45co => some [ca, rn]
  | .c45dr => some [ca, rn, .wrOk l.pa mmdctl (ctlRead l.devByte)]
  | .c45dw => some [ca, rn, .wrOk l.pa mmdctl (ctlWrite l.devByte)]
  | .iniCA => some []
  | .iniRN => some [iniCA]
  | .iniCO => some [iniCA, iniRN]
  | .iniDW => some [iniCA, iniRN, iniCO]
  | .iniBM => some [iniCA, iniRN, iniCO, iniDW]
  | _ => none

/-- The label after the sequencer's own on a straight line (R203, R233); none at a line's last label and elsewhere. -/
def State.nextOnLine (s : State) : Option Label :=
  match s.pc with
  | .c45ca => some .c45rn
  | .c45rn => some .c45co
  | .c45co => some (if s.latch.op = 0x3 then .c45dr else .c45dw)
  | .iniCA => some .iniRN
  | .iniRN => some .iniCO
  | .iniCO => some .iniDW
  | .iniDW => some .iniBM
  | _ => none

/-- How many primitives discovery has issued when the sequencer stands at a discovery label (R230): 11 for each earlier
candidate, the reset write of this one, and one for each attempt. -/
def State.discoveryCount (s : State) : Option Nat :=
  match s.pc with
  | .dscW => some (11 * s.latch.cand.toNat)
  | .dscP | .dscD => some (11 * s.latch.cand.toNat + 1 + s.latch.att.toNat)
  | _ => none

/-- The turns of one discovery read that answers `v` with the reset bit set: the answer, `d` ticks, the delay's end. -/
def missTurns (d : Nat) (v : Half) : List Turn :=
  .bus (.ok v) :: (List.replicate d .tick ++ [.seq])

/-- The turns of a candidate whose reset write is answered Ok and whose reads answer `vs`, each with the bit set. -/
def absentTurns (d : Nat) (vs : List Half) : List Turn :=
  .bus (.ok 0) :: vs.flatMap (missTurns d)

/-- The events of that candidate at address `a`. -/
def absentEvents (a : Addr5) (vs : List Half) : List BusEvent :=
  .wrOk a bmcr bmcrResetWord :: vs.map (fun v => .rdOk a bmcr v)

/-- The turns of a row of absent candidates. -/
def searchTurns (d : Nat) (reads : List (List Half)) : List Turn :=
  reads.flatMap (absentTurns d)

/-- The events of a row of absent candidates from address `a` upwards. -/
def searchEvents (a : Addr5) : List (List Half) → List BusEvent
  | [] => []
  | vs :: rest => absentEvents a vs ++ searchEvents (a + 1) rest

/-- Ten reads, each with the reset bit set: the candidate is absent (R230, R231). -/
def AbsentReads (vs : List Half) : Prop := vs.length = 10 ∧ ∀ v ∈ vs, resetBit v = true

/-- `s` with the turn `t` taken from its schedule, of which `rest` is left. -/
def State.turned (s : State) (t : Turn) (rest : List Turn) : State :=
  { s with env := { s.env with sched := rest, turn := t } }

/-- `s` with `turns` as all that its schedule lists. -/
def State.scheduled (s : State) (turns : List Turn) : State := { s with env := { s.env with sched := turns } }

/-- The first `n` turns of an endless order of turns. -/
def firstTurns : Nat → (Nat → Turn) → List Turn
  | 0, _ => []
  | n + 1, turns => turns 0 :: firstTurns n (fun k => turns (k + 1))

/-- WEAK FAIRNESS OF THE TICK SOURCE (R271, spec/92 D12): a tick is enabled in every state, so in an endless order of turns it
comes again and again. A premise of claims that a delay ends; no step assumes it (log 13). -/
def TicksFair (turns : Nat → Turn) : Prop := ∀ k, ∃ j, k ≤ j ∧ turns j = .tick

/-- BACKEND_LIVE (R182): in an endless order of turns the backend's answers come again and again, so every primitive issued is
answered. The premise that a claim must name if it says that a command ends without naming the answers; no step assumes it. -/
def BackendLive (turns : Nat → Turn) : Prop := ∀ k, ∃ j r, k ≤ j ∧ turns j = .bus r

/-- The sequencer's own turn, at which it takes the step that a delay's end enables, comes again and again (R5). A premise. -/
def SequencerFair (turns : Nat → Turn) : Prop := ∀ k, ∃ j, k ≤ j ∧ turns j = .seq

/-- No step of the run of `s` along `turns` stops at a fault or a refusal: only an access of the host could (log 5, R84). -/
def State.GoesOn (s : State) (turns : Nat → Turn) : Prop :=
  ∀ n, ∃ u, stepN n (s.scheduled (firstTurns n turns)) = .next u

/-- The next step is the host's, and its next access is `MemWrite(off, 4, v)`. -/
def State.HostWrites (s : State) (off : Nat) (v : Word) (ps : List HostOp) (rest : List Turn) : Prop :=
  s.env.sched = .host :: rest ∧ s.env.prog = .access (.write (s.params.csrBase + off) 4 v) :: ps

/-- The next step is the host's, and its next access is `MemRead(off, 4)`. -/
def State.HostReads (s : State) (off : Nat) (ps : List HostOp) (rest : List Turn) : Prop :=
  s.env.sched = .host :: rest ∧ s.env.prog = .access (.read (s.params.csrBase + off) 4) :: ps

/-- `s` with its next host item done: `ps` is the host's program and `rest` the schedule after it. -/
def State.hostDone (s : State) (ps : List HostOp) (rest : List Turn) : State :=
  { s with env := { s.env with prog := ps, sched := rest, turn := .host } }

/-- Whether a turn is the sequencer's own: the backend's answer or a delay's end (R5). -/
def Turn.sequencer : Turn → Bool
  | .bus _ | .seq => true
  | .host | .tick | .reset => false

end Sys2Proof.Machine
end

