-- ==== Sys2Proof/Certificates/Slice0/Obligations.lean ====
section
/-! DEFINITION. The statements for the provers. -/

open Sys2Proof Sys2Proof.Machine

/-! ### Reset -/

/-- R54, R292: what every register reads as after hardware reset, from any state; the sequencer is idle, and the bus history is
as it was. The latches are unspecified and nothing is said of them. -/
def Obligations.HardwareResetValues : Prop :=
  (∀ s rest, s.env.sched = .reset :: rest → ∃ t, step s = .next t ∧
    csrRead t 0x00 = 0 ∧ csrRead t 0x04 = 0 ∧ csrRead t 0x08 = 0 ∧ csrRead t 0x0C = 0 ∧ csrRead t 0x10 = 0 ∧
    csrRead t 0x14 = (phyAddrByte s.params.phyAddrReset).setWidth 32 ∧
    csrRead t 0x18 = 0x000001F4 ∧ csrRead t 0x1C = 0 ∧ csrRead t 0x20 = 0 ∧ t.pc = .idle ∧ t.history = s.history) ∧
  csrRead State.reset 0x00 = 0 ∧ csrRead State.reset 0x04 = 0 ∧ csrRead State.reset 0x08 = 0 ∧
  csrRead State.reset 0x0C = 0 ∧ csrRead State.reset 0x10 = 0 ∧ csrRead State.reset 0x14 = 0x000000FF ∧
  csrRead State.reset 0x18 = 0x000001F4 ∧ csrRead State.reset 0x1C = 0 ∧ csrRead State.reset 0x20 = 0 ∧
  State.reset.pc = .idle

/-- The invariant holds after reset, whatever the parameters. -/
def Obligations.ResetMeetsTheInvariant : Prop :=
  ∀ p, (State.resetWith p).Inv

/-- Every step of every agent keeps the invariant, from every state that has it. -/
def Obligations.EveryStepKeepsTheInvariant : Prop :=
  ∀ s t, s.Inv → step s = .next t → t.Inv

/-! ### Encoding -/

/-- Decoding an encoded command gives it back, as a word, as bytes with more after them, and numbered as the opcode table
numbers it. -/
def Obligations.DecodeOfEncode : Prop :=
  ∀ i : Instr, i.wf = true →
    decodeCmd (encode i) = .ok i ∧
    (∀ more, decodeBytes (encodeBytes i ++ more) = .ok i) ∧
    decodeTableWord 32 (encode i).toNat = some i

/-- R123: the opcode alone selects the command, and the fields a command does not use are ignored. -/
def Obligations.OpcodeSelectsTheCommand : Prop :=
  (∀ w i, decodeCmd w = .ok i → i.opcode = w.extractLsb' 0 4) ∧
  (∀ w w' : Word, w.extractLsb' 0 4 = w'.extractLsb' 0 4 →
    (5 ≤ (w.extractLsb' 0 4).toNat → (w.extractLsb' 0 4).toNat ≤ 7 → decodeCmd w = decodeCmd w') ∧
    (w.extractLsb' 8 5 = w'.extractLsb' 8 5 → w.extractLsb' 16 5 = w'.extractLsb' 16 5 →
      (w.extractLsb' 0 4 = 1 ∨ w.extractLsb' 0 4 = 2) → decodeCmd w = decodeCmd w') ∧
    (w.extractLsb' 8 5 = w'.extractLsb' 8 5 → w.extractLsb' 24 8 = w'.extractLsb' 24 8 →
      (w.extractLsb' 0 4 = 3 ∨ w.extractLsb' 0 4 = 4) → decodeCmd w = decodeCmd w'))

/-- R122, R125, R126: a word is a command exactly when its opcode is 0x1 to 0x7; otherwise it is rejected by name, and the
illegal opcodes are 0x0 and 0x8 to 0xF. -/
def Obligations.IllegalOpcodesAreRejected : Prop :=
  ∀ w : Word,
    ((∃ i, decodeCmd w = .ok i) ↔ 1 ≤ (w.extractLsb' 0 4).toNat ∧ (w.extractLsb' 0 4).toNat ≤ 7) ∧
    (∀ r, decodeCmd w = .error r ↔
      r = .illegalOpcode (w.extractLsb' 0 4) ∧ (w.extractLsb' 0 4 = 0 ∨ 8 ≤ (w.extractLsb' 0 4).toNat))

/-- R152: the spec's example words decode to the commands they stand for. -/
def Obligations.ExampleWordsDecode : Prop :=
  decodeTableWord 32 0x00010101 = some (.c22Rd 1 1) ∧
  decodeTableWord 32 0x00000702 = some (.c22Wr 7 0) ∧
  decodeTableWord 32 0x001F1F01 = some (.c22Rd 31 31) ∧
  decodeTableWord 32 0x01000103 = some (.c45Rd 1 1) ∧
  decodeTableWord 32 0x03000004 = some (.c45Wr 0 3) ∧
  decodeTableWord 32 0xE7000203 = some (.c45Rd 2 0xE7) ∧
  decodeTableWord 32 0x00000005 = some .phyReset ∧
  decodeTableWord 32 0x00000006 = some .phyInit ∧
  decodeTableWord 32 0x00000007 = some .pollLink

/-- R130, R132: FUNC stands in the top two bits of a control word, bits 13:5 are 0, and the identifier masked to 5 bits stands
in bits 4:0, so identifiers that differ in bits 7:5 only give one word. -/
def Obligations.ControlWordFields : Prop :=
  ∀ (f : BitVec 2) (dev : Byte),
    (ctlword f dev).extractLsb' 14 2 = f ∧ (ctlword f dev).extractLsb' 5 9 = 0 ∧
    (ctlword f dev).extractLsb' 0 5 = dev.extractLsb' 0 5 ∧
    ctlAddr dev = ctlword 0b00 dev ∧ ctlRead dev = ctlword 0b11 dev ∧ ctlWrite dev = ctlword 0b01 dev

/-- R145 to R147, R150, R151: each of the seven command lines, with its operands in range, is a CMD write whose word decodes to
the command with the line's operands, after an ARG write that holds its wide operands; each pseudo-instruction but `wait`, with
its operand in range, is the host access of its row in R147; a command line with an operand out of range gives nothing (what
`setaddr` and `setpoll` give out of range is not said here). That `wait`, in R147 a loop of STATUS reads, is one item of the
host's program is the model's choice (log 14). The operand forms have the ranges and numbers of R150 and R151; the numbers of
the named registers, and of the six that the sequencer uses, are those of R95, and the numbers of the named devices those of
R99, all of which the spec takes from general knowledge (log 12). -/
def Obligations.AssembledCommandsDecode : Prop :=
  (∀ (base phy n v : Nat) (reg : RegOperand) (dev : DevOperand),
    phy ≤ 31 → n ≤ 0xFFFF → v ≤ 0xFFFF → reg.wf = true → dev.wf = true →
    (∃ w, (AsmLine.c22Rd phy reg).assemble base = some [.access (.write (base + 0x0C) 4 w)] ∧
      decodeCmd w = .ok (.c22Rd (BitVec.ofNat 5 phy) reg.number)) ∧
    (∃ a w, (AsmLine.c22Wr phy reg v).assemble base =
        some [.access (.write (base + 0x08) 4 a), .access (.write (base + 0x0C) 4 w)] ∧
      (argWdata a).toNat = v ∧ (argRegnum a).toNat = 0 ∧
      decodeCmd w = .ok (.c22Wr (BitVec.ofNat 5 phy) reg.number)) ∧
    (∃ a w, (AsmLine.c45Rd phy dev n).assemble base =
        some [.access (.write (base + 0x08) 4 a), .access (.write (base + 0x0C) 4 w)] ∧
      (argWdata a).toNat = 0 ∧ (argRegnum a).toNat = n ∧
      decodeCmd w = .ok (.c45Rd (BitVec.ofNat 5 phy) dev.number)) ∧
    (∃ a w, (AsmLine.c45Wr phy dev n v).assemble base =
        some [.access (.write (base + 0x08) 4 a), .access (.write (base + 0x0C) 4 w)] ∧
      (argWdata a).toNat = v ∧ (argRegnum a).toNat = n ∧
      decodeCmd w = .ok (.c45Wr (BitVec.ofNat 5 phy) dev.number))) ∧
  (∀ base, let writes (off : Nat) (w : Word) : Option (List HostOp) := some [.access (.write (base + off) 4 w)]
    AsmLine.phyReset.assemble base = writes 0x0C 0x00000005 ∧ decodeCmd 0x00000005 = .ok .phyReset ∧
    AsmLine.phyInit.assemble base = writes 0x0C 0x00000006 ∧ decodeCmd 0x00000006 = .ok .phyInit ∧
    AsmLine.pollLink.assemble base = writes 0x0C 0x00000007 ∧ decodeCmd 0x00000007 = .ok .pollLink ∧
    AsmLine.wait.assemble base = some [.waitIdle] ∧
    AsmLine.ack.assemble base = writes 0x04 0x0000000A ∧
    (∀ a : Nat, (a ≤ 31 ∨ a = 0xFF) → (AsmLine.setaddr a).assemble base = writes 0x14 (BitVec.ofNat 32 a)) ∧
    AsmLine.auto.assemble base = writes 0x14 0x000000FF ∧
    (∀ n : Nat, n < 2 ^ 32 → (AsmLine.setpoll n).assemble base = writes 0x18 (BitVec.ofNat 32 n)) ∧
    AsmLine.ien.assemble base = writes 0x00 1 ∧ AsmLine.idis.assemble base = writes 0x00 0 ∧
    AsmLine.rdData.assemble base = some [.access (.read (base + 0x10) 4)] ∧
    AsmLine.rdLink.assemble base = some [.access (.read (base + 0x1C) 4)]) ∧
  (∀ (base phy n v : Nat) (reg : RegOperand) (dev : DevOperand),
    ((31 < phy ∨ reg.wf = false) → (AsmLine.c22Rd phy reg).assemble base = none) ∧
    ((31 < phy ∨ reg.wf = false ∨ 0xFFFF < v) → (AsmLine.c22Wr phy reg v).assemble base = none) ∧
    ((31 < phy ∨ dev.wf = false ∨ 0xFFFF < n) → (AsmLine.c45Rd phy dev n).assemble base = none) ∧
    ((31 < phy ∨ dev.wf = false ∨ 0xFFFF < n ∨ 0xFFFF < v) → (AsmLine.c45Wr phy dev n v).assemble base = none)) ∧
  (∀ n : Nat,
    ((RegOperand.vend n).wf = true ↔ 16 ≤ n ∧ n ≤ 31) ∧ ((RegOperand.reg n).wf = true ↔ n ≤ 31) ∧
    ((DevOperand.dev n).wf = true ↔ n ≤ 255) ∧
    (n ≤ 31 → (RegOperand.vend n).number.toNat = n ∧ (RegOperand.reg n).number.toNat = n) ∧
    (n ≤ 255 → (DevOperand.dev n).number.toNat = n)) ∧
  [RegOperand.bmcr, .bmsr, .phyid1, .phyid2, .anar, .anlpar, .mmdctl, .mmddata].map RegOperand.number =
    [0, 1, 2, 3, 4, 5, 13, 14] ∧
  [DevOperand.pmapmd, .wis, .pcs, .phyxs, .dtexs, .an, .vend1, .vend2].map DevOperand.number =
    [1, 2, 3, 4, 5, 7, 30, 31] ∧
  bmcr = 0 ∧ bmsr = 1 ∧ anar = 4 ∧ anlpar = 5 ∧ mmdctl = 13 ∧ mmddata = 14

/-! ### A step runs the decoded command -/

/-- A host turn whose access is a CMD write of a word that decodes to `i` runs `i`, after the access is taken from the host's
program and the turn from the schedule; `withFetchWord` sets up exactly that. -/
def Obligations.StepRunsTheCommandWritten : Prop :=
  (∀ s w i ps rest, s.HostWrites 0x0C w ps rest → decodeCmd w = .ok i → step s = exec i (s.hostDone ps rest)) ∧
  (∀ (s : State) nbits w i, decodeTableWord nbits w = some i →
    step (s.withFetchWord nbits w) = exec i { s with env := { s.env with turn := .host } })

/-- R13, R50: at the backend's answer and at a delay's end the machine steps the command whose label the sequencer stands at.
That a turn of the sequencer with no command running changes nothing but the schedule is the model's choice (log 15). -/
def Obligations.StepRunsTheRunningCommand : Prop :=
  ∀ s trn rest, s.env.sched = trn :: rest → trn.sequencer = true →
    (∀ i, s.running = some i → step s = exec i (s.turned trn rest)) ∧
    (s.running = none → step s = .next (s.turned trn rest)) ∧
    (s.running = none ↔ s.busy = false)

/-! ### The CMD write -/

/-- R163, R164: from the bits of the word and the ARG register, acceptance latches the operands, clears the previous outcome
(not REJ) and starts the sequencer at the label of the table, in one step. -/
def Obligations.AcceptanceLatchesAndStarts : Prop :=
  ∀ s w ps rest, s.HostWrites 0x0C w ps rest → s.pc = .idle →
    let go (pc : Label) (latch : Latches) : Result :=
      .next { s.hostDone ps rest with
        regs := { s.regs with done := false, err := false, errcode := .none, buserr := 0 }
        latch := latch
        pc := pc }
    let op := w.extractLsb' 0 4
    let pa := w.extractLsb' 8 5
    let regnum := s.regs.arg.extractLsb' 0 16
    let wdata := s.regs.arg.extractLsb' 16 16
    (op = 0x1 → step s = go .c22r { s.latch with op := op, pa := pa, ra := w.extractLsb' 16 5 }) ∧
    (op = 0x2 → step s = go .c22w { s.latch with op := op, pa := pa, ra := w.extractLsb' 16 5, wdata := wdata }) ∧
    (op = 0x3 → step s =
      go .c45ca { s.latch with op := op, pa := pa, dev := w.extractLsb' 24 5, regnum := regnum }) ∧
    (op = 0x4 → step s =
      go .c45ca { s.latch with op := op, pa := pa, dev := w.extractLsb' 24 5, regnum := regnum, wdata := wdata }) ∧
    (op = 0x5 → ∀ a, s.regs.phyaddr = .known a → step s = go .rstW { s.latch with op := op, pa := a }) ∧
    (op = 0x5 → s.regs.phyaddr = .unknown → step s = go .dscW { s.latch with op := op, cand := 0, att := 0 }) ∧
    (op = 0x6 → ∀ a, s.regs.phyaddr = .known a → step s = go .iniCA { s.latch with op := op, pa := a }) ∧
    (op = 0x7 → ∀ a, s.regs.phyaddr = .known a →
      step s = go .polD { s.latch with op := op, pa := a, dcnt := s.regs.pollint })

/-- R162, R38, and the order of R160 and R167: while a command runs and in FATAL a CMD write of any word only sets REJ;
otherwise an illegal opcode, whatever the other fields and whether or not the address is known, ends the command at once with
ERRCODE = ILLEGAL and no primitive. -/
def Obligations.CmdWriteChecksInOrder : Prop :=
  ∀ s w ps rest, s.HostWrites 0x0C w ps rest →
    (s.pc ≠ .idle → step s = .next { s.hostDone ps rest with regs := { s.regs with rej := true } }) ∧
    (s.pc = .idle → (w.extractLsb' 0 4 = 0 ∨ 8 ≤ (w.extractLsb' 0 4).toNat) →
      step s = .next { s.hostDone ps rest with
        regs := { s.regs with done := true, err := true, errcode := .illegal, buserr := 0 } })

/-- R165: PHY_INIT and POLL_LINK with an unknown address end at once with ERRCODE = ADDR_UNKNOWN and no primitive; PHY_RESET
does not take this path, it starts discovery. -/
def Obligations.UnknownAddressEndsAtOnce : Prop :=
  ∀ s i, s.env.turn = .host → s.pc = .idle → s.regs.phyaddr = .unknown →
    ((i = .phyInit ∨ i = .pollLink) → exec i s = .next { s with
      regs := { s.regs with done := true, err := true, errcode := .addrUnknown, buserr := 0 } }) ∧
    (i = .phyReset → ∃ t, exec i s = .next t ∧ t.pc = .dscW ∧ t.regs.done = false)

/-- The frame of issuing a command, every command and every outcome of the CMD write: no result register, no host-owned
register, no event of the bus changes; REJ changes only where the write is refused; and while BUSY = 1 or in FATAL nothing
else changes at all (R38, R160, R163). -/
def Obligations.IssueFrame : Prop :=
  ∀ i s t, s.env.turn = .host → exec i s = .next t →
    t.params = s.params ∧ t.history = s.history ∧ t.env = s.env ∧ t.regs.ie = s.regs.ie ∧ t.regs.arg = s.regs.arg ∧
    t.regs.rdata = s.regs.rdata ∧ t.regs.phyaddr = s.regs.phyaddr ∧ t.regs.pollint = s.regs.pollint ∧
    t.regs.link = s.regs.link ∧ (s.pc = .idle → t.regs.rej = s.regs.rej) ∧
    (s.pc ≠ .idle → t = { s with regs := { s.regs with rej := true } })

/-! ### Every bus turn -/

/-- R262: a primitive that answers `Err(e)` ends any command, at any of its labels: the error is recorded as it is, the
failing primitive is the last event, and nothing else changes. -/
def Obligations.BusErrorEndsAnyCommand : Prop :=
  ∀ s q e rest, s.inFlight = some q → s.env.sched = .bus (.err e) :: rest →
    step s = .next { s.turned (.bus (.err e)) rest with
      history := s.history ++ [BusEvent.of q (.err e)]
      regs := { s.regs with err := true, errcode := .bus, buserr := e, done := true }
      pc := .idle }

/-- R50, R182, R186, R291: each answered primitive is the one in flight at the label, and exactly that one event is appended.
Until the answer the sequencer holds: no turn of the host, the sequencer or the tick source moves it, changes a latch or adds an
event. Where the backend is live (BACKEND_LIVE, a premise) the primitive in flight is answered, unless a reset cuts it short.
That an answer with nothing in flight, at IDLE, FATAL and during a delay, and a turn of the sequencer with a primitive in
flight, change no state but the schedule is the model's choice (log 15); R291 says it of an answer that comes after reset. -/
def Obligations.AnswersAppendThePrimitiveInFlight : Prop :=
  (∀ s r rest, s.env.sched = .bus r :: rest →
    (∀ q, s.inFlight = some q → ∃ t, step s = .next t ∧ t.history = s.history ++ [BusEvent.of q r]) ∧
    (s.inFlight = none → step s = .next (s.turned (.bus r) rest))) ∧
  (∀ s q, s.inFlight = some q →
    (∀ rest, s.env.sched = .seq :: rest → step s = .next (s.turned .seq rest)) ∧
    (∀ t, step s = .next t → (∀ r, t.env.turn ≠ .bus r) → t.env.turn ≠ .reset →
      t.inFlight = some q ∧ t.pc = s.pc ∧ t.latch = s.latch ∧ t.history = s.history) ∧
    (∀ turns, BackendLive turns → s.GoesOn turns → ∃ n t, stepN n (s.scheduled (firstTurns n turns)) = .next t ∧
      (Turn.reset ∈ firstTurns n turns ∨ ∃ r, t.env.turn = .bus r ∧ t.history = s.history ++ [BusEvent.of q r])))

/-- R105: a step of any agent leaves every earlier event in place and appends at most one, which only an answer does; so no
primitive is issued ahead of a pending one. -/
def Obligations.HistoryGrowsByAnswersOnly : Prop :=
  ∀ s t, step s = .next t →
    t.history = s.history ∨
    ∃ q r, s.inFlight = some q ∧ t.env.turn = .bus r ∧ t.history = s.history ++ [BusEvent.of q r]

/-- R108: the step that ends a command sets DONE and leaves BUSY = 0, and the error flag with its code stands in the same
step. -/
def Obligations.CommandEndSetsDone : Prop :=
  ∀ s t, s.Inv → step s = .next t → s.busy = true → t.busy = false → t.env.turn ≠ .reset →
    t.regs.done = true ∧ (csrRead t 0x04).getLsbD 0 = false ∧ (csrRead t 0x04).getLsbD 1 = true ∧
    (t.regs.err = false → t.pc = .idle ∧ t.regs.errcode = .none ∧ t.regs.buserr = 0) ∧
    (t.regs.err = true → t.regs.errcode = .bus ∨ t.regs.errcode = .noDevice)

/-! ### Clause 22 -/

/-- R183: the one step of C22_RD when the backend answers. -/
def Obligations.C22ReadCompletes : Prop :=
  ∀ s phy reg, s.pc = .c22r →
    (∀ v, s.env.turn = .bus (.ok v) → exec (.c22Rd phy reg) s = .next { s with
      history := s.history ++ [.rdOk s.latch.pa s.latch.ra v]
      regs := { s.regs with rdata := v, done := true }
      pc := .idle }) ∧
    (∀ e, s.env.turn = .bus (.err e) → exec (.c22Rd phy reg) s = .next { s with
      history := s.history ++ [.rdErr s.latch.pa s.latch.ra e]
      regs := { s.regs with err := true, errcode := .bus, buserr := e, done := true }
      pc := .idle })

/-- R185: the one step of C22_WR when the backend answers. -/
def Obligations.C22WriteCompletes : Prop :=
  ∀ s phy reg, s.pc = .c22w →
    (∀ v, s.env.turn = .bus (.ok v) → exec (.c22Wr phy reg) s = .next { s with
      history := s.history ++ [.wrOk s.latch.pa s.latch.ra s.latch.wdata]
      regs := { s.regs with done := true }
      pc := .idle }) ∧
    (∀ e, s.env.turn = .bus (.err e) → exec (.c22Wr phy reg) s = .next { s with
      history := s.history ++ [.wrErr s.latch.pa s.latch.ra s.latch.wdata e]
      regs := { s.regs with err := true, errcode := .bus, buserr := e, done := true }
      pc := .idle })

/-! ### Clause 45 -/

/-- R201: acceptance latches DEVAD & 0x1F; bits 7:5 of DEVAD never reach the bus: identifiers that agree in bits 4:0 run alike
at every label, and the control words built from the latch are those of the identifier as it was written. -/
def Obligations.DeviceIsMasked : Prop :=
  ∀ s phy (dev dev' : Byte), dev.extractLsb' 0 5 = dev'.extractLsb' 0 5 →
    exec (.c45Rd phy dev) s = exec (.c45Rd phy dev') s ∧ exec (.c45Wr phy dev) s = exec (.c45Wr phy dev') s ∧
    (s.env.turn = .host → s.pc = .idle →
      (∃ t, exec (.c45Rd phy dev) s = .next t ∧ t.latch.dev = dev.extractLsb' 0 5 ∧
        ctlAddr t.latch.devByte = ctlAddr dev ∧ ctlRead t.latch.devByte = ctlRead dev) ∧
      (∃ t, exec (.c45Wr phy dev) s = .next t ∧ t.latch.dev = dev.extractLsb' 0 5 ∧
        ctlAddr t.latch.devByte = ctlAddr dev ∧ ctlWrite t.latch.devByte = ctlWrite dev))

/-- R203: steps 1 to 3 of a composite, with the third step by `L.OP`: each label's primitive, answered Ok and answered Err. -/
def Obligations.CompositeStepsOneToThree : Prop :=
  ∀ s r rest, s.env.sched = .bus r :: rest →
    let l := s.latch
    let d := l.dev.setWidth 8
    let moves (ra : Addr5) (w : Half) (pc : Label) : Prop :=
      (∀ v, r = .ok v → step s = .next { s.turned (.bus r) rest with history := s.history ++ [.wrOk l.pa ra w], pc := pc }) ∧
      (∀ e, r = .err e → step s = .next { s.turned (.bus r) rest with
        history := s.history ++ [.wrErr l.pa ra w e]
        regs := { s.regs with err := true, errcode := .bus, buserr := e, done := true }
        pc := .idle })
    (s.pc = .c45ca → moves mmdctl (ctlAddr d) .c45rn) ∧
    (s.pc = .c45rn → moves mmddata l.regnum .c45co) ∧
    (s.pc = .c45co → l.op = 0x3 → moves mmdctl (ctlRead d) .c45dr) ∧
    (s.pc = .c45co → l.op ≠ 0x3 → moves mmdctl (ctlWrite d) .c45dw)

/-- R205: step 4 of a composite read. -/
def Obligations.C45ReadCompletes : Prop :=
  ∀ s phy dev, s.pc = .c45dr →
    (∀ v, s.env.turn = .bus (.ok v) → exec (.c45Rd phy dev) s = .next { s with
      history := s.history ++ [.rdOk s.latch.pa mmddata v]
      regs := { s.regs with rdata := v, done := true }
      pc := .idle }) ∧
    (∀ e, s.env.turn = .bus (.err e) → exec (.c45Rd phy dev) s = .next { s with
      history := s.history ++ [.rdErr s.latch.pa mmddata e]
      regs := { s.regs with err := true, errcode := .bus, buserr := e, done := true }
      pc := .idle })

/-- R207: step 4 of a composite write. -/
def Obligations.C45WriteCompletes : Prop :=
  ∀ s phy dev, s.pc = .c45dw →
    (∀ v, s.env.turn = .bus (.ok v) → exec (.c45Wr phy dev) s = .next { s with
      history := s.history ++ [.wrOk s.latch.pa mmddata s.latch.wdata]
      regs := { s.regs with done := true }
      pc := .idle }) ∧
    (∀ e, s.env.turn = .bus (.err e) → exec (.c45Wr phy dev) s = .next { s with
      history := s.history ++ [.wrErr s.latch.pa mmddata s.latch.wdata e]
      regs := { s.regs with err := true, errcode := .bus, buserr := e, done := true }
      pc := .idle })

/-- R210: a composite whose primitives are answered Ok issues exactly four operations, in order, from the CMD write to its end:
three writes and a read whose value is the result, or four writes. -/
def Obligations.CompositeIssuesFourPrimitives : Prop :=
  ∀ s w ps rest v1 v2 v3 v,
    s.HostWrites 0x0C w ps (.bus (.ok v1) :: .bus (.ok v2) :: .bus (.ok v3) :: .bus (.ok v) :: rest) →
    s.pc = .idle →
    let pa := w.extractLsb' 8 5
    let dev := w.extractLsb' 24 8
    let regnum := s.regs.arg.extractLsb' 0 16
    (w.extractLsb' 0 4 = 0x3 → ∃ t, stepN 5 s = .next t ∧
      t.history = s.history ++ [.wrOk pa mmdctl (ctlAddr dev), .wrOk pa mmddata regnum,
        .wrOk pa mmdctl (ctlRead dev), .rdOk pa mmddata v] ∧
      t.regs = { s.regs with rdata := v, done := true, err := false, errcode := .none, buserr := 0 } ∧
      t.pc = .idle ∧ t.params = s.params) ∧
    (w.extractLsb' 0 4 = 0x4 → ∃ t, stepN 5 s = .next t ∧
      t.history = s.history ++ [.wrOk pa mmdctl (ctlAddr dev), .wrOk pa mmddata regnum,
        .wrOk pa mmdctl (ctlWrite dev), .wrOk pa mmddata (s.regs.arg.extractLsb' 16 16)] ∧
      t.regs = { s.regs with done := true, err := false, errcode := .none, buserr := 0 } ∧
      t.pc = .idle ∧ t.params = s.params)

/-- R208: the first failing primitive of a composite, the k-th, aborts it: the history of the command holds exactly k events,
the k-th the failure, and the error is returned as it is; RDATA is unchanged. -/
def Obligations.CompositeAbortsAtTheFirstFailure : Prop :=
  ∀ s w ps rest (oks : List Half) e,
    s.HostWrites 0x0C w ps (oks.map (fun v => Turn.bus (.ok v)) ++ .bus (.err e) :: rest) →
    s.pc = .idle → (w.extractLsb' 0 4 = 0x3 ∨ w.extractLsb' 0 4 = 0x4) → oks.length < 4 →
    let pa := w.extractLsb' 8 5
    let dev := w.extractLsb' 24 8
    let requests : List BusRequest :=
      [.wr pa mmdctl (ctlAddr dev), .wr pa mmddata (s.regs.arg.extractLsb' 0 16),
        .wr pa mmdctl (if w.extractLsb' 0 4 = 0x3 then ctlRead dev else ctlWrite dev),
        if w.extractLsb' 0 4 = 0x3 then .rd pa mmddata else .wr pa mmddata (s.regs.arg.extractLsb' 16 16)]
    let answers : List BusAnswer := oks.map (fun v => .ok v) ++ [.err e]
    ∃ t, stepN (oks.length + 2) s = .next t ∧
      t.history = s.history ++ List.zipWith BusEvent.of requests answers ∧
      t.regs = { s.regs with done := true, err := true, errcode := .bus, buserr := e } ∧ t.pc = .idle

/-- R211, R232: however the agents' steps interleave, the events of a C45_RD, a C45_WR or a PHY_INIT are consecutive in the bus
history and are those of its rule: one step keeps "the history is what it was at acceptance, then the events of the label".
While the command runs the sequencer stays at its label or moves to the next label of its own line, and it ends on an Ok answer
at the line's last label only. -/
def Obligations.StraightLineCommandsStayInOrder : Prop :=
  ∀ s t h0 evs, s.issuedSoFar = some evs → s.history = h0 ++ evs → step s = .next t →
    (∀ evs', t.issuedSoFar = some evs' → t.history = h0 ++ evs') ∧
    (∀ v q, s.inFlight = some q → t.env.turn = .bus (.ok v) → t.busy = false →
      s.nextOnLine = none ∧ t.history = h0 ++ evs ++ [BusEvent.of q (.ok v)]) ∧
    (t.busy = true → t.issuedSoFar.isSome = true ∧ (t.pc = s.pc ∨ s.nextOnLine = some t.pc))

/-! ### PHY_RESET -/

/-- R221, R222: the reset write of a known PHY, then the poll that reads again at once while bit 15 is set. -/
def Obligations.KnownAddressResetSteps : Prop :=
  ∀ s v, s.env.turn = .bus (.ok v) →
    (s.pc = .rstW → exec .phyReset s = .next { s with
      history := s.history ++ [.wrOk s.latch.pa bmcr 0x8000], pc := .rstP }) ∧
    (s.pc = .rstP → v.getLsbD 15 = false → exec .phyReset s = .next { s with
      history := s.history ++ [.rdOk s.latch.pa bmcr v], regs := { s.regs with done := true }, pc := .idle }) ∧
    (s.pc = .rstP → v.getLsbD 15 = true → exec .phyReset s = .next { s with
      history := s.history ++ [.rdOk s.latch.pa bmcr v], pc := .rstP })

/-- R223: the known-address reset wait is unbounded: however many reads answer with the bit set, the sequencer is still in
RST_P with BUSY = 1, and the history holds all those reads. -/
def Obligations.KnownAddressResetWaitIsUnbounded : Prop :=
  ∀ s (vs : List Half) rest, s.pc = .rstP → s.env.sched = vs.map (fun v => Turn.bus (.ok v)) ++ rest →
    (∀ v ∈ vs, v.getLsbD 15 = true) →
    ∃ t, stepN vs.length s = .next t ∧ t.pc = .rstP ∧ (csrRead t 0x04).getLsbD 0 = true ∧
      t.history = s.history ++ vs.map (fun v => .rdOk s.latch.pa bmcr v) ∧ t.regs = s.regs ∧ t.latch = s.latch

/-- R225: the reset write of a discovery candidate. -/
def Obligations.DiscoveryResetWrite : Prop :=
  ∀ s, s.pc = .dscW →
    (∀ v, s.env.turn = .bus (.ok v) → exec .phyReset s = .next { s with
      history := s.history ++ [.wrOk s.latch.cand bmcr 0x8000], latch := { s.latch with att := 0 }, pc := .dscP }) ∧
    (∀ e, s.env.turn = .bus (.err e) → exec .phyReset s = .next { s with
      history := s.history ++ [.wrErr s.latch.cand bmcr 0x8000 e]
      regs := { s.regs with err := true, errcode := .bus, buserr := e, done := true }
      pc := .idle })

/-- R226, R227: a discovery read. The first that sees bit 15 clear adopts the candidate in the same step; one that sees it set
counts an attempt and starts the delay. -/
def Obligations.DiscoveryRead : Prop :=
  ∀ s, s.pc = .dscP →
    (∀ e, s.env.turn = .bus (.err e) → exec .phyReset s = .next { s with
      history := s.history ++ [.rdErr s.latch.cand bmcr e]
      regs := { s.regs with err := true, errcode := .bus, buserr := e, done := true }
      pc := .idle }) ∧
    (∀ v, s.env.turn = .bus (.ok v) → v.getLsbD 15 = false → exec .phyReset s = .next { s with
      history := s.history ++ [.rdOk s.latch.cand bmcr v]
      regs := { s.regs with phyaddr := .known s.latch.cand, done := true }
      pc := .idle }) ∧
    (∀ v, s.env.turn = .bus (.ok v) → v.getLsbD 15 = true → exec .phyReset s = .next { s with
      history := s.history ++ [.rdOk s.latch.cand bmcr v]
      latch := { s.latch with att := s.latch.att + 1, dcnt := s.params.discDelayTicks }
      pc := .dscD })

/-- R228, R229: the end of a discovery delay: the next attempt, the next candidate, or the FATAL outcome. That the sequencer's
turn changes nothing while L.DCNT is not 0 is the model's choice (log 15); R228 says only that the step is not enabled. -/
def Obligations.DiscoveryDelayEnd : Prop :=
  ∀ s, s.env.turn = .seq → s.pc = .dscD →
    (s.latch.dcnt ≠ 0 → exec .phyReset s = .next s) ∧
    (s.latch.dcnt = 0 → s.latch.att.toNat < 10 → exec .phyReset s = .next { s with pc := .dscP }) ∧
    (s.latch.dcnt = 0 → 10 ≤ s.latch.att.toNat → s.latch.cand.toNat < 31 → exec .phyReset s = .next { s with
      latch := { s.latch with cand := s.latch.cand + 1 }, pc := .dscW }) ∧
    (s.latch.dcnt = 0 → 10 ≤ s.latch.att.toNat → s.latch.cand.toNat = 31 → exec .phyReset s = .next { s with
      regs := { s.regs with done := true, err := true, errcode := .noDevice }, pc := .fatal })

/-- R230: the counts of discovery, however the agents' steps interleave: one step of any agent keeps "the history has grown by
the count of the label"; exhaustion stands at 352 primitives, and success at candidate c on its k-th read at 11c + 1 + k. -/
def Obligations.DiscoveryCountsPrimitives : Prop :=
  ∀ s t h0 n, s.Inv → s.discoveryCount = some n → s.history.length = h0 + n → step s = .next t →
    (∀ m, t.discoveryCount = some m → t.history.length = h0 + m) ∧
    (t.pc = .fatal → t.history.length = h0 + 352) ∧
    (t.pc = .idle → t.regs.err = false → t.env.turn ≠ .reset →
      ∃ c : Addr5, ∃ k, 1 ≤ k ∧ k ≤ 10 ∧ t.regs.phyaddr = .known c ∧
        t.history.length = h0 + 11 * c.toNat + 1 + k)

/-- R224, R230: discovery adopts the first address whose reset bit reads clear within ten reads: the earlier candidates were
absent, this one's first reads saw the bit set, and the next saw it clear. The events are those, in ascending order of
address, and none is at a later address. -/
def Obligations.DiscoveryAdoptsTheFirstAnsweringAddress : Prop :=
  ∀ s (reads : List (List Half)) (misses : List Half) (v : Half) rest,
    s.pc = .dscW → s.latch.cand = 0 → reads.length ≤ 31 → (∀ vs ∈ reads, AbsentReads vs) →
    misses.length < 10 → (∀ u ∈ misses, u.getLsbD 15 = true) → v.getLsbD 15 = false →
    let d := s.params.discDelayTicks.toNat
    let c : Addr5 := BitVec.ofNat 5 reads.length
    let turns := searchTurns d reads ++ absentTurns d misses ++ [.bus (.ok v)]
    s.env.sched = turns ++ rest →
    ∃ t, stepN turns.length s = .next t ∧ t.pc = .idle ∧
      t.regs = { s.regs with phyaddr := .known c, done := true } ∧
      t.history = s.history ++ searchEvents 0 reads ++ absentEvents c misses ++ [.rdOk c bmcr v] ∧
      t.history.length = s.history.length + 11 * reads.length + 1 + (misses.length + 1)

/-- R229, R230: when all 32 candidates are absent, discovery ends in FATAL after exactly 32 writes and 320 reads, with PHYADDR
and BUSERR as they were. -/
def Obligations.DiscoveryExhaustionIsFatal : Prop :=
  ∀ s (reads : List (List Half)) rest,
    s.pc = .dscW → s.latch.cand = 0 → reads.length = 32 → (∀ vs ∈ reads, AbsentReads vs) →
    let turns := searchTurns s.params.discDelayTicks.toNat reads
    s.env.sched = turns ++ rest →
    ∃ t, stepN turns.length s = .next t ∧ t.pc = .fatal ∧
      t.regs = { s.regs with done := true, err := true, errcode := .noDevice } ∧
      t.history = s.history ++ searchEvents 0 reads ∧ t.history.length = s.history.length + 352

/-- R48, R263: FATAL is left only by hardware reset: no step of another agent moves the sequencer, runs a primitive or changes
ERR, ERRCODE, RDATA, LINK or BUSERR. -/
def Obligations.FatalIsLeftOnlyByReset : Prop :=
  ∀ s t, s.pc = .fatal → step s = .next t → t.env.turn ≠ .reset →
    t.pc = .fatal ∧ t.latch = s.latch ∧ t.history = s.history ∧ t.regs.err = s.regs.err ∧
    t.regs.errcode = s.regs.errcode ∧ t.regs.rdata = s.regs.rdata ∧ t.regs.link = s.regs.link ∧
    t.regs.buserr = s.regs.buserr

/-! ### PHY_INIT -/

/-- R233, R234: the five steps of PHY_INIT, answered Ok. The word written to BMCR is SPEED_SEL | AN_EN | AN_RESTART. -/
def Obligations.PhyInitSteps : Prop :=
  ∀ s v, s.env.turn = .bus (.ok v) →
    let go (ra : Addr5) (w : Half) (pc : Label) : Result :=
      .next { s with history := s.history ++ [.wrOk s.latch.pa ra w], pc := pc }
    (s.pc = .iniCA → exec .phyInit s = go mmdctl 0x0003 .iniRN) ∧
    (s.pc = .iniRN → exec .phyInit s = go mmddata s.params.wucsrReg .iniCO) ∧
    (s.pc = .iniCO → exec .phyInit s = go mmdctl 0x4003 .iniDW) ∧
    (s.pc = .iniDW → exec .phyInit s = go mmddata 0x0000 .iniBM) ∧
    (s.pc = .iniBM → exec .phyInit s = .next { s with
      history := s.history ++ [.wrOk s.latch.pa bmcr 0x3200], regs := { s.regs with done := true }, pc := .idle })

/-! ### POLL_LINK -/

/-- R240: the poll's delay ends exactly when the counter is 0, and issues no primitive. That the sequencer's turn changes
nothing while L.DCNT is not 0 is the model's choice (log 15); R240 says only that the step is not enabled. -/
def Obligations.PollDelayEnd : Prop :=
  ∀ s, s.env.turn = .seq → s.pc = .polD →
    (s.latch.dcnt ≠ 0 → exec .pollLink s = .next s) ∧
    (s.latch.dcnt = 0 → exec .pollLink s = .next { s with pc := .polS })

/-- R241: the BMSR read. The link bit is looked at only when auto-negotiation is complete. -/
def Obligations.PollStatusRead : Prop :=
  ∀ s, s.pc = .polS →
    (∀ e, s.env.turn = .bus (.err e) → exec .pollLink s = .next { s with
      history := s.history ++ [.rdErr s.latch.pa bmsr e]
      regs := { s.regs with err := true, errcode := .bus, buserr := e, done := true }
      pc := .idle }) ∧
    (∀ v, s.env.turn = .bus (.ok v) → (v.getLsbD 5 = false ∨ v.getLsbD 2 = false) →
      exec .pollLink s = .next { s with
        history := s.history ++ [.rdOk s.latch.pa bmsr v]
        regs := { s.regs with link := some .down, done := true }
        pc := .idle }) ∧
    (∀ v, s.env.turn = .bus (.ok v) → v.getLsbD 5 = true → v.getLsbD 2 = true →
      exec .pollLink s = .next { s with history := s.history ++ [.rdOk s.latch.pa bmsr v], pc := .polA })

/-- R242: the ANAR read keeps its value in the latch. -/
def Obligations.PollAdvertisedRead : Prop :=
  ∀ s, s.pc = .polA →
    (∀ v, s.env.turn = .bus (.ok v) → exec .pollLink s = .next { s with
      history := s.history ++ [.rdOk s.latch.pa anar v], latch := { s.latch with anar := v }, pc := .polP }) ∧
    (∀ e, s.env.turn = .bus (.err e) → exec .pollLink s = .next { s with
      history := s.history ++ [.rdErr s.latch.pa anar e]
      regs := { s.regs with err := true, errcode := .bus, buserr := e, done := true }
      pc := .idle })

/-- R243, R244: the ANLPAR read decodes `ANAR & ANLPAR` by strict priority and ends the poll. -/
def Obligations.PollPartnerReadDecodes : Prop :=
  ∀ s, s.pc = .polP →
    (∀ p, s.env.turn = .bus (.ok p) →
      let n := s.latch.anar &&& p
      let status : LinkStatus :=
        if n.getLsbD 8 = true then .up .s100 .full
        else if n.getLsbD 7 = true then .up .s100 .half
        else if n.getLsbD 6 = true then .up .s10 .full
        else .up .s10 .half
      exec .pollLink s = .next { s with
        history := s.history ++ [.rdOk s.latch.pa anlpar p]
        regs := { s.regs with link := some status, done := true }
        pc := .idle }) ∧
    (∀ e, s.env.turn = .bus (.err e) → exec .pollLink s = .next { s with
      history := s.history ++ [.rdErr s.latch.pa anlpar e]
      regs := { s.regs with err := true, errcode := .bus, buserr := e, done := true }
      pc := .idle })

/-- R245, R140: the LINK word of each status, and LINK before the first successful poll. -/
def Obligations.LinkWordEncoding : Prop :=
  (∀ s, s.regs.link = none → csrRead s 0x1C = 0x00000000) ∧
  (∀ s, s.regs.link = some .down → csrRead s 0x1C = 0x00000080) ∧
  (∀ s st, s.regs.link = some st → csrRead s 0x1C = st.word ∧ (csrRead s 0x1C).getLsbD 7 = true) ∧
  [Duplex.half, .full].map (fun d => LinkStatus.word (.up .s10 d)) = [0x81, 0x83] ∧
  [Duplex.half, .full].map (fun d => LinkStatus.word (.up .s100 d)) = [0x91, 0x93] ∧
  [Duplex.half, .full].map (fun d => LinkStatus.word (.up .s1000 d)) = [0xA1, 0xA3] ∧
  [Duplex.half, .full].map (fun d => LinkStatus.word (.up .s2500 d)) = [0xB1, 0xB3] ∧
  [Duplex.half, .full].map (fun d => LinkStatus.word (.up .s5000 d)) = [0xC1, 0xC3] ∧
  [Duplex.half, .full].map (fun d => LinkStatus.word (.up .s10000 d)) = [0xD1, 0xD3]

/-- R44, R248: LINK changes only at the successful end of a poll (or at reset), and to a status with UP = 1 only in the step of
the ANLPAR read, which only a BMSR read with AN_COMPLETE and LINK_UP leads to. -/
def Obligations.OnlyASuccessfulPollWritesLink : Prop :=
  ∀ s t, step s = .next t →
    (t.regs.link ≠ s.regs.link → t.env.turn ≠ .reset →
      ∃ v, t.env.turn = .bus (.ok v) ∧ t.pc = .idle ∧ t.regs.done = true ∧
        ((s.pc = .polS ∧ t.regs.link = some .down) ∨ (s.pc = .polP ∧ t.regs.link = some (resolve (s.latch.anar &&& v))))) ∧
    (t.pc = .polA → s.pc ≠ .polA →
      s.pc = .polS ∧ ∃ v, t.env.turn = .bus (.ok v) ∧ v.getLsbD 5 = true ∧ v.getLsbD 2 = true) ∧
    (t.pc = .polP → s.pc ≠ .polP → s.pc = .polA)

/-- R246: a poll keeps no memory of earlier ones: two machines at one label of POLL_LINK that agree on the address, the ANAR
latch and the delay counter, whatever LINK, RDATA and every other register hold, take the same answer to the same label and,
when the poll ends with no error, to the same LINK. -/
def Obligations.PollHasNoMemory : Prop :=
  ∀ s s' t t' trn rest rest', (s.pc = .polD ∨ s.pc = .polS ∨ s.pc = .polA ∨ s.pc = .polP) → s'.pc = s.pc →
    s'.latch.pa = s.latch.pa → s'.latch.anar = s.latch.anar → s'.latch.dcnt = s.latch.dcnt → trn.sequencer = true →
    s.env.sched = trn :: rest → s'.env.sched = trn :: rest' → step s = .next t → step s' = .next t' →
    t'.pc = t.pc ∧ t'.latch.pa = t.latch.pa ∧ t'.latch.anar = t.latch.anar ∧ t'.latch.dcnt = t.latch.dcnt ∧
    (t.pc = .idle → (∀ e, trn ≠ .bus (.err e)) → t'.regs.link = t.regs.link) ∧
    t.history.drop s.history.length = t'.history.drop s'.history.length

/-! ### Who writes what -/

/-- R39: only the successful end of C22_RD and C45_RD writes RDATA (reset apart). -/
def Obligations.OnlySuccessfulReadsWriteRdata : Prop :=
  ∀ s t, step s = .next t → t.regs.rdata ≠ s.regs.rdata → t.env.turn ≠ .reset →
    (s.pc = .c22r ∨ s.pc = .c45dr) ∧ t.pc = .idle ∧ t.regs.done = true ∧ t.env.turn = .bus (.ok t.regs.rdata)

/-- R42: the sequencer writes PHYADDR in one place only, when discovery finds a candidate, and sets it to that candidate. -/
def Obligations.SequencerWritesPhyaddrOnlyWhenFound : Prop :=
  ∀ s t, step s = .next t → t.env.turn.sequencer = true → t.regs.phyaddr ≠ s.regs.phyaddr →
    s.pc = .dscP ∧ t.pc = .idle ∧ t.regs.phyaddr = .known s.latch.cand ∧
    ∃ v, t.env.turn = .bus (.ok v) ∧ v.getLsbD 15 = false

/-- The frame of the sequencer's own steps, for every command at every label: CTRL, ARG, POLLINT, REJ, the parameters, the
host's program and its reads are unchanged; and of each group of commands, the result registers and latches it does not write
are unchanged (R36, R39, R42, R44, R49). -/
def Obligations.SequencerFrame : Prop :=
  ∀ i s t, s.env.turn.sequencer = true → exec i s = .next t →
    t.params = s.params ∧ t.env = s.env ∧ t.regs.ie = s.regs.ie ∧ t.regs.arg = s.regs.arg ∧
    t.regs.pollint = s.regs.pollint ∧ t.regs.rej = s.regs.rej ∧
    t.latch.op = s.latch.op ∧ t.latch.pa = s.latch.pa ∧ t.latch.ra = s.latch.ra ∧ t.latch.dev = s.latch.dev ∧
    t.latch.regnum = s.latch.regnum ∧ t.latch.wdata = s.latch.wdata ∧
    ((∀ phy reg, i ≠ .c22Rd phy reg) → (∀ phy dev, i ≠ .c45Rd phy dev) → t.regs.rdata = s.regs.rdata) ∧
    (i ≠ .phyReset → t.regs.phyaddr = s.regs.phyaddr ∧ t.latch.cand = s.latch.cand ∧ t.latch.att = s.latch.att ∧
      t.latch.dcnt = s.latch.dcnt) ∧
    (i ≠ .pollLink → t.regs.link = s.regs.link ∧ t.latch.anar = s.latch.anar)

/-! ### The host port -/

/-- R38: what is refused while BUSY = 1 and in FATAL, and what is not. -/
def Obligations.WritesRefusedWhileBusy : Prop :=
  ∀ s off v ps rest, s.HostWrites off v ps rest → off < 0x40 → off % 4 = 0 →
    (s.busy = true → (off = 0x08 ∨ off = 0x0C ∨ off = 0x14 ∨ off = 0x18) →
      step s = .next { s.hostDone ps rest with regs := { s.regs with rej := true } }) ∧
    (s.pc = .fatal → off = 0x0C → step s = .next { s.hostDone ps rest with regs := { s.regs with rej := true } }) ∧
    (s.pc = .fatal → (off = 0x08 ∨ off = 0x14 ∨ off = 0x18) → ∃ t, step s = .next t ∧ t.regs.rej = s.regs.rej ∧
      (off = 0x08 → t.regs.arg = v) ∧ (off = 0x14 → t.regs.phyaddr = phyAddrWrite v s.regs.phyaddr) ∧
      (off = 0x18 → t.regs.pollint = v)) ∧
    ((off = 0x00 ∨ 0x24 ≤ off) → ∃ t, step s = .next t ∧ t.regs.rej = s.regs.rej) ∧
    (off = 0x04 → ∃ t, step s = .next t ∧ (t.regs.rej = true → s.regs.rej = true))

/-- R112, R168: while a command runs, no turn of the host stops it or changes what it works on: the label, the latches, the
history and the results are unchanged, whatever the host does. -/
def Obligations.HostCannotDisturbARunningCommand : Prop :=
  ∀ s t, s.busy = true → step s = .next t → t.env.turn = .host →
    t.pc = s.pc ∧ t.latch = s.latch ∧ t.history = s.history ∧ t.params = s.params ∧ t.regs.arg = s.regs.arg ∧
    t.regs.phyaddr = s.regs.phyaddr ∧ t.regs.pollint = s.regs.pollint ∧ t.regs.rdata = s.regs.rdata ∧
    t.regs.link = s.regs.link ∧ t.regs.err = s.regs.err ∧ t.regs.errcode = s.regs.errcode ∧
    t.regs.buserr = s.regs.buserr

/-- R34: a STATUS write clears DONE and REJ where its bits 1 and 3 are set, at any time, and does nothing else. -/
def Obligations.StatusIsWriteOneToClear : Prop :=
  ∀ s v ps rest, s.HostWrites 0x04 v ps rest →
    step s = .next { s.hostDone ps rest with
      regs := { s.regs with
        done := if v.getLsbD 1 = true then false else s.regs.done
        rej := if v.getLsbD 3 = true then false else s.regs.rej } }

/-- R41: a PHYADDR write that is not refused takes 0x00 to 0x1F and 0xFF from v[7:0] and ignores the rest. -/
def Obligations.PhyaddrWriteIsLegalised : Prop :=
  ∀ s v ps rest, s.HostWrites 0x14 v ps rest → s.busy = false →
    ∃ t, step s = .next t ∧
      (((v.extractLsb' 0 8).toNat ≤ 0x1F ∨ v.extractLsb' 0 8 = 0xFF) →
        csrRead t 0x14 = (v.extractLsb' 0 8).setWidth 32) ∧
      (0x20 ≤ (v.extractLsb' 0 8).toNat → (v.extractLsb' 0 8).toNat ≤ 0xFE → csrRead t 0x14 = csrRead s 0x14) ∧
      t = { s.hostDone ps rest with regs := { s.regs with phyaddr := t.regs.phyaddr } }

/-- R32, R36, R43, R31, R85: the plain registers take the word written, CTRL its bit 0; the read-only registers and the reserved
slots take nothing. -/
def Obligations.PlainRegisterWrites : Prop :=
  ∀ s off v ps rest, s.HostWrites off v ps rest →
    (off = 0x00 → step s = .next { s.hostDone ps rest with regs := { s.regs with ie := v.getLsbD 0 } }) ∧
    (off = 0x08 → s.busy = false → step s = .next { s.hostDone ps rest with regs := { s.regs with arg := v } }) ∧
    (off = 0x18 → s.busy = false → step s = .next { s.hostDone ps rest with regs := { s.regs with pollint := v } }) ∧
    ((off = 0x10 ∨ off = 0x1C ∨ off = 0x20 ∨ (0x24 ≤ off ∧ off < 0x40 ∧ off % 4 = 0)) →
      step s = .next (s.hostDone ps rest))

/-- R83: a read returns the register at its offset, or 0 for a reserved slot, and changes no state of the block. The words of
the registers are those of R32, R36, R37, R39, R40, R43 and R46, in every state; that of STATUS is StatusWordFields', and that of
LINK is LinkWordEncoding's. -/
def Obligations.ReadsHaveNoSideEffect : Prop :=
  (∀ s : State,
    (csrRead s 0x00).getLsbD 0 = s.regs.ie ∧ (csrRead s 0x00).extractLsb' 1 31 = 0 ∧
    csrRead s 0x08 = s.regs.arg ∧ csrRead s 0x0C = 0 ∧
    (csrRead s 0x10).extractLsb' 0 16 = s.regs.rdata ∧ (csrRead s 0x10).extractLsb' 16 16 = 0 ∧
    (∀ a, s.regs.phyaddr = .known a → (csrRead s 0x14).toNat = a.toNat) ∧
    (s.regs.phyaddr = .unknown → csrRead s 0x14 = 0x000000FF) ∧
    csrRead s 0x18 = s.regs.pollint ∧ csrRead s 0x20 = s.regs.buserr ∧
    (∀ off, 0x24 ≤ off → csrRead s off = 0)) ∧
  (∀ s off ps rest, s.HostReads off ps rest → off < 0x40 → off % 4 = 0 →
    ∃ t, step s = .next t ∧ t.regs = s.regs ∧ t.pc = s.pc ∧ t.latch = s.latch ∧ t.history = s.history ∧
      t.params = s.params ∧ t.env.reads = s.env.reads ++ [⟨off, csrRead s off⟩] ∧
      (∀ o, csrRead t o = csrRead s o))

/-- R84: an access of another width, or at an offset that is not a multiple of 4, is refused by name. That an access which is
both is refused for its width is the model's choice (log 5). -/
def Obligations.NarrowAndMisalignedAccessesAreRefused : Prop :=
  ∀ s a addr size ps rest, s.env.sched = .host :: rest → s.env.prog = .access a :: ps →
    (a = .read addr size ∨ ∃ v, a = .write addr size v) →
    s.params.csrBase ≤ addr → addr < s.params.csrBase + 0x40 →
    (size ≠ 4 → step s = .refused .accessWidth) ∧
    (size = 4 → (addr - s.params.csrBase) % 4 ≠ 0 → step s = .refused .accessAlignment) ∧
    (size = 4 → (addr - s.params.csrBase) % 4 = 0 → ∃ t, step s = .next t)

/-- R33, R35, R260: the STATUS word, bit by bit, and the number of each ERRCODE. -/
def Obligations.StatusWordFields : Prop :=
  ∀ s, (csrRead s 0x04).getLsbD 0 = (s.pc != .idle && s.pc != .fatal) ∧
    (csrRead s 0x04).getLsbD 1 = s.regs.done ∧ (csrRead s 0x04).getLsbD 2 = s.regs.err ∧
    (csrRead s 0x04).getLsbD 3 = s.regs.rej ∧ (csrRead s 0x04).getLsbD 4 = (s.pc == .fatal) ∧
    (csrRead s 0x04).extractLsb' 5 3 = 0 ∧ (csrRead s 0x04).extractLsb' 8 4 = s.regs.errcode.code ∧
    (csrRead s 0x04).extractLsb' 12 20 = 0 ∧
    (s.regs.errcode = .none → (csrRead s 0x04).extractLsb' 8 4 = 0) ∧
    (s.regs.errcode = .bus → (csrRead s 0x04).extractLsb' 8 4 = 1) ∧
    (s.regs.errcode = .illegal → (csrRead s 0x04).extractLsb' 8 4 = 2) ∧
    (s.regs.errcode = .addrUnknown → (csrRead s 0x04).extractLsb' 8 4 = 3) ∧
    (s.regs.errcode = .noDevice → (csrRead s 0x04).extractLsb' 8 4 = 4)

/-- R267: IRQ is CTRL.IE and STATUS.DONE; it rises only when a step sets DONE with IE = 1 or sets IE with DONE = 1, and DONE is
set only by the end of a command or by a CMD write that ends at once. -/
def Obligations.InterruptRisesOnlyAtAnEnd : Prop :=
  (∀ s, irq s = ((csrRead s 0x00).getLsbD 0 && (csrRead s 0x04).getLsbD 1)) ∧
  (∀ s t, step s = .next t → irq s = false → irq t = true →
    (s.regs.ie = true ∧ s.regs.done = false ∧ t.regs.done = true ∧
      ((s.busy = true ∧ t.busy = false) ∨
        (s.pc = .idle ∧ t.env.turn = .host ∧ (t.regs.errcode = .illegal ∨ t.regs.errcode = .addrUnknown)))) ∨
    (s.regs.ie = false ∧ s.regs.done = true ∧ t.regs.done = true ∧ t.env.turn = .host))

/-- R147, R187, R268: the two ways of waiting run the same commands: neither changes a register, the label, a latch or the
history; `wait` goes on exactly when BUSY = 0, the suspending wait exactly when IRQ = 1. That each wait is one item of the
host's program, which stays, and which reads STATUS once at a turn or makes no access, is the model's choice (log 14). -/
def Obligations.WaitingLeavesTheBlockAlone : Prop :=
  ∀ s ps rest, s.env.sched = .host :: rest →
    (s.env.prog = .waitIdle :: ps → ∃ t, step s = .next t ∧ t.regs = s.regs ∧ t.pc = s.pc ∧ t.latch = s.latch ∧
      t.history = s.history ∧ t.env.reads = s.env.reads ++ [⟨0x04, csrRead s 0x04⟩] ∧
      t.env.prog = (if (csrRead s 0x04).getLsbD 0 = true then .waitIdle :: ps else ps)) ∧
    (s.env.prog = .waitIrq :: ps → ∃ t, step s = .next t ∧ t.regs = s.regs ∧ t.pc = s.pc ∧ t.latch = s.latch ∧
      t.history = s.history ∧ t.env.reads = s.env.reads ∧
      t.env.prog = (if irq s = true then ps else .waitIrq :: ps))

/-! ### Ticks and delays -/

/-- R270: a tick lowers the delay counter during a delay, and has no effect otherwise. -/
def Obligations.TickLowersTheDelayCounter : Prop :=
  ∀ s rest, s.env.sched = .tick :: rest →
    ((s.pc = .dscD ∨ s.pc = .polD) → s.latch.dcnt ≠ 0 →
      step s = .next { s.turned .tick rest with latch := { s.latch with dcnt := s.latch.dcnt - 1 } }) ∧
    (¬ ((s.pc = .dscD ∨ s.pc = .polD) ∧ s.latch.dcnt ≠ 0) → step s = .next (s.turned .tick rest))

/-- R271, R316: a delay is a lower bound, and with a fair tick source every delay ends. However the steps of the other agents
interleave, as long as fewer ticks have come than the counter asked for, the sequencer is still at its delay label, and the
counter is what is left; once the counter is 0 its next step leaves the label. In an endless order of turns in which ticks are
fair, the counter reaches 0 unless a reset has ended the delay. Where the sequencer's own turns come too, it leaves the label:
that premise is the model's own, since here the sequencer's step is taken at a turn of its own (log 13). -/
def Obligations.DelaysLastAtLeastTheirTicks : Prop :=
  (∀ s t (turns : List Turn) rest, (s.pc = .dscD ∨ s.pc = .polD) → s.env.sched = turns ++ rest → Turn.reset ∉ turns →
    stepN turns.length s = .next t → turns.count Turn.tick < s.latch.dcnt.toNat →
    t.pc = s.pc ∧ t.latch.dcnt.toNat = s.latch.dcnt.toNat - turns.count Turn.tick ∧ t.history = s.history) ∧
  (∀ s rest, (s.pc = .dscD ∨ s.pc = .polD) → s.latch.dcnt = 0 → s.env.sched = .seq :: rest →
    ∃ t, step s = .next t ∧ t.pc ≠ s.pc) ∧
  (∀ (s : State) (turns : Nat → Turn), (s.pc = .dscD ∨ s.pc = .polD) → TicksFair turns → s.GoesOn turns →
    (∃ n t, stepN n (s.scheduled (firstTurns n turns)) = .next t ∧
      ((t.pc = s.pc ∧ t.latch.dcnt = 0) ∨ Turn.reset ∈ firstTurns n turns)) ∧
    (SequencerFair turns → ∃ n t, stepN n (s.scheduled (firstTurns n turns)) = .next t ∧ t.pc ≠ s.pc))
end

