-- ==== Sys2Proof/Laws/Words.lean ====
section
/-! SUPPORT. The words of the block: bits of a CMD word and its decoding, control words, and the registers as the host reads
them. -/

namespace Sys2Proof

open Machine

/-- Two words are equal when their bits are. -/
theorem word_ext {n : Nat} {a b : BitVec n} (h : ∀ i, i < n → a.getLsbD i = b.getLsbD i) : a = b :=
  BitVec.eq_of_getLsbD_eq (fun i hi => h i hi)

/-- The fields of `cmdword` are its arguments (R121, R146). -/
theorem cmdOp_cmdword (op : BitVec 4) (phy reg : Addr5) (dev : Byte) : cmdOp (cmdword op phy reg dev) = op := by
  apply word_ext; intro i hi
  interval_cases i <;> simp [cmdOp, cmdword]

theorem cmdPhyad_cmdword (op : BitVec 4) (phy reg : Addr5) (dev : Byte) : cmdPhyad (cmdword op phy reg dev) = phy := by
  apply word_ext; intro i hi
  interval_cases i <;> simp [cmdPhyad, cmdword]

theorem cmdRegad_cmdword (op : BitVec 4) (phy reg : Addr5) (dev : Byte) : cmdRegad (cmdword op phy reg dev) = reg := by
  apply word_ext; intro i hi
  interval_cases i <;> simp [cmdRegad, cmdword]

theorem cmdDevad_cmdword (op : BitVec 4) (phy reg : Addr5) (dev : Byte) : cmdDevad (cmdword op phy reg dev) = dev := by
  apply word_ext; intro i hi
  interval_cases i <;> simp [cmdDevad, cmdword]

/-- A word is put together again from its bytes (R82). -/
theorem wordOfBytes_bytes (w : Word) :
    wordOfBytes (w.extractLsb' 0 8) (w.extractLsb' 8 8) (w.extractLsb' 16 8) (w.extractLsb' 24 8) = w := by
  apply word_ext; intro i hi
  interval_cases i <;> simp [wordOfBytes]

theorem decodeBytes_bytesOfWord (w : Word) (more : List Byte) :
    decodeBytes (bytesOfWord w ++ more) = decodeCmd w := by
  simp [bytesOfWord, decodeBytes, wordOfBytes_bytes]

theorem tableWord_toNat (w : Word) : tableWord 32 w.toNat = w := by
  apply BitVec.eq_of_toNat_eq
  simp [tableWord, w.isLt]

/-- Decoding by opcode (R123): the word's opcode is one of the seven, or the word is rejected under it. -/
theorem decodeCmd_cases (w : Word) :
    (cmdOp w = 1 ∧ decodeCmd w = .ok (.c22Rd (cmdPhyad w) (cmdRegad w))) ∨
    (cmdOp w = 2 ∧ decodeCmd w = .ok (.c22Wr (cmdPhyad w) (cmdRegad w))) ∨
    (cmdOp w = 3 ∧ decodeCmd w = .ok (.c45Rd (cmdPhyad w) (cmdDevad w))) ∨
    (cmdOp w = 4 ∧ decodeCmd w = .ok (.c45Wr (cmdPhyad w) (cmdDevad w))) ∨
    (cmdOp w = 5 ∧ decodeCmd w = .ok .phyReset) ∨
    (cmdOp w = 6 ∧ decodeCmd w = .ok .phyInit) ∨
    (cmdOp w = 7 ∧ decodeCmd w = .ok .pollLink) ∨
    ((cmdOp w = 0 ∨ 8 ≤ (cmdOp w).toNat) ∧ decodeCmd w = .error (.illegalOpcode (cmdOp w))) := by
  unfold decodeCmd
  generalize cmdOp w = op
  have hop : op = BitVec.ofNat 4 op.toNat := by simp
  have hlt := op.isLt
  generalize hn : op.toNat = n at *
  subst hop
  interval_cases n <;> simp

/-- What a word built by `cmdword` decodes to (R122, R146). -/
theorem decode_cmdword (op : BitVec 4) (phy reg : Addr5) (dev : Byte) :
    decodeCmd (cmdword op phy reg dev) =
      match op.toNat with
      | 1 => .ok (.c22Rd phy reg)
      | 2 => .ok (.c22Wr phy reg)
      | 3 => .ok (.c45Rd phy dev)
      | 4 => .ok (.c45Wr phy dev)
      | 5 => .ok .phyReset
      | 6 => .ok .phyInit
      | 7 => .ok .pollLink
      | _ => .error (.illegalOpcode op) := by
  rw [decodeCmd, cmdOp_cmdword, cmdPhyad_cmdword, cmdRegad_cmdword, cmdDevad_cmdword] <;> rfl

/-- ARG as the assembler writes it holds the register number in its low half (R124, R146). -/
theorem argRegnum_argWord (v n : Nat) (h : immOk n = true) : (argRegnum (argWord v n)).toNat = n := by
  have hn : n < 2 ^ 16 := by simp [immOk] at h; omega
  have e : argRegnum (argWord v n) = BitVec.ofNat 16 n := by
    apply word_ext; intro i hi
    interval_cases i <;>
      simp only [argRegnum, argWord, BitVec.getLsbD_extractLsb', BitVec.getLsbD_or, BitVec.getLsbD_shiftLeft,
        BitVec.getLsbD_ofNat] <;> simp
  rw [e]; simp; omega

/-- ARG as the assembler writes it holds the value in its high half (R124, R146). -/
theorem argWdata_argWord (v n : Nat) (h : immOk n = true) (hv : immOk v = true) :
    (argWdata (argWord v n)).toNat = v := by
  have hn : n < 2 ^ 16 := by simp [immOk] at h; omega
  have hv : v < 2 ^ 16 := by simp [immOk] at hv; omega
  have high : ∀ i, 16 ≤ i → n.testBit i = false := fun i hi =>
    Nat.testBit_lt_two_pow (lt_of_lt_of_le hn (Nat.pow_le_pow_right (by omega) hi))
  have e : argWdata (argWord v n) = BitVec.ofNat 16 v := by
    apply word_ext; intro i hi
    interval_cases i <;>
      simp only [argWdata, argWord, BitVec.getLsbD_extractLsb', BitVec.getLsbD_or, BitVec.getLsbD_shiftLeft,
        BitVec.getLsbD_ofNat] <;> simp [high]
  rw [e]; simp; omega

/-- A latched identifier builds the control words of the identifier that was written (R132, R201). -/
theorem ctlword_maskDev (f : BitVec 2) (dev : Byte) :
    ctlword f ((maskDev dev).setWidth 8) = ctlword f dev := by
  apply word_ext; intro i hi
  interval_cases i <;> simp [ctlword, maskDev]

/-- The mask keeps bits 4:0 (R163). -/
theorem maskDev_cmdDevad (w : Word) : maskDev (cmdDevad w) = w.extractLsb' 24 5 := by
  apply word_ext; intro i hi
  interval_cases i <;> simp [maskDev, cmdDevad]

end Sys2Proof
end

