-- ==== Sys2Proof/Laws/PerInstr.lean ====
section
/-! SUPPORT. Statements about every command as syntax, one lemma per command. -/

namespace Sys2Proof.Laws

/-- The CMD word of a command (R121, R122, R146): its opcode stands in bits 3:0 and every reserved bit is 0. -/
def CmdWord.Statement (i : Instr) : Prop :=
  (encode i).extractLsb' 0 4 = i.opcode ∧ (encode i).extractLsb' 4 4 = 0 ∧ (encode i).extractLsb' 13 3 = 0 ∧
    (encode i).extractLsb' 21 3 = 0

/-- The opcode and the reserved bits of an assembled word. -/
theorem cmdword_fixed_bits (op : BitVec 4) (phy reg : Addr5) (dev : Byte) :
    (cmdword op phy reg dev).extractLsb' 0 4 = op ∧ (cmdword op phy reg dev).extractLsb' 4 4 = 0 ∧
      (cmdword op phy reg dev).extractLsb' 13 3 = 0 ∧ (cmdword op phy reg dev).extractLsb' 21 3 = 0 := by
  unfold cmdword
  refine ⟨?_, ?_, ?_, ?_⟩ <;>
  · ext k hk
    interval_cases k <;> simp

theorem CmdWord.c22Rd (phy reg : Addr5) : CmdWord.Statement (.c22Rd phy reg) :=
  cmdword_fixed_bits 0x1 phy reg 0

theorem CmdWord.c22Wr (phy reg : Addr5) : CmdWord.Statement (.c22Wr phy reg) :=
  cmdword_fixed_bits 0x2 phy reg 0

theorem CmdWord.c45Rd (phy : Addr5) (dev : Byte) : CmdWord.Statement (.c45Rd phy dev) :=
  cmdword_fixed_bits 0x3 phy 0 dev

theorem CmdWord.c45Wr (phy : Addr5) (dev : Byte) : CmdWord.Statement (.c45Wr phy dev) :=
  cmdword_fixed_bits 0x4 phy 0 dev

theorem CmdWord.phyReset : CmdWord.Statement .phyReset := by
  unfold CmdWord.Statement
  decide

theorem CmdWord.phyInit : CmdWord.Statement .phyInit := by
  unfold CmdWord.Statement
  decide

theorem CmdWord.pollLink : CmdWord.Statement .pollLink := by
  unfold CmdWord.Statement
  decide

end Sys2Proof.Laws
end

