-- ==== Sys2Proof/Laws/State.lean ====
section
/-! SUPPORT. What each named update leaves in each field of State: one lemma per field per update, so that no proof unfolds a
record update. -/

namespace Sys2Proof.Machine

variable (s : State)

/-! `record` -/
@[simp] theorem State.record_params (q : BusRequest) (r : BusAnswer) : (s.record q r).params = s.params := rfl
@[simp] theorem State.record_regs (q : BusRequest) (r : BusAnswer) : (s.record q r).regs = s.regs := rfl
@[simp] theorem State.record_pc (q : BusRequest) (r : BusAnswer) : (s.record q r).pc = s.pc := rfl
@[simp] theorem State.record_latch (q : BusRequest) (r : BusAnswer) : (s.record q r).latch = s.latch := rfl
@[simp] theorem State.record_history (q : BusRequest) (r : BusAnswer) : (s.record q r).history = s.history ++ [BusEvent.of q r] := rfl
@[simp] theorem State.record_env (q : BusRequest) (r : BusAnswer) : (s.record q r).env = s.env := rfl

/-! `goto` -/
@[simp] theorem State.goto_params (l : Label) : (s.goto l).params = s.params := rfl
@[simp] theorem State.goto_regs (l : Label) : (s.goto l).regs = s.regs := rfl
@[simp] theorem State.goto_pc (l : Label) : (s.goto l).pc = l := rfl
@[simp] theorem State.goto_latch (l : Label) : (s.goto l).latch = s.latch := rfl
@[simp] theorem State.goto_history (l : Label) : (s.goto l).history = s.history := rfl
@[simp] theorem State.goto_env (l : Label) : (s.goto l).env = s.env := rfl

/-! `complete` -/
@[simp] theorem State.complete_params : (s.complete).params = s.params := rfl
@[simp] theorem State.complete_regs : (s.complete).regs = { s.regs with done := true } := rfl
@[simp] theorem State.complete_pc : (s.complete).pc = .idle := rfl
@[simp] theorem State.complete_latch : (s.complete).latch = s.latch := rfl
@[simp] theorem State.complete_history : (s.complete).history = s.history := rfl
@[simp] theorem State.complete_env : (s.complete).env = s.env := rfl

/-! `busError` -/
@[simp] theorem State.busError_params (e : Word) : (s.busError e).params = s.params := rfl
@[simp] theorem State.busError_regs (e : Word) : (s.busError e).regs = { s.regs with err := true, errcode := .bus, buserr := e, done := true } := rfl
@[simp] theorem State.busError_pc (e : Word) : (s.busError e).pc = .idle := rfl
@[simp] theorem State.busError_latch (e : Word) : (s.busError e).latch = s.latch := rfl
@[simp] theorem State.busError_history (e : Word) : (s.busError e).history = s.history := rfl
@[simp] theorem State.busError_env (e : Word) : (s.busError e).env = s.env := rfl

/-! `noDevice` -/
@[simp] theorem State.noDevice_params : (s.noDevice).params = s.params := rfl
@[simp] theorem State.noDevice_regs : (s.noDevice).regs = { s.regs with done := true, err := true, errcode := .noDevice } := rfl
@[simp] theorem State.noDevice_pc : (s.noDevice).pc = .fatal := rfl
@[simp] theorem State.noDevice_latch : (s.noDevice).latch = s.latch := rfl
@[simp] theorem State.noDevice_history : (s.noDevice).history = s.history := rfl
@[simp] theorem State.noDevice_env : (s.noDevice).env = s.env := rfl

/-! `failAtOnce` -/
@[simp] theorem State.failAtOnce_params (c : ErrCode) : (s.failAtOnce c).params = s.params := rfl
@[simp] theorem State.failAtOnce_regs (c : ErrCode) : (s.failAtOnce c).regs = { s.regs with done := true, err := true, errcode := c, buserr := 0 } := rfl
@[simp] theorem State.failAtOnce_pc (c : ErrCode) : (s.failAtOnce c).pc = s.pc := rfl
@[simp] theorem State.failAtOnce_latch (c : ErrCode) : (s.failAtOnce c).latch = s.latch := rfl
@[simp] theorem State.failAtOnce_history (c : ErrCode) : (s.failAtOnce c).history = s.history := rfl
@[simp] theorem State.failAtOnce_env (c : ErrCode) : (s.failAtOnce c).env = s.env := rfl

/-! `reject` -/
@[simp] theorem State.reject_params : (s.reject).params = s.params := rfl
@[simp] theorem State.reject_regs : (s.reject).regs = { s.regs with rej := true } := rfl
@[simp] theorem State.reject_pc : (s.reject).pc = s.pc := rfl
@[simp] theorem State.reject_latch : (s.reject).latch = s.latch := rfl
@[simp] theorem State.reject_history : (s.reject).history = s.history := rfl
@[simp] theorem State.reject_env : (s.reject).env = s.env := rfl

/-! `setRdata` -/
@[simp] theorem State.setRdata_params (v : Half) : (s.setRdata v).params = s.params := rfl
@[simp] theorem State.setRdata_regs (v : Half) : (s.setRdata v).regs = { s.regs with rdata := v } := rfl
@[simp] theorem State.setRdata_pc (v : Half) : (s.setRdata v).pc = s.pc := rfl
@[simp] theorem State.setRdata_latch (v : Half) : (s.setRdata v).latch = s.latch := rfl
@[simp] theorem State.setRdata_history (v : Half) : (s.setRdata v).history = s.history := rfl
@[simp] theorem State.setRdata_env (v : Half) : (s.setRdata v).env = s.env := rfl

/-! `setLink` -/
@[simp] theorem State.setLink_params (st : LinkStatus) : (s.setLink st).params = s.params := rfl
@[simp] theorem State.setLink_regs (st : LinkStatus) : (s.setLink st).regs = { s.regs with link := some st } := rfl
@[simp] theorem State.setLink_pc (st : LinkStatus) : (s.setLink st).pc = s.pc := rfl
@[simp] theorem State.setLink_latch (st : LinkStatus) : (s.setLink st).latch = s.latch := rfl
@[simp] theorem State.setLink_history (st : LinkStatus) : (s.setLink st).history = s.history := rfl
@[simp] theorem State.setLink_env (st : LinkStatus) : (s.setLink st).env = s.env := rfl

/-! `setPhyaddr` -/
@[simp] theorem State.setPhyaddr_params (a : Addr5) : (s.setPhyaddr a).params = s.params := rfl
@[simp] theorem State.setPhyaddr_regs (a : Addr5) : (s.setPhyaddr a).regs = { s.regs with phyaddr := .known a } := rfl
@[simp] theorem State.setPhyaddr_pc (a : Addr5) : (s.setPhyaddr a).pc = s.pc := rfl
@[simp] theorem State.setPhyaddr_latch (a : Addr5) : (s.setPhyaddr a).latch = s.latch := rfl
@[simp] theorem State.setPhyaddr_history (a : Addr5) : (s.setPhyaddr a).history = s.history := rfl
@[simp] theorem State.setPhyaddr_env (a : Addr5) : (s.setPhyaddr a).env = s.env := rfl

/-! `accept` -/
@[simp] theorem State.accept_params (l : Label) (f : Latches → Latches) : (s.accept l f).params = s.params := rfl
@[simp] theorem State.accept_regs (l : Label) (f : Latches → Latches) : (s.accept l f).regs = { s.regs with done := false, err := false, errcode := .none, buserr := 0 } := rfl
@[simp] theorem State.accept_pc (l : Label) (f : Latches → Latches) : (s.accept l f).pc = l := rfl
@[simp] theorem State.accept_latch (l : Label) (f : Latches → Latches) : (s.accept l f).latch = f s.latch := rfl
@[simp] theorem State.accept_history (l : Label) (f : Latches → Latches) : (s.accept l f).history = s.history := rfl
@[simp] theorem State.accept_env (l : Label) (f : Latches → Latches) : (s.accept l f).env = s.env := rfl

/-! `found` -/
@[simp] theorem State.found_params : (s.found).params = s.params := rfl
@[simp] theorem State.found_regs : (s.found).regs = { s.regs with phyaddr := .known s.latch.cand, done := true } := rfl
@[simp] theorem State.found_pc : (s.found).pc = .idle := rfl
@[simp] theorem State.found_latch : (s.found).latch = s.latch := rfl
@[simp] theorem State.found_history : (s.found).history = s.history := rfl
@[simp] theorem State.found_env : (s.found).env = s.env := rfl

/-! `missed` -/
@[simp] theorem State.missed_params : (s.missed).params = s.params := rfl
@[simp] theorem State.missed_regs : (s.missed).regs = s.regs := rfl
@[simp] theorem State.missed_pc : (s.missed).pc = .dscD := rfl
@[simp] theorem State.missed_latch : (s.missed).latch = { s.latch with att := s.latch.att + 1, dcnt := s.params.discDelayTicks } := rfl
@[simp] theorem State.missed_history : (s.missed).history = s.history := rfl
@[simp] theorem State.missed_env : (s.missed).env = s.env := rfl

/-! `pollEnds` -/
@[simp] theorem State.pollEnds_params (st : LinkStatus) : (s.pollEnds st).params = s.params := rfl
@[simp] theorem State.pollEnds_regs (st : LinkStatus) : (s.pollEnds st).regs = { s.regs with link := some st, done := true } := rfl
@[simp] theorem State.pollEnds_pc (st : LinkStatus) : (s.pollEnds st).pc = .idle := rfl
@[simp] theorem State.pollEnds_latch (st : LinkStatus) : (s.pollEnds st).latch = s.latch := rfl
@[simp] theorem State.pollEnds_history (st : LinkStatus) : (s.pollEnds st).history = s.history := rfl
@[simp] theorem State.pollEnds_env (st : LinkStatus) : (s.pollEnds st).env = s.env := rfl

/-! `hostRead` -/
@[simp] theorem State.hostRead_params (off : Nat) : (s.hostRead off).params = s.params := rfl
@[simp] theorem State.hostRead_regs (off : Nat) : (s.hostRead off).regs = s.regs := rfl
@[simp] theorem State.hostRead_pc (off : Nat) : (s.hostRead off).pc = s.pc := rfl
@[simp] theorem State.hostRead_latch (off : Nat) : (s.hostRead off).latch = s.latch := rfl
@[simp] theorem State.hostRead_history (off : Nat) : (s.hostRead off).history = s.history := rfl
@[simp] theorem State.hostRead_env (off : Nat) : (s.hostRead off).env = { s.env with reads := s.env.reads ++ [{ off := off, value := csrRead s off }] } := rfl

/-! `turned` -/
@[simp] theorem State.turned_params (trn : Turn) (rest : List Turn) : (s.turned trn rest).params = s.params := rfl
@[simp] theorem State.turned_regs (trn : Turn) (rest : List Turn) : (s.turned trn rest).regs = s.regs := rfl
@[simp] theorem State.turned_pc (trn : Turn) (rest : List Turn) : (s.turned trn rest).pc = s.pc := rfl
@[simp] theorem State.turned_latch (trn : Turn) (rest : List Turn) : (s.turned trn rest).latch = s.latch := rfl
@[simp] theorem State.turned_history (trn : Turn) (rest : List Turn) : (s.turned trn rest).history = s.history := rfl
@[simp] theorem State.turned_env (trn : Turn) (rest : List Turn) : (s.turned trn rest).env = { s.env with sched := rest, turn := trn } := rfl

/-! `scheduled` -/
@[simp] theorem State.scheduled_params (turns : List Turn) : (s.scheduled turns).params = s.params := rfl
@[simp] theorem State.scheduled_regs (turns : List Turn) : (s.scheduled turns).regs = s.regs := rfl
@[simp] theorem State.scheduled_pc (turns : List Turn) : (s.scheduled turns).pc = s.pc := rfl
@[simp] theorem State.scheduled_latch (turns : List Turn) : (s.scheduled turns).latch = s.latch := rfl
@[simp] theorem State.scheduled_history (turns : List Turn) : (s.scheduled turns).history = s.history := rfl
@[simp] theorem State.scheduled_env (turns : List Turn) : (s.scheduled turns).env = { s.env with sched := turns } := rfl

/-! `hostDone` -/
@[simp] theorem State.hostDone_params (ps : List HostOp) (rest : List Turn) : (s.hostDone ps rest).params = s.params := rfl
@[simp] theorem State.hostDone_regs (ps : List HostOp) (rest : List Turn) : (s.hostDone ps rest).regs = s.regs := rfl
@[simp] theorem State.hostDone_pc (ps : List HostOp) (rest : List Turn) : (s.hostDone ps rest).pc = s.pc := rfl
@[simp] theorem State.hostDone_latch (ps : List HostOp) (rest : List Turn) : (s.hostDone ps rest).latch = s.latch := rfl
@[simp] theorem State.hostDone_history (ps : List HostOp) (rest : List Turn) : (s.hostDone ps rest).history = s.history := rfl
@[simp] theorem State.hostDone_env (ps : List HostOp) (rest : List Turn) : (s.hostDone ps rest).env = { s.env with prog := ps, sched := rest, turn := .host } := rfl

/-! `hardReset` -/
@[simp] theorem State.hardReset_params : (s.hardReset).params = s.params := rfl
@[simp] theorem State.hardReset_regs : (s.hardReset).regs = Regs.reset s.params := rfl
@[simp] theorem State.hardReset_pc : (s.hardReset).pc = .idle := rfl
@[simp] theorem State.hardReset_latch : (s.hardReset).latch = Latches.reset := rfl
@[simp] theorem State.hardReset_history : (s.hardReset).history = s.history := rfl
@[simp] theorem State.hardReset_env : (s.hardReset).env = s.env := rfl

/-! BUSY is a function of the label, and a read of the window of the registers and the label. -/
@[simp] theorem State.record_busy (q : BusRequest) (r : BusAnswer) : (s.record q r).busy = s.busy := rfl
@[simp] theorem State.turned_busy (trn : Turn) (rest : List Turn) : (s.turned trn rest).busy = s.busy := rfl
@[simp] theorem State.scheduled_busy (turns : List Turn) : (s.scheduled turns).busy = s.busy := rfl
@[simp] theorem State.hostDone_busy (ps : List HostOp) (rest : List Turn) : (s.hostDone ps rest).busy = s.busy := rfl
@[simp] theorem State.hostRead_busy (off : Nat) : (s.hostRead off).busy = s.busy := rfl

/-! What each slot of the window reads as (R31 to R46). -/
theorem csrRead_ctrl : csrRead s 0x00 = ctrlWord s := rfl
theorem csrRead_status : csrRead s 0x04 = statusWord s := rfl
theorem csrRead_arg : csrRead s 0x08 = s.regs.arg := rfl
theorem csrRead_cmd : csrRead s 0x0C = 0 := rfl
theorem csrRead_rdata : csrRead s 0x10 = s.regs.rdata.setWidth 32 := rfl
theorem csrRead_phyaddr : csrRead s 0x14 = (phyAddrByte s.regs.phyaddr).setWidth 32 := rfl
theorem csrRead_pollint : csrRead s 0x18 = s.regs.pollint := rfl
theorem csrRead_link : csrRead s 0x1C = linkWord s := rfl
theorem csrRead_buserr : csrRead s 0x20 = s.regs.buserr := rfl
theorem csrRead_reserved {off : Nat} (h : 0x24 ≤ off) : csrRead s off = 0 := by
  have ne : ∀ o, o < 0x24 → off ≠ o := by omega
  simp [csrRead, ne, offCtrl, offStatus, offArg, offRdata, offPhyaddr, offPollint, offLink, offBuserr]

/-- What a read of the window returns depends on the registers and the label alone (R83). -/
theorem csrRead_congr {s t : State} (hr : t.regs = s.regs) (hp : t.pc = s.pc) (off : Nat) :
    csrRead t off = csrRead s off := by
  simp [csrRead, ctrlWord, statusWord, linkWord, State.busy, State.fatal, hr, hp]

end Sys2Proof.Machine
end

