-- ==== Sys2Proof/Laws/Steps.lean ====
section
/-! SUPPORT. What a step can do, said once: the turn it takes, the effect of an answer and of a delay's end by label, the effect
of issuing a command, and what the host's turn can change. Later proofs cite these and do not unfold `step`. -/

namespace Sys2Proof.Machine

/-! ### The turn -/

theorem takeTurn_of_sched {s : State} {trn : Turn} {rest : List Turn} (h : s.env.sched = trn :: rest) :
    s.takeTurn = s.turned trn rest := by
  unfold State.takeTurn
  rw [h]
  rfl

/-- Taking a turn changes the agents' data only. -/
theorem takeTurn_block (s : State) :
    s.takeTurn.params = s.params ∧ s.takeTurn.regs = s.regs ∧ s.takeTurn.pc = s.pc ∧ s.takeTurn.latch = s.latch ∧
      s.takeTurn.history = s.history := by
  unfold State.takeTurn
  cases s.env.sched <;> simp

@[simp] theorem takeTurn_params (s : State) : s.takeTurn.params = s.params := (takeTurn_block s).1
@[simp] theorem takeTurn_regs (s : State) : s.takeTurn.regs = s.regs := (takeTurn_block s).2.1
@[simp] theorem takeTurn_pc (s : State) : s.takeTurn.pc = s.pc := (takeTurn_block s).2.2.1
@[simp] theorem takeTurn_latch (s : State) : s.takeTurn.latch = s.latch := (takeTurn_block s).2.2.2.1
@[simp] theorem takeTurn_history (s : State) : s.takeTurn.history = s.history := (takeTurn_block s).2.2.2.2

theorem step_of_sched {s : State} {trn : Turn} {rest : List Turn} (h : s.env.sched = trn :: rest) :
    step s = (s.turned trn rest).takeStep := by
  unfold step
  rw [takeTurn_of_sched h]

/-! ### The sequencer's steps -/

/-- What an answer `Ok(v)` leads to at each label, after its event is recorded (R183 to R243). -/
def State.afterOk (s : State) (v : Half) : State :=
  match s.pc with
  | .idle | .fatal | .dscD | .polD => s
  | .c22r | .c45dr => (s.setRdata v).complete
  | .c22w | .c45dw | .iniBM => s.complete
  | .c45ca => s.goto .c45rn
  | .c45rn => s.goto .c45co
  | .c45co => s.goto (if s.latch.op = 0x3 then .c45dr else .c45dw)
  | .rstW => s.goto .rstP
  | .rstP => if resetBit v then s.goto .rstP else s.complete
  | .dscW => { s with latch := { s.latch with att := 0 }, pc := .dscP }
  | .dscP => if resetBit v then s.missed else s.found
  | .iniCA => s.goto .iniRN
  | .iniRN => s.goto .iniCO
  | .iniCO => s.goto .iniDW
  | .iniDW => s.goto .iniBM
  | .polS => if anComplete v && linkUp v then s.goto .polA else s.pollEnds .down
  | .polA => { s with latch := { s.latch with anar := v }, pc := .polP }
  | .polP => s.pollEnds (resolve (s.latch.anar &&& v))

/-- The sequencer's step on an answer, whatever the label. -/
def State.answered (s : State) (r : BusAnswer) : State :=
  match s.inFlight with
  | none => s
  | some q =>
    match r with
    | .ok v => (s.record q r).afterOk v
    | .err e => (s.record q r).busError e

/-- The sequencer's own step at the end of a delay (R228, R240). -/
def State.delayEnd (s : State) : State :=
  if s.latch.dcnt = 0 then
    match s.pc with
    | .dscD => s.discoveryNext
    | .polD => s.goto .polS
    | _ => s
  else s

/-- Nothing runs exactly at IDLE and FATAL. -/
theorem running_none_iff (s : State) : s.running = none ↔ s.busy = false := by
  unfold State.running State.busy
  cases s.pc <;> simp [Label.busy]

/-- The step of the running command on an answer is the label's. -/
theorem exec_answered {s : State} {i : Instr} {r : BusAnswer} (hr : s.env.turn = .bus r) (hi : s.running = some i) :
    exec i s = .next (s.answered r) := by
  unfold State.running at hi
  unfold State.answered State.inFlight
  cases hpc : s.pc <;> simp only [hpc, Option.some.injEq, reduceCtorEq] at hi <;> subst hi
  case c45ca | c45rn | c45co =>
    split <;> cases r <;>
      simp_all [exec, execC45Rd, execC45Wr, State.commandStep, State.busWrite, State.afterOk]
  case polS =>
    cases r with
    | err e => simp [exec, execPollLink, State.commandStep, hr, hpc, State.busRead]
    | ok v =>
      cases ha : anComplete v <;> cases hl : linkUp v <;>
        simp [exec, execPollLink, State.commandStep, hr, hpc, State.busRead, State.afterOk, ha, hl]
  all_goals
    cases r <;>
      simp [exec, execC22Rd, execC22Wr, execC45Rd, execC45Wr, execPhyReset, execPhyInit, execPollLink,
        State.commandStep, hr, hpc, State.busRead, State.busWrite, State.afterOk]

/-- The step of the running command at its own turn is the end of a delay. -/
theorem exec_delayEnd {s : State} {i : Instr} (hr : s.env.turn = .seq) (hi : s.running = some i) :
    exec i s = .next s.delayEnd := by
  unfold State.running at hi
  unfold State.delayEnd
  cases hpc : s.pc <;> simp only [hpc, Option.some.injEq, reduceCtorEq] at hi <;> subst hi
  case c45ca | c45rn | c45co =>
    split <;> simp [exec, execC45Rd, execC45Wr, State.commandStep, hr]
  all_goals
    simp [exec, execC22Rd, execC22Wr, execC45Rd, execC45Wr, execPhyReset, execPhyInit, execPollLink,
      State.commandStep, hr, hpc]

theorem answered_of_idle {s : State} (r : BusAnswer) (h : s.running = none) : s.answered r = s := by
  unfold State.running at h
  unfold State.answered State.inFlight
  cases hpc : s.pc <;> simp_all

theorem delayEnd_of_idle {s : State} (h : s.running = none) : s.delayEnd = s := by
  unfold State.running at h
  unfold State.delayEnd
  cases hpc : s.pc <;> simp_all

theorem takeStep_bus {s : State} {r : BusAnswer} (h : s.env.turn = .bus r) : s.takeStep = .next (s.answered r) := by
  unfold State.takeStep
  simp only [h]
  cases hi : s.running with
  | none => simp [answered_of_idle r hi]
  | some i => simpa using exec_answered h hi

theorem takeStep_seq {s : State} (h : s.env.turn = .seq) : s.takeStep = .next s.delayEnd := by
  unfold State.takeStep
  simp only [h]
  cases hi : s.running with
  | none => simp [delayEnd_of_idle hi]
  | some i => simpa using exec_delayEnd h hi

/-- The sequencer's step on an answer, from the schedule. -/
theorem step_bus {s : State} {r : BusAnswer} {rest : List Turn} (h : s.env.sched = .bus r :: rest) :
    step s = .next ((s.turned (.bus r) rest).answered r) := by
  rw [step_of_sched h, takeStep_bus (r := r) (by simp)]

/-- The sequencer's step at the end of a delay, from the schedule. -/
theorem step_seq {s : State} {rest : List Turn} (h : s.env.sched = .seq :: rest) :
    step s = .next (s.turned .seq rest).delayEnd := by
  rw [step_of_sched h, takeStep_seq (by simp)]

theorem step_tick {s : State} {rest : List Turn} (h : s.env.sched = .tick :: rest) :
    step s = .next (s.turned .tick rest).tick := by
  rw [step_of_sched h]
  simp [State.takeStep]

theorem step_reset {s : State} {rest : List Turn} (h : s.env.sched = .reset :: rest) :
    step s = .next (s.turned .reset rest).hardReset := by
  rw [step_of_sched h]
  simp [State.takeStep]

/-! ### Issuing a command -/

/-- What acceptance or an immediate end leaves of an idle block (R160 to R165). -/
def State.issuedIdle (s : State) : Instr → State
  | .c22Rd phy reg => s.accept .c22r fun l => { l with op := 0x1, pa := phy, ra := reg }
  | .c22Wr phy reg =>
    s.accept .c22w fun l => { l with op := 0x2, pa := phy, ra := reg, wdata := argWdata s.regs.arg }
  | .c45Rd phy dev =>
    s.accept .c45ca fun l => { l with op := 0x3, pa := phy, dev := maskDev dev, regnum := argRegnum s.regs.arg }
  | .c45Wr phy dev =>
    s.accept .c45ca fun l =>
      { l with
        op := 0x4, pa := phy, dev := maskDev dev
        regnum := argRegnum s.regs.arg, wdata := argWdata s.regs.arg }
  | .phyReset =>
    match s.regs.phyaddr with
    | .known a => s.accept .rstW fun l => { l with op := 0x5, pa := a }
    | .unknown => s.accept .dscW fun l => { l with op := 0x5, cand := 0, att := 0 }
  | .phyInit =>
    match s.regs.phyaddr with
    | .known a => s.accept .iniCA fun l => { l with op := 0x6, pa := a }
    | .unknown => s.failAtOnce .addrUnknown
  | .pollLink =>
    match s.regs.phyaddr with
    | .known a => s.accept .polD fun l => { l with op := 0x7, pa := a, dcnt := s.regs.pollint }
    | .unknown => s.failAtOnce .addrUnknown

/-- What a CMD write of a command leaves. -/
def State.issued (s : State) (i : Instr) : State := if s.pc = .idle then s.issuedIdle i else s.reject

theorem issue_eq (s : State) (go : State → State) : s.issue go = if s.pc = .idle then go s else s.reject := by
  unfold State.issue State.busy State.fatal
  cases s.pc <;> simp [Label.busy]

theorem exec_issued {s : State} (i : Instr) (h : s.env.turn = .host) : exec i s = .next (s.issued i) := by
  cases ha : s.regs.phyaddr <;> cases i <;>
    simp [exec, execC22Rd, execC22Wr, execC45Rd, execC45Wr, execPhyReset, execPhyInit, execPollLink,
      State.commandStep, h, State.issueAddressed, issue_eq, State.issued, State.issuedIdle, ha]

/-- What a CMD write of any word leaves (R160). -/
def State.cmdEffect (s : State) (w : Word) : State :=
  match decodeCmd w with
  | .ok i => s.issued i
  | .error _ => if s.pc = .idle then s.failAtOnce .illegal else s.reject

theorem cmdWrite_eq {s : State} (w : Word) (h : s.env.turn = .host) : s.cmdWrite w = .next (s.cmdEffect w) := by
  unfold State.cmdWrite State.cmdEffect
  cases decodeCmd w with
  | ok i => exact exec_issued i h
  | error r => simp [State.issueIllegal, issue_eq]

/-- A CMD write does not look at the agents' data, and leaves it alone. -/
theorem cmdEffect_env (s : State) (e : Env) (w : Word) :
    ({ s with env := e } : State).cmdEffect w = { s.cmdEffect w with env := e } := by
  unfold State.cmdEffect State.issued
  cases decodeCmd w with
  | error r => simp only; split <;> rfl
  | ok i =>
    simp only
    split
    · cases i <;> simp only [State.issuedIdle] <;> first | rfl | (split <;> rfl)
    · rfl

theorem csrWrite_env (s : State) (e : Env) (off : Nat) (v : Word) :
    csrWrite { s with env := e } off v = { csrWrite s off v with env := e } := by
  unfold csrWrite State.unlessBusy
  repeat' split
  all_goals first | rfl | simp_all [State.busy]

/-- Everything of a CMD write that no command may change (R160). -/
theorem cmdEffect_frame (s : State) (w : Word) :
    (s.cmdEffect w).params = s.params ∧ (s.cmdEffect w).history = s.history ∧ (s.cmdEffect w).env = s.env := by
  unfold State.cmdEffect State.issued
  cases decodeCmd w with
  | error r => simp only; split <;> simp
  | ok i =>
    simp only
    split
    · cases ha : s.regs.phyaddr <;> cases i <;> simp [State.issuedIdle, ha]
    · simp

theorem csrWrite_frame (s : State) (off : Nat) (v : Word) :
    (csrWrite s off v).params = s.params ∧ (csrWrite s off v).pc = s.pc ∧ (csrWrite s off v).latch = s.latch ∧
      (csrWrite s off v).history = s.history ∧ (csrWrite s off v).env = s.env := by
  unfold csrWrite State.unlessBusy
  repeat' split
  all_goals simp

/-! ### The host's turn -/

/-- What the host's turn can do to the block: nothing, a register write other than CMD, or a CMD write. -/
def State.HostEffect (s t : State) : Prop :=
  t.params = s.params ∧ t.history = s.history ∧
  ((t.regs = s.regs ∧ t.pc = s.pc ∧ t.latch = s.latch) ∨
    (∃ off v, off ≠ offCmd ∧ t.regs = (csrWrite s off v).regs ∧ t.pc = s.pc ∧ t.latch = s.latch) ∨
    (∃ w, t.regs = (s.cmdEffect w).regs ∧ t.pc = (s.cmdEffect w).pc ∧ t.latch = (s.cmdEffect w).latch))

/-- What an access comes to, where it does not stop. -/
theorem hostAccess_cases (s : State) (a : HostAccess) :
    (∃ off, s.hostAccess a = .done (s.hostRead off)) ∨
    (∃ off v, off ≠ offCmd ∧ s.hostAccess a = .done (csrWrite s off v)) ∨
    (∃ w, s.hostAccess a = .command w s) ∨ (∃ r, s.hostAccess a = .fault r) ∨ (∃ r, s.hostAccess a = .refused r) := by
  cases a with
  | read addr size =>
    cases hr : reach s.params addr size with
    | fault r => exact .inr (.inr (.inr (.inl ⟨r, by simp [State.hostAccess, hr]⟩)))
    | refused r => exact .inr (.inr (.inr (.inr ⟨r, by simp [State.hostAccess, hr]⟩)))
    | slot off => exact .inl ⟨off, by simp [State.hostAccess, hr]⟩
  | write addr size v =>
    cases hr : reach s.params addr size with
    | fault r => exact .inr (.inr (.inr (.inl ⟨r, by simp [State.hostAccess, hr]⟩)))
    | refused r => exact .inr (.inr (.inr (.inr ⟨r, by simp [State.hostAccess, hr]⟩)))
    | slot off =>
      by_cases h : off = offCmd
      · exact .inr (.inr (.inl ⟨v, by simp [State.hostAccess, hr, h]⟩))
      · exact .inr (.inl ⟨off, v, h, by simp [State.hostAccess, hr, h]⟩)

/-- The host's turn leaves its own turn noted and does to the block what `HostEffect` says. -/
theorem takeStep_host {s t : State} (h : s.env.turn = .host) (hs : s.takeStep = .next t) :
    t.env.turn = .host ∧ s.HostEffect t := by
  have access : ∀ (e : Env) a, e.turn = .host →
      (match ({ s with env := e } : State).hostAccess a with
        | .done s' => Host.Outcome.next s'
        | .command w s' => s'.cmdWrite w
        | .fault r => .fault r
        | .refused r => .refused r : Result) = .next t →
      t.env.turn = .host ∧ s.HostEffect t := by
    intro e a he hs
    rcases hostAccess_cases ({ s with env := e } : State) a with
      ⟨off, h1⟩ | ⟨off, v, hoff, h1⟩ | ⟨w, h1⟩ | ⟨r, h1⟩ | ⟨r, h1⟩ <;> rw [h1] at hs <;> simp only at hs
    · injection hs with hs
      subst hs
      exact ⟨he, rfl, rfl, .inl ⟨rfl, rfl, rfl⟩⟩
    · injection hs with hs
      subst hs
      rw [csrWrite_env]
      have hf := csrWrite_frame s off v
      exact ⟨he, hf.1, hf.2.2.2.1, .inr (.inl ⟨off, v, hoff, rfl, hf.2.1, hf.2.2.1⟩)⟩
    · rw [cmdWrite_eq w (by simpa using he)] at hs
      injection hs with hs
      subst hs
      rw [cmdEffect_env]
      have hf := cmdEffect_frame s w
      exact ⟨he, hf.1, hf.2.1, .inr (.inr ⟨w, rfl, rfl, rfl⟩)⟩
    · cases hs
    · cases hs
  have op : ∀ (e : Env) o rest, e.turn = .host →
      (match ({ s with env := e } : State).hostOp o rest with
        | .done s' => Host.Outcome.next s'
        | .command w s' => s'.cmdWrite w
        | .fault r => .fault r
        | .refused r => .refused r : Result) = .next t →
      t.env.turn = .host ∧ s.HostEffect t := by
    intro e o rest he hs
    cases o with
    | access a => exact access { e with prog := rest } a he hs
    | waitIdle =>
      simp only [State.hostOp] at hs
      injection hs with hs
      subst hs
      exact ⟨he, rfl, rfl, .inl ⟨rfl, rfl, rfl⟩⟩
    | waitIrq =>
      simp only [State.hostOp] at hs
      injection hs with hs
      subst hs
      exact ⟨he, rfl, rfl, .inl ⟨rfl, rfl, rfl⟩⟩
  unfold State.takeStep at hs
  simp only [h] at hs
  cases hp : s.env.prog with
  | nil =>
    have e : s.hostTurn = ({ s with env := { s.env with opDraws := s.env.opDraws + 1 } } : State).hostOp
        (Config.freeHostOp s.env.opDraws) [] := by simp [State.hostTurn, hp]
    rw [e] at hs
    exact op { s.env with opDraws := s.env.opDraws + 1 } _ _ h hs
  | cons o rest =>
    have e : s.hostTurn = s.hostOp o rest := by simp [State.hostTurn, hp]
    rw [e] at hs
    exact op s.env o rest h hs

theorem hostDone_eq (s : State) (ps : List HostOp) (rest : List Turn) :
    s.hostDone ps rest = { s with env := { s.env with prog := ps, sched := rest, turn := .host } } := rfl

theorem reach_slot {p : Params} {off : Nat} (h1 : off < 0x40) (h2 : off % 4 = 0) :
    reach p (p.csrBase + off) 4 = .slot off := by
  unfold reach
  rw [if_neg (by omega), if_neg (by omega), Nat.add_sub_cancel_left, if_neg (by omega)]

/-- The host's turn on an access that is next in its program. -/
theorem step_access {s : State} {a : HostAccess} {ps : List HostOp} {rest : List Turn}
    (h1 : s.env.sched = .host :: rest) (h2 : s.env.prog = .access a :: ps) :
    step s = (match (s.hostDone ps rest).hostAccess a with
      | .done s' => .next s'
      | .command w s' => s'.cmdWrite w
      | .fault r => .fault r
      | .refused r => .refused r) := by
  rw [step_of_sched h1]
  simp only [State.takeStep, State.turned_env, State.hostTurn, h2, State.hostOp]
  rfl

/-- A write that is next in the host's program (R85, R160). -/
theorem step_hostWrites {s : State} {off : Nat} {v : Word} {ps : List HostOp} {rest : List Turn}
    (h : s.HostWrites off v ps rest) (h1 : off < 0x40) (h2 : off % 4 = 0) :
    step s = .next (if off = offCmd then (s.hostDone ps rest).cmdEffect v else csrWrite (s.hostDone ps rest) off v) := by
  rw [step_access h.1 h.2]
  simp only [State.hostAccess, State.hostDone_params, reach_slot h1 h2]
  by_cases hc : off = offCmd
  · simp only [hc, if_true]
    exact cmdWrite_eq v (by simp)
  · simp only [hc, if_false]

/-- A CMD write that is next in the host's program (R160). -/
theorem step_cmdWrite {s : State} {w : Word} {ps : List HostOp} {rest : List Turn} (h : s.HostWrites 0x0C w ps rest) :
    step s = .next ((s.hostDone ps rest).cmdEffect w) := by
  have e : step s = _ := step_hostWrites h (by decide) (by decide)
  rw [e, if_pos (by rfl)]

/-- A write to another slot that is next in the host's program (R85). -/
theorem step_csrWrite {s : State} {off : Nat} {v : Word} {ps : List HostOp} {rest : List Turn}
    (h : s.HostWrites off v ps rest) (h1 : off < 0x40) (h2 : off % 4 = 0) (h3 : off ≠ 0x0C) :
    step s = .next (csrWrite (s.hostDone ps rest) off v) := by
  have h3 : off ≠ offCmd := h3
  rw [step_hostWrites h h1 h2, if_neg h3]

/-- A read that is next in the host's program (R83). -/
theorem step_hostReads {s : State} {off : Nat} {ps : List HostOp} {rest : List Turn}
    (h : s.HostReads off ps rest) (h1 : off < 0x40) (h2 : off % 4 = 0) :
    step s = .next ((s.hostDone ps rest).hostRead off) := by
  rw [step_access h.1 h.2]
  simp only [State.hostAccess, State.hostDone_params, reach_slot h1 h2]

/-! ### Every step -/

theorem answered_env (s : State) (r : BusAnswer) : (s.answered r).env = s.env := by
  unfold State.answered
  cases s.inFlight with
  | none => rfl
  | some q =>
    cases r with
    | err e => simp
    | ok v =>
      simp only [State.afterOk]
      split <;> first | rfl | (split <;> rfl)

theorem delayEnd_env (s : State) : s.delayEnd.env = s.env := by
  unfold State.delayEnd State.discoveryNext
  repeat' split
  all_goals simp

theorem tick_env (s : State) : s.tick.env = s.env := by
  unfold State.tick
  split <;> rfl

/-- INVERSION OF STEP: whose turn it was, and what that agent's step did. -/
theorem step_cases {s t : State} (h : step s = .next t) :
    (t.env.turn = .host ∧ s.HostEffect t) ∨
    (∃ r, t.env.turn = .bus r ∧ t = s.takeTurn.answered r) ∨
    (t.env.turn = .seq ∧ t = s.takeTurn.delayEnd) ∨
    (t.env.turn = .tick ∧ t = s.takeTurn.tick) ∨
    (t.env.turn = .reset ∧ t = s.takeTurn.hardReset) := by
  unfold step at h
  cases ht : s.takeTurn.env.turn with
  | host =>
    have := takeStep_host ht h
    refine .inl ⟨this.1, ?_⟩
    have h2 := this.2
    have hc : ∀ off v, (csrWrite s.takeTurn off v).regs = (csrWrite s off v).regs := by
      intro off v
      have e : s.takeTurn = { s with env := s.takeTurn.env } := by
        unfold State.takeTurn
        cases s.env.sched <;> rfl
      rw [e, csrWrite_env]
    have hm : ∀ w, (s.takeTurn.cmdEffect w).regs = (s.cmdEffect w).regs ∧
        (s.takeTurn.cmdEffect w).pc = (s.cmdEffect w).pc ∧ (s.takeTurn.cmdEffect w).latch = (s.cmdEffect w).latch := by
      intro w
      have e : s.takeTurn = { s with env := s.takeTurn.env } := by
        unfold State.takeTurn
        cases s.env.sched <;> rfl
      rw [e, cmdEffect_env]
      exact ⟨rfl, rfl, rfl⟩
    simpa [State.HostEffect, hc, hm] using h2
  | bus r =>
    rw [takeStep_bus ht] at h
    injection h with h
    exact .inr (.inl ⟨r, by rw [← h, answered_env]; exact ht, h.symm⟩)
  | seq =>
    rw [takeStep_seq ht] at h
    injection h with h
    exact .inr (.inr (.inl ⟨by rw [← h, delayEnd_env]; exact ht, h.symm⟩))
  | tick =>
    simp only [State.takeStep, ht] at h
    injection h with h
    exact .inr (.inr (.inr (.inl ⟨by rw [← h, tick_env]; exact ht, h.symm⟩)))
  | reset =>
    simp only [State.takeStep, ht] at h
    injection h with h
    exact .inr (.inr (.inr (.inr ⟨by rw [← h]; exact ht, h.symm⟩)))

/-- Every step takes exactly the first turn of its schedule. -/
theorem step_takes_its_turn {s t : State} {trn : Turn} {rest : List Turn} (h : s.env.sched = trn :: rest)
    (hs : step s = .next t) : t.env.sched = rest ∧ t.env.turn = trn := by
  have access : ∀ (u : State) a, u.env.turn = .host → u.env.sched = rest →
      (match u.hostAccess a with
        | .done s' => Host.Outcome.next s'
        | .command w s' => s'.cmdWrite w
        | .fault r => .fault r
        | .refused r => .refused r : Result) = .next t → t.env.sched = rest ∧ t.env.turn = .host := by
    intro u a hu hr hs
    rcases hostAccess_cases u a with ⟨off, h1⟩ | ⟨off, v, _, h1⟩ | ⟨w, h1⟩ | ⟨r, h1⟩ | ⟨r, h1⟩ <;> rw [h1] at hs <;>
      simp only at hs
    · injection hs with hs; subst hs; exact ⟨hr, hu⟩
    · injection hs with hs; subst hs; rw [(csrWrite_frame u off v).2.2.2.2]; exact ⟨hr, hu⟩
    · rw [cmdWrite_eq _ hu] at hs; injection hs with hs; subst hs; rw [(cmdEffect_frame u w).2.2]; exact ⟨hr, hu⟩
    · cases hs
    · cases hs
  have op : ∀ (u : State) o ps, u.env.turn = .host → u.env.sched = rest →
      (match u.hostOp o ps with
        | .done s' => Host.Outcome.next s'
        | .command w s' => s'.cmdWrite w
        | .fault r => .fault r
        | .refused r => .refused r : Result) = .next t → t.env.sched = rest ∧ t.env.turn = .host := by
    intro u o ps hu hr hs
    cases o with
    | access a => exact access { u with env := { u.env with prog := ps } } a hu hr hs
    | waitIdle =>
      simp only [State.hostOp] at hs
      injection hs with hs
      subst hs
      exact ⟨hr, hu⟩
    | waitIrq =>
      simp only [State.hostOp] at hs
      injection hs with hs
      subst hs
      exact ⟨hr, hu⟩
  cases trn with
  | host =>
    rw [step_of_sched h] at hs
    simp only [State.takeStep, State.turned_env, State.hostTurn] at hs
    cases hp : s.env.prog with
    | nil =>
      simp only [hp] at hs
      exact op _ _ _ (by simp) (by simp) hs
    | cons o ps =>
      simp only [hp] at hs
      exact op _ _ _ (by simp) (by simp) hs
  | bus r =>
    rw [step_bus h] at hs
    injection hs with hs
    rw [← hs, answered_env]
    exact ⟨rfl, rfl⟩
  | seq =>
    rw [step_seq h] at hs
    injection hs with hs
    rw [← hs, delayEnd_env]
    exact ⟨rfl, rfl⟩
  | tick =>
    rw [step_tick h] at hs
    injection hs with hs
    rw [← hs, tick_env]
    exact ⟨rfl, rfl⟩
  | reset =>
    rw [step_reset h] at hs
    injection hs with hs
    rw [← hs]
    exact ⟨rfl, rfl⟩

/-- Only the host's turn can stop a run. -/
theorem step_goesOn {s : State} {trn : Turn} {rest : List Turn} (h : s.env.sched = trn :: rest) (ht : trn ≠ .host) :
    ∃ t, step s = .next t := by
  cases trn with
  | host => exact absurd rfl ht
  | bus r => exact ⟨_, step_bus h⟩
  | seq => exact ⟨_, step_seq h⟩
  | tick => exact ⟨_, step_tick h⟩
  | reset => exact ⟨_, step_reset h⟩

/-! ### Runs -/

theorem stepN_succ {s u : State} (n : Nat) (h : step s = .next u) : stepN (n + 1) s = stepN n u := by
  simp [stepN, h]

theorem stepN_add (s : State) (m n : Nat) :
    stepN (m + n) s = match stepN m s with
      | .next t => stepN n t
      | .fault r => .fault r
      | .refused r => .refused r := by
  induction m generalizing s with
  | zero => simp [stepN]
  | succ m ih =>
    rw [Nat.add_right_comm]
    simp only [stepN]
    cases step s <;> simp [ih]

/-- The last of the first `n + 1` turns is turn `n`. -/
theorem firstTurns_succ (n : Nat) (turns : Nat → Turn) : firstTurns (n + 1) turns = firstTurns n turns ++ [turns n] := by
  induction n generalizing turns with
  | zero => rfl
  | succ n ih => rw [firstTurns, ih, firstTurns, List.cons_append]

/-- A run along an order of turns that has no host turn in it does not stop. -/
theorem goesOn_without_host (turns : Nat → Turn) (h : ∀ k, turns k ≠ .host) (s : State) : s.GoesOn turns := by
  have run : ∀ n (turns : Nat → Turn) (s : State), (∀ k, turns k ≠ .host) → s.env.sched = firstTurns n turns →
      ∃ u, stepN n s = .next u := by
    intro n
    induction n with
    | zero => exact fun _ s _ _ => ⟨s, rfl⟩
    | succ n ih =>
      intro turns s h hs
      obtain ⟨t, ht⟩ := step_goesOn hs (h 0)
      rw [stepN_succ n ht]
      exact ih _ t (fun k => h (k + 1)) (step_takes_its_turn hs ht).1
  exact fun n => run n turns _ h rfl

end Sys2Proof.Machine
end

