-- ==== Sys2Proof/Tests/Slice0.lean ====
section
/-! SUPPORT. The model's own tests. Expected values come from spec/95_test_vectors.md and the tables of spec/30_encoding.md; the
vector is named beside each. After them, one witness per statement that has hypotheses. -/

namespace Sys2Proof.Tests

open Machine

/-! ### Well-formedness: one ill-formed term per check, refused -/

theorem test_every_command_wellformed : Instr.wf (.c45Wr 31 0xFF) = true := by decide

theorem test_phy_range : AsmLine.wf (.c22Rd 32 .bmsr) = false ∧ AsmLine.wf (.c22Rd 31 .bmsr) = true := by decide

theorem test_imm16_range :
    AsmLine.wf (.c22Wr 0 .bmcr 0x10000) = false ∧ AsmLine.wf (.c45Rd 0 .pcs 0x10000) = false ∧
      AsmLine.wf (.c45Wr 0 .pcs 0 0x10000) = false ∧ AsmLine.wf (.c45Wr 0 .pcs 0xFFFF 0xFFFF) = true := by decide

/-- E3 to E5. -/
theorem test_vend_range :
    AsmLine.wf (.c22Rd 0 (.vend 15)) = false ∧ AsmLine.wf (.c22Rd 0 (.vend 32)) = false ∧
      AsmLine.wf (.c22Rd 0 (.vend 16)) = true ∧ AsmLine.wf (.c22Rd 0 (.vend 31)) = true := by decide

theorem test_reg_range : AsmLine.wf (.c22Rd 0 (.reg 32)) = false ∧ AsmLine.wf (.c22Rd 0 (.reg 15)) = true := by decide

theorem test_dev_range :
    AsmLine.wf (.c45Rd 0 (.dev 256) 0) = false ∧ AsmLine.wf (.c45Rd 0 (.dev 255) 0) = true := by decide

theorem test_setaddr_range :
    AsmLine.wf (.setaddr 0x20) = false ∧ AsmLine.wf (.setaddr 0x1F) = true ∧ AsmLine.wf (.setaddr 0xFF) = true := by
  decide

theorem test_setpoll_range :
    AsmLine.wf (.setpoll 0x100000000) = false ∧ AsmLine.wf (.setpoll 0xFFFFFFFF) = true := by decide

/-! ### Decoding, by words written out from R121 and R122 -/

/-- E1, E3, E5, E11: OP 1, PHYAD in 12:8, REGAD in 20:16. -/
theorem test_decode_c22Rd :
    decodeTableWord 32 0x00010101 = some (.c22Rd 1 1) ∧ decodeTableWord 32 0x001F1F01 = some (.c22Rd 31 31) ∧
      decodeTableWord 32 0x000F0001 = some (.c22Rd 0 15) ∧ decodeTableWord 32 0x00FFFFF1 = some (.c22Rd 31 31) := by
  decide

/-- E2, P5. -/
theorem test_decode_c22Wr :
    decodeTableWord 32 0x00000702 = some (.c22Wr 7 0) ∧ decodeTableWord 32 0xFF000702 = some (.c22Wr 7 0) := by decide

/-- E6, E8: OP 3, DEVAD in 31:24. -/
theorem test_decode_c45Rd :
    decodeTableWord 32 0x01000103 = some (.c45Rd 1 1) ∧ decodeTableWord 32 0xE7000203 = some (.c45Rd 2 0xE7) := by decide

/-- E7, E9. -/
theorem test_decode_c45Wr :
    decodeTableWord 32 0x03000004 = some (.c45Wr 0 3) ∧ decodeTableWord 32 0x1F000904 = some (.c45Wr 9 31) := by decide

/-- E10, E12. -/
theorem test_decode_phy_commands :
    decodeTableWord 32 0x00000005 = some .phyReset ∧ decodeTableWord 32 0xFFFFFFF5 = some .phyReset ∧
      decodeTableWord 32 0x00000006 = some .phyInit ∧ decodeTableWord 32 0x00000007 = some .pollLink := by decide

/-- E13. -/
theorem test_decode_illegal :
    decodeCmd 0x00000000 = .error (.illegalOpcode 0x0) ∧ decodeCmd 0x00000008 = .error (.illegalOpcode 0x8) ∧
      decodeCmd 0x0000000F = .error (.illegalOpcode 0xF) ∧ decodeCmd 0xFFFFFFF0 = .error (.illegalOpcode 0x0) := by
  refine ⟨?_, ?_, ?_, ?_⟩ <;> rfl

theorem test_decode_truncated : decodeBytes [0x01, 0x01, 0x01] = .error .truncated := by rfl

/-- E1 to E10, encoded. -/
theorem test_encode :
    encode (.c22Rd 1 1) = 0x00010101 ∧ encode (.c22Wr 7 0) = 0x00000702 ∧ encode (.c45Rd 2 0xE7) = 0xE7000203 ∧
      encode (.c45Wr 9 31) = 0x1F000904 ∧ encode .pollLink = 0x00000007 := by decide

/-- R82: bits 7:0 stand at the lowest address. -/
theorem test_byte_order : encodeBytes (.c45Rd 2 0xE7) = [0x03, 0x02, 0x00, 0xE7] := by decide

/-- E14, E15. -/
theorem test_ctlword :
    ctlAddr 0x03 = 0x0003 ∧ ctlRead 0x03 = 0xC003 ∧ ctlWrite 0x03 = 0x4003 ∧ ctlRead 0xE7 = 0xC007 ∧
      ctlWrite 0x1F = 0x401F ∧ ctlAddr 0x20 = 0x0000 := by decide

/-- E16. -/
theorem test_link_words :
    LinkStatus.word .down = 0x80 ∧ LinkStatus.word (.up .s10 .half) = 0x81 ∧ LinkStatus.word (.up .s10 .full) = 0x83 ∧
      LinkStatus.word (.up .s100 .half) = 0x91 ∧ LinkStatus.word (.up .s100 .full) = 0x93 := by decide

/-! ### The assembler -/

/-- E9. -/
theorem test_assemble_c45Wr :
    (AsmLine.c45Wr 9 .vend2 0xFFFF 0xABCD).assemble 0 =
      some [.access (.write 0x08 4 0xABCDFFFF), .access (.write 0x0C 4 0x1F000904)] := by decide

/-- E4: an operand out of range is no encoding. -/
theorem test_assemble_out_of_range : (AsmLine.c22Rd 0 (.vend 15)).assemble 0 = none := by decide

/-- E8, with a comment. -/
theorem test_parse_line :
    parseLine "c45.rd 2, dev(0xE7), 0x1234 ; masked to 7".toList = some (.c45Rd 2 (.dev 0xE7) 0x1234) ∧
      parseLine "  c22.wr 7, bmcr, 0x8000".toList = some (.c22Wr 7 .bmcr 0x8000) ∧
      parseLine "c22.xx 1, bmsr".toList = none := by decide

/-! ### Steps -/

/-- A field of the next state. -/
def after {α : Type} (r : Result) (f : State → α) : Option α :=
  match r with
  | .next s => some (f s)
  | _ => none

/-- Latches with a value of its own in each field. -/
def latches (op : BitVec 4) : Latches where
  op := op
  pa := 1
  ra := 9
  dev := 7
  regnum := 0x0010
  wdata := 0xBEEF
  cand := 5
  att := 2
  dcnt := 0
  anar := 0x0180

/-- A block at `pc` whose next turns are `sched`, the first of them already being taken. -/
def blockAt (pc : Label) (op : BitVec 4) (sched : List Turn) : State :=
  { State.reset with
    pc := pc
    latch := latches op
    env := { Env.reset with sched := sched, turn := sched.headD .host } }

/-- The block with a host write next. -/
def writes (s : State) (off : Nat) (v : Word) : State :=
  { s with env := { s.env with prog := [.access (.write off 4 v)], sched := [.host], turn := .host } }

/-- The block with a host read next. -/
def reads (s : State) (off : Nat) : State :=
  { s with env := { s.env with prog := [.access (.read off 4)], sched := [.host], turn := .host } }

/-- The block with PHYADDR = `a`. -/
def withPhy (s : State) (a : Addr5) : State := { s with regs := { s.regs with phyaddr := .known a } }

/-- The block just after an error of code `e` on the bus. -/
def failed (e : Word) : State :=
  { State.reset with regs := { State.reset.regs with done := true, err := true, errcode := .bus, buserr := e } }

/-- The answer `Ok(v)`. -/
def ok (v : Half) : Turn := .bus (.ok v)

/-- The answer `Err(e)`. -/
def err (e : Word) : Turn := .bus (.err e)

/-- P3. -/
theorem test_c22Rd_answer :
    after (step (blockAt .c22r 0x1 [ok 0xFFFF])) (fun s => (csrRead s 0x10, csrRead s 0x04)) = some (0x0000FFFF, 0x2) := by
  decide

/-- P2. -/
theorem test_c22Rd_error :
    after (step (blockAt .c22r 0x1 [err 0xDEAD])) (fun s => (csrRead s 0x04, csrRead s 0x20)) = some (0x106, 0xDEAD) := by
  decide

/-- P6: WDATA is ARG[31:16]. -/
theorem test_c22Wr_acceptance :
    after (exec (.c22Wr 3 4) (writes { State.reset with regs := { State.reset.regs with arg := 0xBEEF5555 } } 0x0C 0))
      (fun s => (s.pc, s.latch.wdata)) = some (.c22w, 0xBEEF) := by decide

/-- P7. -/
theorem test_c22Wr_error :
    after (step (blockAt .c22w 0x2 [err 7])) (fun s => (s.history, csrRead s 0x20)) =
      some ([.wrErr 1 9 0xBEEF 7], 7) := by decide

/-- X1: the control word of the third step, with the identifier masked. -/
theorem test_c45Rd_control :
    after (step (blockAt .c45co 0x3 [ok 0])) (fun s => (s.history, s.pc)) = some ([.wrOk 1 13 0xC007], .c45dr) := by decide

/-- X7. -/
theorem test_c45Rd_error :
    after (step (blockAt .c45dr 0x3 [err 4])) (fun s => (csrRead s 0x20, csrRead s 0x10)) = some (4, 0) := by decide

/-- X3 and program 3: the control word of the third step of a write. -/
theorem test_c45Wr_control :
    after (step (blockAt .c45co 0x4 [ok 0])) (fun s => (s.history, s.pc)) = some ([.wrOk 1 13 0x4007], .c45dw) := by decide

/-- T3: the latch holds DEVAD & 0x1F. -/
theorem test_c45Wr_mask :
    after (step (writes State.reset 0x0C 0xE7000204)) (fun s => (s.latch.dev, s.pc)) = some (7, .c45ca) := by decide

/-- RS2: only bit 15 is tested. -/
theorem test_phyReset_known :
    after (step (blockAt .rstP 0x5 [ok 0x7FFF])) (fun s => (s.history, csrRead s 0x04)) =
      some ([.rdOk 1 0 0x7FFF], 0x2) := by decide

/-- RS9: discovery finds its candidate, here address 5. -/
theorem test_phyReset_found :
    after (step (blockAt .dscP 0x5 [ok 0x0000])) (fun s => (csrRead s 0x14, csrRead s 0x04)) = some (5, 0x2) := by decide

/-- IN1: the BMCR word. -/
theorem test_phyInit_bmcr :
    after (step (blockAt .iniBM 0x6 [ok 0])) (fun s => (s.history, csrRead s 0x04)) = some ([.wrOk 1 0 0x3200], 0x2) := by
  decide

/-- H6, IN9. -/
theorem test_phyInit_unknown :
    after (step (State.reset.withFetchWord 32 0x6)) (fun s => (csrRead s 0x04, s.pc)) = some (0x306, .idle) := by decide

/-- PL2: auto-negotiation is checked before the link. -/
theorem test_pollLink_down :
    after (step (blockAt .polS 0x7 [ok 0x0004])) (fun s => (csrRead s 0x1C, s.pc)) = some (0x80, .idle) := by decide

/-- T5, PL4: the highest bit wins. -/
theorem test_pollLink_priority :
    after (step (blockAt .polP 0x7 [ok 0x0180])) (fun s => (csrRead s 0x1C, s.history)) =
      some (0x93, [.rdOk 1 5 0x0180]) := by decide

/-- T6, PL7 to PL11: the rest of the priority table. -/
theorem test_resolve :
    (resolve 0x00A1).word = 0x91 ∧ (resolve 0x0041).word = 0x83 ∧ (resolve 0x0021).word = 0x81 ∧
      (resolve 0x0000).word = 0x81 ∧ (resolve 0xFE3F).word = 0x81 := by decide

/-! ### The host port -/

/-- H1. -/
theorem test_reset_values :
    [0x00, 0x04, 0x08, 0x0C, 0x10, 0x14, 0x18, 0x1C, 0x20, 0x24].map (csrRead State.reset) =
      [0, 0, 0, 0, 0, 0xFF, 0x1F4, 0, 0, 0] := by decide

/-- H4, H5. -/
theorem test_illegal_command :
    after (step (writes State.reset 0x0C 0)) (fun s => csrRead s 0x04) = some 0x206 ∧
      after (step (writes State.reset 0x0C 0xF)) (fun s => csrRead s 0x04) = some 0x206 := by decide

/-- The codes of R260 as STATUS shows them: BUS, ADDR_UNKNOWN, and NO_DEVICE with FATAL (RS10). -/
theorem test_error_codes :
    csrRead (failed 7) 0x04 = 0x106 ∧ csrRead (State.reset.failAtOnce .illegal) 0x04 = 0x206 ∧
      csrRead (State.reset.failAtOnce .addrUnknown) 0x04 = 0x306 ∧ csrRead State.reset.noDevice 0x04 = 0x416 := by decide

/-- H9, H10, H12. -/
theorem test_refused_while_busy :
    after (step (writes (blockAt .c22r 0x1 []) 0x0C 0x1)) (fun s => (csrRead s 0x04, s.pc)) = some (0x009, .c22r) ∧
      after (step (writes (blockAt .c22r 0x1 []) 0x0C 0xF)) (fun s => csrRead s 0x04) = some 0x009 ∧
      after (step (writes (blockAt .c22r 0x1 []) 0x08 0x12345678)) (fun s => (csrRead s 0x08, csrRead s 0x04)) =
        some (0, 0x009) := by decide

/-- H15, H16. -/
theorem test_status_write :
    after (step (writes (failed 7) 0x04 0x0000FFF5)) (fun s => csrRead s 0x04) = some 0x106 ∧
      after (step (writes (failed 7) 0x04 0x2)) (fun s => csrRead s 0x04) = some 0x104 := by decide

/-- H18 to H20. -/
theorem test_phyaddr_write :
    after (step (writes (withPhy State.reset 3) 0x14 0x20)) (fun s => csrRead s 0x14) = some 3 ∧
      after (step (writes (withPhy State.reset 3) 0x14 0xFFFFFF05)) (fun s => csrRead s 0x14) = some 5 ∧
      after (step (writes (withPhy State.reset 3) 0x14 0x000001FF)) (fun s => csrRead s 0x14) = some 0xFF := by decide

/-- H3: a byte access is refused by name. -/
theorem test_narrow_access :
    step { State.reset with env := { Env.reset with prog := [.access (.write 0x0C 1 0x05)], sched := [.host] } } =
      .refused .accessWidth := by rfl

theorem test_outside_window :
    step { State.reset with env := { Env.reset with prog := [.access (.read 0x40 4)], sched := [.host] } } =
      .fault .outsideWindow := by rfl

/-- Q3, Q5, Q6. -/
theorem test_interrupt_and_tick :
    after (step (writes { State.reset with regs := { State.reset.regs with done := true } } 0x00 1)) irq = some true ∧
      after (step (blockAt .c22r 0x1 [.tick])) (fun s => s.latch) = some (latches 0x1) := by decide

/-! ### Witnesses: for each statement with hypotheses, a state and operands that meet them -/

/-- The block with a CMD write of `w` next. -/
def issues (s : State) (w : Word) : State := writes s 0x0C w

theorem witness_HardwareResetValues : (blockAt .c45rn 0x3 [.reset]).env.sched = [.reset] := by rfl

theorem inv_running : (blockAt .c22r 0x1 [ok 0x7809]).Inv where
  outcome := ⟨by decide, by decide, by decide, by decide⟩
  sequencer := by rfl
  link := by intro st h; cases h

theorem witness_EveryStepKeepsTheInvariant :
    (blockAt .c22r 0x1 [ok 0x7809]).Inv ∧ ∃ t, step (blockAt .c22r 0x1 [ok 0x7809]) = .next t :=
  ⟨inv_running, _, rfl⟩

theorem witness_DecodeOfEncode : Instr.wf (.c45Wr 31 0xFF) = true := by decide

/-- Words that differ in ignored fields only, for each clause. -/
theorem witness_OpcodeSelectsTheCommand :
    decodeCmd 0x00010101 = .ok (.c22Rd 1 1) ∧
      (0x00000005 : Word).extractLsb' 0 4 = (0xFFFFFFF5 : Word).extractLsb' 0 4 ∧
      (0x00000007 : Word).extractLsb' 0 4 = (0xFFFFFFF7 : Word).extractLsb' 0 4 ∧
      (0x001F1F01 : Word).extractLsb' 16 5 = (0xFFFFFFF1 : Word).extractLsb' 16 5 ∧
      (0xFF001F04 : Word).extractLsb' 24 8 = (0xFFFFFFF4 : Word).extractLsb' 24 8 := by
  refine ⟨rfl, ?_⟩
  decide

theorem witness_IllegalOpcodesAreRejected :
    ((0x7 : Word).extractLsb' 0 4).toNat = 7 ∧ ((0x8 : Word).extractLsb' 0 4).toNat = 8 ∧
      decodeCmd 0x8 = .error (.illegalOpcode 0x8) := by
  refine ⟨by decide, by decide, rfl⟩

/-- Each operand at the ends of its range, and just outside it. -/
theorem witness_AssembledCommandsDecode :
    ((31 : Nat) ≤ 31 ∧ (0xFFFF : Nat) ≤ 0xFFFF ∧ RegOperand.wf .mmddata = true ∧ (RegOperand.vend 16).wf = true ∧
      (RegOperand.vend 31).wf = true ∧ (RegOperand.reg 0).wf = true ∧ (RegOperand.reg 31).wf = true ∧
      DevOperand.wf .vend2 = true ∧ (DevOperand.dev 0).wf = true ∧ (DevOperand.dev 255).wf = true) ∧
    ((31 : Nat) ≤ 31 ∨ (31 : Nat) = 0xFF) ∧ ((0xFF : Nat) ≤ 31 ∨ (0xFF : Nat) = 0xFF) ∧ 0xFFFFFFFF < 2 ^ 32 ∧
    (31 : Nat) < 32 ∧ (0xFFFF : Nat) < 0x10000 ∧ (RegOperand.vend 15).wf = false ∧ (RegOperand.reg 32).wf = false ∧
      (DevOperand.dev 256).wf = false := by decide

theorem witness_StepRunsTheCommandWritten :
    (issues State.reset 0x00010101).HostWrites 0x0C 0x00010101 [] [] ∧ decodeCmd 0x00010101 = .ok (.c22Rd 1 1) ∧
      decodeTableWord 32 0x00010101 = some (.c22Rd 1 1) :=
  ⟨⟨rfl, rfl⟩, rfl, by decide⟩

/-- An answer, a delay's end, and a turn with no command. -/
theorem witness_StepRunsTheRunningCommand :
    (blockAt .c22r 0x1 [ok 1]).running = some (.c22Rd 1 9) ∧ (ok 1).sequencer = true ∧
      (blockAt .polD 0x7 [.seq]).running = some .pollLink ∧ Turn.sequencer .seq = true ∧
      (blockAt .idle 0x0 [.seq]).running = none ∧ (blockAt .fatal 0x5 [ok 1]).running = none := by decide

/-- Each row of the acceptance table. -/
theorem witness_AcceptanceLatchesAndStarts :
    (∀ w ∈ [0x00010101, 0x00000702, 0x01000103, 0x03000004, 0x5, 0x6, 0x7],
      (issues (withPhy State.reset 31) w).HostWrites 0x0C w [] []) ∧
      (withPhy State.reset 31).pc = .idle ∧ (withPhy State.reset 31).regs.phyaddr = .known 31 ∧
      (issues State.reset 0x5).HostWrites 0x0C 0x5 [] [] ∧ State.reset.regs.phyaddr = .unknown := by
  refine ⟨?_, rfl, rfl, ⟨rfl, rfl⟩, rfl⟩
  intro w _
  exact ⟨rfl, rfl⟩

/-- Busy, fatal, and an illegal opcode at each end of each range. -/
theorem witness_CmdWriteChecksInOrder :
    (issues (blockAt .c22r 0x1 []) 0xF).HostWrites 0x0C 0xF [] [] ∧ (blockAt .c22r 0x1 []).pc ≠ .idle ∧
      (issues (blockAt .fatal 0x5 []) 0x6).HostWrites 0x0C 0x6 [] [] ∧ (blockAt .fatal 0x5 []).pc ≠ .idle ∧
      (issues State.reset 0x0).HostWrites 0x0C 0x0 [] [] ∧ (0x0 : Word).extractLsb' 0 4 = 0 ∧
      8 ≤ ((0x8 : Word).extractLsb' 0 4).toNat ∧ 8 ≤ ((0xF : Word).extractLsb' 0 4).toNat :=
  ⟨⟨rfl, rfl⟩, by decide, ⟨rfl, rfl⟩, by decide, ⟨rfl, rfl⟩, by decide, by decide, by decide⟩

theorem witness_UnknownAddressEndsAtOnce :
    State.reset.env.turn = .host ∧ State.reset.pc = .idle ∧ State.reset.regs.phyaddr = .unknown := by decide

theorem witness_IssueFrame :
    State.reset.env.turn = .host ∧ (∃ t, exec (.c22Rd 1 1) State.reset = .next t) ∧
      (∃ t, exec .phyInit State.reset = .next t) ∧
      (writes (blockAt .c22r 0x1 []) 0x0C 0x1).env.turn = .host ∧ (blockAt .c22r 0x1 []).pc ≠ .idle :=
  ⟨rfl, ⟨_, rfl⟩, ⟨_, rfl⟩, rfl, by decide⟩

theorem witness_BusErrorEndsAnyCommand :
    (blockAt .c45rn 0x4 [err 0xBEEF]).inFlight = some (.wr 1 14 0x0010) ∧
      (blockAt .c45rn 0x4 [err 0xBEEF]).env.sched = [.bus (.err 0xBEEF)] := by decide

/-- An answer with a primitive in flight, and one with none; turns of the sequencer, the tick source and the host with a
primitive in flight; and a backend that answers at every turn. -/
theorem witness_AnswersAppendThePrimitiveInFlight :
    (blockAt .polS 0x7 [ok 1]).inFlight = some (.rd 1 1) ∧ (blockAt .polD 0x7 [ok 1]).inFlight = none ∧
      (blockAt .idle 0x7 [ok 1]).env.sched = [.bus (.ok 1)] ∧
      (blockAt .c22r 0x1 [.seq]).inFlight = some (.rd 1 9) ∧ (blockAt .c22r 0x1 [.seq]).env.sched = [.seq] ∧
      after (step (blockAt .rstP 0x5 [.tick])) (fun t => t.env.turn) = some .tick ∧
      after (step (issues (blockAt .rstP 0x5 []) 1)) (fun t => t.env.turn) = some .host ∧
      BackendLive (fun _ => ok 1) ∧ (blockAt .c22r 0x1 []).GoesOn (fun _ => ok 1) :=
  ⟨by decide, by decide, rfl, by decide, rfl, by decide, by decide, fun k => ⟨k, .ok 1, Nat.le_refl k, rfl⟩,
    goesOn_without_host _ (fun _ => by decide) _⟩

theorem witness_HistoryGrowsByAnswersOnly :
    (∃ t, step (blockAt .c22r 0x1 [ok 1]) = .next t) ∧ ∃ t, step (blockAt .c22r 0x1 [.tick]) = .next t :=
  ⟨⟨_, rfl⟩, ⟨_, rfl⟩⟩

/-- A command that ends with success, and one that ends with an error. -/
theorem witness_CommandEndSetsDone :
    (blockAt .c22r 0x1 [ok 0x7809]).Inv ∧ (blockAt .c22r 0x1 [ok 0x7809]).busy = true ∧
      after (step (blockAt .c22r 0x1 [ok 0x7809])) (fun t => (t.busy, t.regs.err)) = some (false, false) ∧
      after (step (blockAt .c22r 0x1 [err 1])) (fun t => (t.busy, t.regs.err)) = some (false, true) :=
  ⟨inv_running, by decide, by decide, by decide⟩

theorem witness_C22ReadCompletes :
    (blockAt .c22r 0x1 [ok 1]).pc = .c22r ∧ (blockAt .c22r 0x1 [ok 1]).env.turn = .bus (.ok 1) ∧
      (blockAt .c22r 0x1 [err 1]).env.turn = .bus (.err 1) := by decide

theorem witness_C22WriteCompletes :
    (blockAt .c22w 0x2 [ok 1]).pc = .c22w ∧ (blockAt .c22w 0x2 [ok 1]).env.turn = .bus (.ok 1) ∧
      (blockAt .c22w 0x2 [err 1]).env.turn = .bus (.err 1) := by decide

theorem witness_DeviceIsMasked :
    (0xE7 : Byte).extractLsb' 0 5 = (0x07 : Byte).extractLsb' 0 5 ∧ State.reset.env.turn = .host ∧
      State.reset.pc = .idle := by decide

/-- Each of the three labels, with a read and a write at the third, and both answers. -/
theorem witness_CompositeStepsOneToThree :
    (blockAt .c45ca 0x3 [ok 0]).env.sched = [.bus (.ok 0)] ∧ (blockAt .c45ca 0x3 [ok 0]).pc = .c45ca ∧
      (blockAt .c45ca 0x3 [err 1]).env.sched = [.bus (.err 1)] ∧
      (blockAt .c45rn 0x4 [ok 0]).pc = .c45rn ∧ (blockAt .c45co 0x3 [ok 0]).latch.op = 0x3 ∧
      (blockAt .c45co 0x4 [ok 0]).latch.op ≠ 0x3 := by decide

theorem witness_C45ReadCompletes :
    (blockAt .c45dr 0x3 [ok 1]).pc = .c45dr ∧ (blockAt .c45dr 0x3 [ok 1]).env.turn = .bus (.ok 1) ∧
      (blockAt .c45dr 0x3 [err 1]).env.turn = .bus (.err 1) := by decide

theorem witness_C45WriteCompletes :
    (blockAt .c45dw 0x4 [ok 1]).pc = .c45dw ∧ (blockAt .c45dw 0x4 [ok 1]).env.turn = .bus (.ok 1) ∧
      (blockAt .c45dw 0x4 [err 1]).env.turn = .bus (.err 1) := by decide

/-- The block with a CMD write of `w` next and `sched` after it. -/
def issuesThen (w : Word) (sched : List Turn) : State :=
  { State.reset with env := { Env.reset with prog := [.access (.write 0x0C 4 w)], sched := .host :: sched } }

/-- X1 and X3. -/
theorem witness_CompositeIssuesFourPrimitives :
    (issuesThen 0xE7000203 [ok 0, ok 0, ok 0, ok 0xBEEF]).HostWrites 0x0C 0xE7000203 [] [ok 0, ok 0, ok 0, ok 0xBEEF] ∧
      (0xE7000203 : Word).extractLsb' 0 4 = 0x3 ∧
      (issuesThen 0x1F000904 [ok 0, ok 0, ok 0, ok 0]).HostWrites 0x0C 0x1F000904 [] [ok 0, ok 0, ok 0, ok 0] ∧
      (0x1F000904 : Word).extractLsb' 0 4 = 0x4 :=
  ⟨⟨rfl, rfl⟩, by decide, ⟨rfl, rfl⟩, by decide⟩

/-- X4 (k = 1) and X8 (k = 4). -/
theorem witness_CompositeAbortsAtTheFirstFailure :
    (issuesThen 0x03000103 [err 1]).HostWrites 0x0C 0x03000103 [] ([].map (fun v => .bus (.ok v)) ++ .bus (.err 1) :: []) ∧
      (0x03000103 : Word).extractLsb' 0 4 = 0x3 ∧
      (issuesThen 0x03000104 [ok 0, ok 0, ok 0, err 0xFFFFFFFF]).HostWrites 0x0C 0x03000104 []
        ([0, 0, 0].map (fun v => .bus (.ok v)) ++ .bus (.err 0xFFFFFFFF) :: []) ∧
      (0x03000104 : Word).extractLsb' 0 4 = 0x4 ∧ [(0 : Half), 0, 0].length < 4 :=
  ⟨⟨rfl, rfl⟩, by decide, ⟨rfl, rfl⟩, by decide, by decide⟩

/-- The first label of a composite, whose step moves to the next; and the last label of an initialisation, whose step ends
it. -/
theorem witness_StraightLineCommandsStayInOrder :
    let last : State := { blockAt .iniBM 0x6 [ok 0] with
      history := [.wrOk 1 13 0x0003, .wrOk 1 14 0x8010, .wrOk 1 13 0x4003, .wrOk 1 14 0] }
    (blockAt .c45ca 0x3 [ok 0]).issuedSoFar = some [] ∧ (blockAt .c45ca 0x3 [ok 0]).history = [] ++ [] ∧
      after (step (blockAt .c45ca 0x3 [ok 0])) (fun t => (t.busy, t.pc)) = some (true, .c45rn) ∧
      (blockAt .c45ca 0x3 [ok 0]).nextOnLine = some .c45rn ∧
      last.issuedSoFar = some last.history ∧ last.history = [] ++ last.history ∧
      last.inFlight = some (.wr 1 0 0x3200) ∧
      after (step last) (fun t => (t.busy, t.env.turn)) = some (false, ok 0) ∧ last.nextOnLine = none := by decide

/-- The write, and the poll with bit 15 clear and set. -/
theorem witness_KnownAddressResetSteps :
    (blockAt .rstW 0x5 [ok 0]).env.turn = .bus (.ok 0) ∧ (blockAt .rstW 0x5 [ok 0]).pc = .rstW ∧
      (blockAt .rstP 0x5 [ok 0x7FFF]).pc = .rstP ∧ (0x7FFF : Half).getLsbD 15 = false ∧
      (0x8000 : Half).getLsbD 15 = true := by decide

theorem witness_KnownAddressResetWaitIsUnbounded :
    (blockAt .rstP 0x5 [ok 0x8000, ok 0xFFFF]).env.sched = [0x8000, 0xFFFF].map (fun v => Turn.bus (.ok v)) ++ [] ∧
      (blockAt .rstP 0x5 [ok 0x8000, ok 0xFFFF]).pc = .rstP ∧ ∀ v ∈ [(0x8000 : Half), 0xFFFF], v.getLsbD 15 = true := by
  refine ⟨rfl, rfl, ?_⟩
  intro v h
  fin_cases h <;> rfl

theorem witness_DiscoveryResetWrite :
    (blockAt .dscW 0x5 [ok 0]).pc = .dscW ∧ (blockAt .dscW 0x5 [ok 0]).env.turn = .bus (.ok 0) ∧
      (blockAt .dscW 0x5 [err 6]).env.turn = .bus (.err 6) := by decide

theorem witness_DiscoveryRead :
    (blockAt .dscP 0x5 [ok 0x7FFF]).pc = .dscP ∧ (blockAt .dscP 0x5 [err 8]).env.turn = .bus (.err 8) ∧
      (blockAt .dscP 0x5 [ok 0x7FFF]).env.turn = .bus (.ok 0x7FFF) ∧ (0x7FFF : Half).getLsbD 15 = false ∧
      (0x8000 : Half).getLsbD 15 = true := by decide

/-- A discovery delay at attempt `att` of candidate `cand` with `dcnt` ticks left. -/
def delaying (cand : Addr5) (att : BitVec 4) (dcnt : Word) (sched : List Turn) : State :=
  let s := blockAt .dscD 0x5 sched
  { s with latch := { s.latch with cand := cand, att := att, dcnt := dcnt } }

/-- Counter 1 and 0; attempts 9 and 10; candidates 30 and 31. -/
theorem witness_DiscoveryDelayEnd :
    (delaying 30 9 1 [.seq]).env.turn = .seq ∧ (delaying 30 9 1 [.seq]).pc = .dscD ∧
      (delaying 30 9 1 [.seq]).latch.dcnt ≠ 0 ∧ (delaying 30 9 0 [.seq]).latch.att.toNat < 10 ∧
      10 ≤ (delaying 30 10 0 [.seq]).latch.att.toNat ∧ (delaying 30 10 0 [.seq]).latch.cand.toNat < 31 ∧
      (delaying 31 10 0 [.seq]).latch.cand.toNat = 31 := by decide

theorem inv_delaying : (delaying 31 10 0 [.seq]).Inv where
  outcome := ⟨by decide, by decide, by decide, by decide⟩
  sequencer := by
    show _ ∧ _ ∧ _ ∧ _ ∧ _
    decide
  link := by intro st h; cases h

theorem inv_probing : (blockAt .dscP 0x5 [ok 0]).Inv where
  outcome := ⟨by decide, by decide, by decide, by decide⟩
  sequencer := by
    show _ ∧ _ ∧ _
    decide
  link := by intro st h; cases h

/-- A history of the length that the label counts. -/
def filled (s : State) (n : Nat) : State := { s with history := List.replicate n (.rdOk 0 0 0) }

/-- The last step of an exhausted discovery, and the step that finds a candidate (its history not filled). -/
theorem witness_DiscoveryCountsPrimitives :
    (filled (delaying 31 10 0 [.seq]) 352).Inv ∧
      (filled (delaying 31 10 0 [.seq]) 352).discoveryCount = some 352 ∧
      (filled (delaying 31 10 0 [.seq]) 352).history.length = 0 + 352 ∧
      after (step (filled (delaying 31 10 0 [.seq]) 352)) State.pc = some .fatal ∧
      (filled (blockAt .dscP 0x5 [ok 0]) 58).Inv ∧ (filled (blockAt .dscP 0x5 [ok 0]) 58).discoveryCount = some 58 ∧
      after (step (filled (blockAt .dscP 0x5 [ok 0]) 58)) (fun t => (t.pc, t.regs.err)) = some (.idle, false) :=
  ⟨⟨⟨by decide, by decide, by decide, by decide⟩, inv_delaying.sequencer, inv_delaying.link⟩, rfl, List.length_replicate, rfl,
    ⟨⟨by decide, by decide, by decide, by decide⟩, inv_probing.sequencer, inv_probing.link⟩, rfl, rfl⟩

/-- Ten reads that see the bit set. -/
def absentReads : List Half := List.replicate 10 0xFFFF

theorem absentReads_absent : AbsentReads absentReads := by
  refine ⟨rfl, ?_⟩
  intro v h
  rw [List.eq_of_mem_replicate h]
  rfl

/-- A discovery at candidate 0 with a schedule to come. -/
def searching (sched : List Turn) : State :=
  let s := blockAt .dscW 0x5 sched
  { s with latch := { s.latch with cand := 0 } }

/-- No absent candidate and nine misses at address 0 (RS7), and 31 absent candidates (RS9). -/
theorem witness_DiscoveryAdoptsTheFirstAnsweringAddress :
    (searching (searchTurns 10 [] ++ absentTurns 10 (List.replicate 9 0x8000) ++ [.bus (.ok 0x1000)] ++ [])).pc = .dscW ∧
      (searching []).latch.cand = 0 ∧ (List.replicate 9 (0x8000 : Half)).length < 10 ∧
      (∀ u ∈ List.replicate 9 (0x8000 : Half), u.getLsbD 15 = true) ∧ (0x1000 : Half).getLsbD 15 = false ∧
      (List.replicate 31 absentReads).length ≤ 31 ∧ (∀ vs ∈ List.replicate 31 absentReads, AbsentReads vs) ∧
      (searching []).params.discDelayTicks.toNat = 10 := by
  refine ⟨rfl, rfl, by decide, ?_, by decide, by decide, ?_, rfl⟩
  · intro u h
    rw [List.eq_of_mem_replicate h]
    rfl
  intro vs h
  rw [List.eq_of_mem_replicate h]
  exact absentReads_absent

theorem witness_DiscoveryExhaustionIsFatal :
    (searching (searchTurns 10 (List.replicate 32 absentReads) ++ [])).env.sched =
        searchTurns (searching []).params.discDelayTicks.toNat (List.replicate 32 absentReads) ++ [] ∧
      (searching []).pc = .dscW ∧ (searching []).latch.cand = 0 ∧ (List.replicate 32 absentReads).length = 32 ∧
      ∀ vs ∈ List.replicate 32 absentReads, AbsentReads vs := by
  refine ⟨rfl, rfl, rfl, by decide, ?_⟩
  intro vs h
  rw [List.eq_of_mem_replicate h]
  exact absentReads_absent

theorem witness_FatalIsLeftOnlyByReset :
    (blockAt .fatal 0x5 [ok 1]).pc = .fatal ∧
      after (step (blockAt .fatal 0x5 [ok 1])) (fun t => t.env.turn) = some (.bus (.ok 1)) := by decide

theorem witness_PhyInitSteps :
    (blockAt .iniCA 0x6 [ok 0]).env.turn = .bus (.ok 0) ∧ (blockAt .iniCA 0x6 [ok 0]).pc = .iniCA ∧
      (blockAt .iniRN 0x6 [ok 0]).pc = .iniRN ∧ (blockAt .iniCO 0x6 [ok 0]).pc = .iniCO ∧
      (blockAt .iniDW 0x6 [ok 0]).pc = .iniDW ∧ (blockAt .iniBM 0x6 [ok 0]).pc = .iniBM := by decide

/-- A block at a poll's delay with `dcnt` ticks left. -/
def polling (dcnt : Word) (sched : List Turn) : State :=
  let s := blockAt .polD 0x7 sched
  { s with latch := { s.latch with dcnt := dcnt } }

theorem witness_PollDelayEnd :
    (polling 1 [.seq]).env.turn = .seq ∧ (polling 1 [.seq]).pc = .polD ∧ (polling 1 [.seq]).latch.dcnt ≠ 0 ∧
      (polling 0 [.seq]).latch.dcnt = 0 := by decide

/-- PL12, PL2, PL3 and PL4. -/
theorem witness_PollStatusRead :
    (blockAt .polS 0x7 [err 3]).env.turn = .bus (.err 3) ∧ (blockAt .polS 0x7 [ok 0x0024]).pc = .polS ∧
      (blockAt .polS 0x7 [ok 0x0024]).env.turn = .bus (.ok 0x0024) ∧ (0x0004 : Half).getLsbD 5 = false ∧
      (0x0020 : Half).getLsbD 2 = false ∧ (0x0024 : Half).getLsbD 5 = true ∧ (0x0024 : Half).getLsbD 2 = true := by decide

theorem witness_PollAdvertisedRead :
    (blockAt .polA 0x7 [ok 0x01E1]).pc = .polA ∧ (blockAt .polA 0x7 [ok 0x01E1]).env.turn = .bus (.ok 0x01E1) ∧
      (blockAt .polA 0x7 [err 4]).env.turn = .bus (.err 4) := by decide

theorem witness_PollPartnerReadDecodes :
    (blockAt .polP 0x7 [ok 0x45E1]).pc = .polP ∧ (blockAt .polP 0x7 [ok 0x45E1]).env.turn = .bus (.ok 0x45E1) ∧
      (blockAt .polP 0x7 [err 5]).env.turn = .bus (.err 5) := by decide

/-- LINK absent, Down and Up. -/
theorem witness_LinkWordEncoding :
    State.reset.regs.link = none ∧
      after (step (blockAt .polS 0x7 [ok 0x0020])) (fun t => t.regs.link) = some (some .down) ∧
      after (step (blockAt .polP 0x7 [ok 0x0080])) (fun t => t.regs.link) = some (some (.up .s100 .half)) := by decide

/-- The steps of the three clauses: LINK changes, POL_A is entered, POL_P is entered. -/
theorem witness_OnlyASuccessfulPollWritesLink :
    after (step (blockAt .polS 0x7 [ok 0x0020])) (fun t => t.regs.link) = some (some .down) ∧
      after (step (blockAt .polS 0x7 [ok 0x0024])) (fun t => t.pc) = some .polA ∧
      after (step (blockAt .polA 0x7 [ok 0x0180])) (fun t => t.pc) = some .polP := by decide

/-- Two machines with unlike LINK, PHYADDR and operands, at one label with one answer. -/
theorem witness_PollHasNoMemory :
    let s := blockAt .polP 0x7 [ok 0x0080]
    let s' := { withPhy s 6 with regs := { s.regs with link := some .down }, latch := { s.latch with cand := 0 } }
    s.pc = .polP ∧ s'.pc = s.pc ∧ s'.latch.pa = s.latch.pa ∧ s'.latch.anar = s.latch.anar ∧
      s'.latch.dcnt = s.latch.dcnt ∧ (ok 0x0080).sequencer = true ∧ s.env.sched = [ok 0x0080] ∧
      s'.env.sched = [ok 0x0080] ∧ (∃ t, step s = .next t) ∧ ∃ t', step s' = .next t' :=
  ⟨rfl, rfl, rfl, rfl, rfl, rfl, rfl, rfl, ⟨_, rfl⟩, ⟨_, rfl⟩⟩

theorem witness_OnlySuccessfulReadsWriteRdata :
    after (step (blockAt .c45dr 0x3 [ok 0xBEEF])) (fun t => t.regs.rdata) = some 0xBEEF ∧
      (blockAt .c45dr 0x3 [ok 0xBEEF]).regs.rdata ≠ 0xBEEF := by decide

theorem witness_SequencerWritesPhyaddrOnlyWhenFound :
    after (step (blockAt .dscP 0x5 [ok 0])) (fun t => (t.regs.phyaddr, t.env.turn.sequencer)) =
        some (.known 5, true) ∧ (blockAt .dscP 0x5 [ok 0]).regs.phyaddr = .unknown := by decide

/-- An answer and a delay's end; a command that writes no RDATA, and one that writes no PHYADDR and no LINK. -/
theorem witness_SequencerFrame :
    (blockAt .c22w 0x2 [ok 1]).env.turn.sequencer = true ∧ (∃ t, exec (.c22Wr 1 9) (blockAt .c22w 0x2 [ok 1]) = .next t) ∧
      (polling 0 [.seq]).env.turn.sequencer = true ∧ ∃ t, exec .pollLink (polling 0 [.seq]) = .next t :=
  ⟨rfl, ⟨_, rfl⟩, rfl, ⟨_, rfl⟩⟩

/-- Each slot of the clauses: while busy, in FATAL, and the slots never refused, the last one included. -/
theorem witness_WritesRefusedWhileBusy :
    (∀ off ∈ [0x00, 0x04, 0x08, 0x0C, 0x14, 0x18, 0x24, 0x3C],
      (writes (blockAt .c22r 0x1 []) off 5).HostWrites off 5 [] [] ∧
        (writes (blockAt .fatal 0x5 []) off 5).HostWrites off 5 [] [] ∧ off < 0x40 ∧ off % 4 = 0) ∧
      (blockAt .c22r 0x1 []).busy = true ∧ (blockAt .fatal 0x5 []).pc = .fatal := by
  refine ⟨?_, rfl, rfl⟩
  intro off h
  refine ⟨⟨rfl, ?_⟩, ⟨rfl, ?_⟩, ?_⟩
  · simp [writes, blockAt, State.reset, State.resetWith, Params.default]
  · simp [writes, blockAt, State.reset, State.resetWith, Params.default]
  · revert off; decide

theorem witness_HostCannotDisturbARunningCommand :
    (blockAt .polD 0x7 []).busy = true ∧
      after (step (writes (blockAt .polD 0x7 []) 0x14 6)) (fun t => (t.env.turn, t.pc)) = some (.host, .polD) := by decide

theorem witness_StatusIsWriteOneToClear : (writes (failed 7) 0x04 0xA).HostWrites 0x04 0xA [] [] := ⟨rfl, rfl⟩

/-- The ends of the ranges of R41: 0x1F, 0x20, 0xFE and 0xFF. -/
theorem witness_PhyaddrWriteIsLegalised :
    (∀ v ∈ [0x1F, 0x20, 0xFE, 0xFF], (writes State.reset 0x14 v).HostWrites 0x14 v [] []) ∧ State.reset.busy = false ∧
      ((0x1F : Word).extractLsb' 0 8).toNat ≤ 0x1F ∧ (0xFF : Word).extractLsb' 0 8 = 0xFF ∧
      0x20 ≤ ((0x20 : Word).extractLsb' 0 8).toNat ∧ ((0xFE : Word).extractLsb' 0 8).toNat ≤ 0xFE := by
  refine ⟨?_, rfl, by decide, by decide, by decide, by decide⟩
  intro v _
  exact ⟨rfl, rfl⟩

theorem witness_PlainRegisterWrites :
    (∀ off ∈ [0x00, 0x08, 0x10, 0x18, 0x1C, 0x20, 0x24, 0x3C], (writes State.reset off 1).HostWrites off 1 [] []) ∧
      State.reset.busy = false := by
  refine ⟨?_, rfl⟩
  intro off _
  exact ⟨rfl, by simp [writes, State.reset, State.resetWith, Params.default]⟩

/-- PHYADDR known, at its greatest value, and unknown; then a read of the first slot, of the last register, and of the first and
last reserved slots. -/
theorem witness_ReadsHaveNoSideEffect :
    (withPhy State.reset 31).regs.phyaddr = .known 31 ∧ State.reset.regs.phyaddr = .unknown ∧
      ∀ off ∈ [0x00, 0x20, 0x24, 0x3C], (reads State.reset off).HostReads off [] [] ∧ off < 0x40 ∧ off % 4 = 0 := by
  refine ⟨rfl, rfl, ?_⟩
  intro off h
  refine ⟨⟨rfl, by simp [reads, State.reset, State.resetWith, Params.default]⟩, ?_⟩
  revert off
  decide

/-- A byte read at the first offset, a misaligned word at the last, and an aligned word at the last slot. -/
theorem witness_NarrowAndMisalignedAccessesAreRefused :
    (reads State.reset 0x3C).env.sched = [.host] ∧
      (reads State.reset 0x3C).env.prog = [.access (.read 0x3C 4)] ∧ State.reset.params.csrBase ≤ 0x00 ∧
      0x3F < State.reset.params.csrBase + 0x40 ∧ (0x3F - State.reset.params.csrBase) % 4 ≠ 0 ∧
      (0x3C - State.reset.params.csrBase) % 4 = 0 ∧ (1 : Nat) ≠ 4 := by decide

/-- Each cause of R260: nothing yet, and a step that leaves each of the others. -/
theorem witness_StatusWordFields :
    State.reset.regs.errcode = .none ∧
      after (step (blockAt .c22r 0x1 [err 7])) (fun t => t.regs.errcode) = some .bus ∧
      after (step (issues State.reset 0x0)) (fun t => t.regs.errcode) = some .illegal ∧
      after (step (issues State.reset 0x7)) (fun t => t.regs.errcode) = some .addrUnknown ∧
      after (step (delaying 31 10 0 [.seq])) (fun t => t.regs.errcode) = some .noDevice := by decide

/-- IRQ rises at a command's end, at a command that ends at once, and at a CTRL write. -/
theorem witness_InterruptRisesOnlyAtAnEnd :
    let enabled (s : State) : State := { s with regs := { s.regs with ie := true } }
    irq (enabled (blockAt .c22r 0x1 [ok 1])) = false ∧
      after (step (enabled (blockAt .c22r 0x1 [ok 1]))) irq = some true ∧
      after (step (issues (enabled State.reset) 0)) irq = some true ∧ irq (failed 1) = false ∧
      after (step (writes (failed 1) 0x00 1)) irq = some true := by decide

theorem witness_WaitingLeavesTheBlockAlone :
    ∀ op ∈ [HostOp.waitIdle, .waitIrq],
      ({ State.reset with env := { Env.reset with prog := [op], sched := [.host] } } : State).env.prog = op :: [] ∧
        ({ State.reset with env := { Env.reset with prog := [op], sched := [.host] } } : State).env.sched = [.host] := by
  intro op _
  exact ⟨rfl, rfl⟩

/-- A tick in each delay, at counter 0, and outside a delay. -/
theorem witness_TickLowersTheDelayCounter :
    (polling 1 [.tick]).env.sched = [.tick] ∧ (polling 1 [.tick]).pc = .polD ∧ (polling 1 [.tick]).latch.dcnt ≠ 0 ∧
      (delaying 0 1 0xFFFFFFFF [.tick]).pc = .dscD ∧ (delaying 0 1 0xFFFFFFFF [.tick]).latch.dcnt ≠ 0 ∧
      (polling 0 [.tick]).latch.dcnt = 0 ∧ (blockAt .c22r 0x1 [.tick]).pc = .c22r := by decide

/-- A tick and a turn of the sequencer, for ever. -/
def tickAndStep (k : Nat) : Turn := if k % 2 = 0 then .tick else .seq

/-- Two ticks asked for, one come, with an answer and a delay's end between; and the counter at 0. Then the longest delay, under
an endless order of turns in which ticks and the sequencer's turns alternate. -/
theorem witness_DelaysLastAtLeastTheirTicks :
    (polling 2 [.tick, .seq, ok 1]).pc = .polD ∧
      (polling 2 [.tick, .seq, ok 1]).env.sched = [.tick, .seq, ok 1] ++ [] ∧ Turn.reset ∉ [Turn.tick, .seq, ok 1] ∧
      (∃ t, stepN [Turn.tick, .seq, ok 1].length (polling 2 [.tick, .seq, ok 1]) = .next t) ∧
      [Turn.tick, .seq, ok 1].count Turn.tick < (polling 2 [.tick, .seq, ok 1]).latch.dcnt.toNat ∧
      (polling 0 [.seq]).latch.dcnt = 0 ∧ (polling 0 [.seq]).env.sched = [.seq] ∧
      (polling 0xFFFFFFFF []).pc = .polD ∧ TicksFair tickAndStep ∧ SequencerFair tickAndStep ∧
      (polling 0xFFFFFFFF []).GoesOn tickAndStep := by
  refine ⟨rfl, rfl, by decide, ⟨_, rfl⟩, by decide, rfl, rfl, rfl, fun k => ⟨2 * k, by omega, by simp [tickAndStep]⟩,
    fun k => ⟨2 * k + 1, by omega, by simp [tickAndStep]⟩, goesOn_without_host _ ?_ _⟩
  intro k
  unfold tickAndStep
  split <;> decide

end Sys2Proof.Tests
end

section
/-! PROOFS. The scope family (spec/00_scope.md): which command a step runs. -/

namespace Sys2Proof.Machine

/-! ### The command that the host writes -/

/-- A CMD write runs the command its word decodes to, in the state with the access and the turn taken (R6, R160). -/
theorem step_eq_exec_of_cmdWrite {s : State} {w : Word} {i : Instr} {ps : List HostOp} {rest : List Turn}
    (hw : s.HostWrites 0x0C w ps rest) (hi : decodeCmd w = .ok i) : step s = exec i (s.hostDone ps rest) := by
  have hcmd : (s.hostDone ps rest).cmdWrite w = exec i (s.hostDone ps rest) := by
    unfold State.cmdWrite
    rw [hi]
  rw [step_cmdWrite hw, ← cmdWrite_eq w (by simp), hcmd]

/-- A table word decodes as its four bytes in the CSR window do, so as the CMD word they form (R82, R122). -/
theorem decodeCmd_of_decodeTableWord {nbits w : Nat} {i : Instr} (h : decodeTableWord nbits w = some i) :
    decodeCmd (tableWord nbits w) = .ok i := by
  have hbytes : decodeBytes (bytesOfWord (tableWord nbits w)) = decodeCmd (tableWord nbits w) := by
    simpa using decodeBytes_bytesOfWord (tableWord nbits w) []
  rw [decodeTableWord, hbytes] at h
  cases hd : decodeCmd (tableWord nbits w) with
  | ok j => rw [hd] at h; exact congrArg Except.ok (Option.some.inj h)
  | error r => rw [hd] at h; cases h

/-- `withFetchWord` puts the CMD write in front of the host's program and the host's turn in front of the schedule. -/
theorem withFetchWord_hostWrites (s : State) (nbits w : Nat) :
    (s.withFetchWord nbits w).HostWrites 0x0C (tableWord nbits w) s.env.prog s.env.sched :=
  ⟨rfl, rfl⟩

/-- With that write done, only the turn differs from the state before it was placed. -/
theorem withFetchWord_hostDone (s : State) (nbits w : Nat) :
    (s.withFetchWord nbits w).hostDone s.env.prog s.env.sched = { s with env := { s.env with turn := .host } } :=
  rfl

/-- Settles O10: the CMD write's step is `exec`, and `withFetchWord` is one such write. -/
theorem stepRunsTheCommandWritten : Obligations.StepRunsTheCommandWritten := by
  refine ⟨fun s w i ps rest hw hi => step_eq_exec_of_cmdWrite hw hi, fun s nbits w i hi => ?_⟩
  rw [step_eq_exec_of_cmdWrite (withFetchWord_hostWrites s nbits w) (decodeCmd_of_decodeTableWord hi),
    withFetchWord_hostDone]

/-! ### The command that the sequencer runs -/

/-- At a turn of the sequencer the running command takes its step (R13, R50); with none running nothing happens. -/
theorem takeStep_of_sequencer {s : State} (h : s.env.turn.sequencer = true) :
    (∀ i, s.running = some i → s.takeStep = exec i s) ∧ (s.running = none → s.takeStep = .next s) := by
  unfold State.takeStep
  cases ht : s.env.turn with
  | bus | seq => exact ⟨fun i hi => by simp only [hi], fun hi => by simp only [hi]⟩
  | host | tick | reset => simp [ht, Turn.sequencer] at h

@[simp] theorem State.turned_running (s : State) (trn : Turn) (rest : List Turn) :
    (s.turned trn rest).running = s.running := rfl

/-- Settles O11: the step takes the turn, which leaves the label and the latches, and so the running command, as they
were. -/
theorem stepRunsTheRunningCommand : Obligations.StepRunsTheRunningCommand := by
  intro s trn rest hsched hseq
  obtain ⟨hrun, hidle⟩ := takeStep_of_sequencer (s := s.turned trn rest) (by simpa using hseq)
  rw [State.turned_running] at hrun hidle
  rw [step_of_sched hsched]
  exact ⟨hrun, hidle, running_none_iff s⟩

end Sys2Proof.Machine
end

section
/-! PROOFS. Rules of the state family (spec/10_state.md): what each slot of the window takes, and what the turn of each agent
can do to the block, each said once. -/

namespace Sys2Proof.Machine

/-! ### Register writes, slot by slot -/

section
variable (s : State) (v : Word)

theorem csrWrite_ctrl : csrWrite s 0x00 v = { s with regs := { s.regs with ie := v.getLsbD 0 } } := rfl

theorem csrWrite_status : csrWrite s 0x04 v =
    { s with regs := { s.regs with done := s.regs.done && !v.getLsbD 1, rej := s.regs.rej && !v.getLsbD 3 } } := rfl

theorem csrWrite_arg :
    csrWrite s 0x08 v = s.unlessBusy fun s => { s with regs := { s.regs with arg := v } } := rfl

theorem csrWrite_phyaddr : csrWrite s 0x14 v =
    s.unlessBusy fun s => { s with regs := { s.regs with phyaddr := phyAddrWrite v s.regs.phyaddr } } := rfl

theorem csrWrite_pollint :
    csrWrite s 0x18 v = s.unlessBusy fun s => { s with regs := { s.regs with pollint := v } } := rfl

end

/-- The slots that take a write: CTRL, STATUS, ARG, PHYADDR and POLLINT; CMD has its own handling (R160). -/
def writableSlots : List Nat := [0x00, 0x04, 0x08, 0x14, 0x18]

/-- RDATA, LINK, BUSERR and the reserved slots take no write (R31, R85). -/
theorem csrWrite_of_not_writable (s : State) (v : Word) {off : Nat} (h : off ∉ writableSlots) :
    csrWrite s off v = s := by
  simp only [writableSlots, List.mem_cons, List.not_mem_nil, or_false, not_or] at h
  simp [csrWrite, offCtrl, offStatus, offArg, offPhyaddr, offPollint, h]

theorem unlessBusy_of_busy {s : State} (h : s.busy = true) (go : State → State) : s.unlessBusy go = s.reject := by
  simp [State.unlessBusy, h]

theorem unlessBusy_of_not_busy {s : State} (h : s.busy = false) (go : State → State) : s.unlessBusy go = go s := by
  simp [State.unlessBusy, h]

/-! ### BUSY and the label -/

theorem busy_eq_false_iff (s : State) : s.busy = false ↔ s.pc = .idle ∨ s.pc = .fatal := by
  unfold State.busy
  cases s.pc <;> simp [Label.busy]

theorem not_busy_of_idle {s : State} (h : s.pc = .idle) : s.busy = false := (busy_eq_false_iff s).2 (.inl h)

theorem not_busy_of_fatal {s : State} (h : s.pc = .fatal) : s.busy = false := (busy_eq_false_iff s).2 (.inr h)

theorem ne_idle_of_busy {s : State} (h : s.busy = true) : s.pc ≠ .idle := fun hi => by
  simp [not_busy_of_idle hi] at h

theorem busy_of_inFlight {s : State} {q : BusRequest} (h : s.inFlight = some q) : s.busy = true := by
  unfold State.inFlight at h
  unfold State.busy
  cases hpc : s.pc <;> simp_all [Label.busy]

/-! ### The host's turn -/

/-- The labels at which acceptance starts the sequencer (R164). -/
def startLabels : List Label := [.c22r, .c22w, .c45ca, .rstW, .dscW, .iniCA, .polD]

/-- What a CMD write can do to the block (R38, R160 to R165): it is refused, a command is accepted, or it ends at once. -/
inductive State.IssueChange (s : State) : State → Prop
  | rejected (h : s.pc ≠ .idle) : IssueChange s s.reject
  | accepted (h : s.pc = .idle) (l : Label) (f : Latches → Latches) (hl : l ∈ startLabels)
      (hok : (s.accept l f).SequencerOk) : IssueChange s (s.accept l f)
  | failed (h : s.pc = .idle) (c : ErrCode) (hc : c = .illegal ∨ c = .addrUnknown) : IssueChange s (s.failAtOnce c)

/-- What the host's turn can do to the block (R34, R38, R85). -/
inductive State.HostChange (s : State) : State → Prop
  | unchanged : HostChange s s
  | refused (h : s.busy = true) : HostChange s s.reject
  | ctrl (b : Bool) : HostChange s { s with regs := { s.regs with ie := b } }
  | status (d r : Bool) :
      HostChange s { s with regs := { s.regs with done := s.regs.done && d, rej := s.regs.rej && r } }
  | arg (h : s.busy = false) (v : Word) : HostChange s { s with regs := { s.regs with arg := v } }
  | phyaddr (h : s.busy = false) (a : PhyAddr) : HostChange s { s with regs := { s.regs with phyaddr := a } }
  | pollint (h : s.busy = false) (n : Word) : HostChange s { s with regs := { s.regs with pollint := n } }
  | command {u : State} (h : s.IssueChange u) : HostChange s u

theorem unlessBusy_change {s : State} {go : State → State} (h : s.busy = false → s.HostChange (go s)) :
    s.HostChange (s.unlessBusy go) := by
  cases hb : s.busy with
  | true => rw [unlessBusy_of_busy hb]; exact .refused hb
  | false => rw [unlessBusy_of_not_busy hb]; exact h hb

theorem csrWrite_change (s : State) (off : Nat) (v : Word) : s.HostChange (csrWrite s off v) := by
  by_cases h : off ∈ writableSlots
  · simp only [writableSlots, List.mem_cons, List.not_mem_nil, or_false] at h
    obtain rfl | rfl | rfl | rfl | rfl := h
    · exact .ctrl _
    · exact .status _ _
    · rw [csrWrite_arg]
      exact unlessBusy_change fun h => .arg h v
    · rw [csrWrite_phyaddr]
      exact unlessBusy_change fun h => .phyaddr h _
    · rw [csrWrite_pollint]
      exact unlessBusy_change fun h => .pollint h v
  · rw [csrWrite_of_not_writable s v h]
    exact .unchanged

theorem issuedIdle_change {s : State} (h : s.pc = .idle) (i : Instr) : s.IssueChange (s.issuedIdle i) := by
  cases i <;> simp only [State.issuedIdle]
  case c22Rd => exact .accepted h _ _ (by decide) rfl
  case c22Wr => exact .accepted h _ _ (by decide) rfl
  case c45Rd => exact .accepted h _ _ (by decide) (.inl rfl)
  case c45Wr => exact .accepted h _ _ (by decide) (.inr rfl)
  case phyReset =>
    split
    · exact .accepted h _ _ (by decide) ⟨rfl, ‹_›⟩
    · exact .accepted h _ _ (by decide) ⟨rfl, ‹_›⟩
  case phyInit =>
    split
    · exact .accepted h _ _ (by decide) ⟨rfl, ‹_›⟩
    · exact .failed h _ (.inr rfl)
  case pollLink =>
    split
    · exact .accepted h _ _ (by decide) ⟨rfl, ‹_›, BitVec.le_refl _⟩
    · exact .failed h _ (.inr rfl)

theorem issued_change (s : State) (i : Instr) : s.IssueChange (s.issued i) := by
  unfold State.issued
  split
  · exact issuedIdle_change ‹_› i
  · exact .rejected ‹_›

theorem cmdEffect_change (s : State) (w : Word) : s.IssueChange (s.cmdEffect w) := by
  unfold State.cmdEffect
  cases decodeCmd w with
  | ok i => exact issued_change s i
  | error r =>
    show s.IssueChange (if s.pc = .idle then s.failAtOnce .illegal else s.reject)
    split
    · exact .failed ‹_› _ (.inl rfl)
    · exact .rejected ‹_›

/-- The host's turn leaves the block as one of the changes does; what else it does is to the agents' data. -/
theorem hostEffect_change {s t : State} (h : s.HostEffect t) :
    ∃ u, s.HostChange u ∧ t = { u with env := t.env } := by
  have same (u : State) (hp : u.params = s.params) (hh : u.history = s.history)
      (hu : t.regs = u.regs ∧ t.pc = u.pc ∧ t.latch = u.latch) : t = { u with env := t.env } := by
    obtain ⟨hr, hpc, hl⟩ := hu
    rw [← h.1] at hp
    rw [← h.2.1] at hh
    cases t
    cases u
    simp_all
  obtain ⟨-, -, hu | ⟨off, v, -, hu⟩ | ⟨w, hu⟩⟩ := h
  · exact ⟨s, .unchanged, same s rfl rfl hu⟩
  · obtain ⟨hp, hpc, hl, hh, -⟩ := csrWrite_frame s off v
    exact ⟨csrWrite s off v, csrWrite_change s off v, same _ hp hh (by rwa [hpc, hl])⟩
  · obtain ⟨hp, hh, -⟩ := cmdEffect_frame s w
    exact ⟨s.cmdEffect w, .command (cmdEffect_change s w), same _ hp hh hu⟩

/-- A CMD write keeps what no command takes at acceptance (R38, R163); refused, it only sets REJ. -/
theorem issueChange_frame {s u : State} (h : s.IssueChange u) :
    u.params = s.params ∧ u.history = s.history ∧ u.env = s.env ∧ u.regs.ie = s.regs.ie ∧ u.regs.arg = s.regs.arg ∧
      u.regs.rdata = s.regs.rdata ∧ u.regs.phyaddr = s.regs.phyaddr ∧ u.regs.pollint = s.regs.pollint ∧
      u.regs.link = s.regs.link := by
  cases h <;> exact ⟨rfl, rfl, rfl, rfl, rfl, rfl, rfl, rfl, rfl⟩

theorem issueChange_of_not_idle {s u : State} (h : s.IssueChange u) (hpc : s.pc ≠ .idle) : u = s.reject := by
  cases h with
  | rejected => rfl
  | accepted hi | failed hi => exact absurd hi hpc

theorem issueChange_rej_of_idle {s u : State} (h : s.IssueChange u) (hpc : s.pc = .idle) :
    u.regs.rej = s.regs.rej := by
  cases h with
  | rejected hi => exact absurd hpc hi
  | accepted | failed => rfl

/-- No turn of the host changes the parameters, the history, RDATA or LINK (R39, R44). -/
theorem hostChange_frame {s u : State} (h : s.HostChange u) :
    u.params = s.params ∧ u.history = s.history ∧ u.regs.rdata = s.regs.rdata ∧ u.regs.link = s.regs.link := by
  cases h with
  | command hi =>
    obtain ⟨hp, hh, -, -, -, hrd, -, -, hlink⟩ := issueChange_frame hi
    exact ⟨hp, hh, hrd, hlink⟩
  | unchanged | refused | ctrl | status | arg | phyaddr | pollint => exact ⟨rfl, rfl, rfl, rfl⟩

/-- Away from IDLE no turn of the host moves the sequencer or changes a latch or the error (R38, R48). -/
theorem hostChange_of_not_idle {s u : State} (h : s.HostChange u) (hpc : s.pc ≠ .idle) :
    u.pc = s.pc ∧ u.latch = s.latch ∧ u.regs.err = s.regs.err ∧ u.regs.errcode = s.regs.errcode ∧
      u.regs.buserr = s.regs.buserr := by
  cases h with
  | command hi =>
    rw [issueChange_of_not_idle hi hpc]
    exact ⟨rfl, rfl, rfl, rfl, rfl⟩
  | unchanged | refused | ctrl | status | arg | phyaddr | pollint => exact ⟨rfl, rfl, rfl, rfl, rfl⟩

/-- While a command runs no turn of the host changes its operands (R38, R112). -/
theorem hostChange_of_busy {s u : State} (h : s.HostChange u) (hb : s.busy = true) :
    u.regs.arg = s.regs.arg ∧ u.regs.phyaddr = s.regs.phyaddr ∧ u.regs.pollint = s.regs.pollint := by
  cases h with
  | command hi =>
    obtain ⟨-, -, -, -, harg, -, hphy, hpoll, -⟩ := issueChange_frame hi
    exact ⟨harg, hphy, hpoll⟩
  | unchanged | refused | ctrl | status => exact ⟨rfl, rfl, rfl⟩
  | arg hn | phyaddr hn | pollint hn => exact absurd hb (by simp [hn])

/-- The host moves the sequencer only by a command that is accepted (R164). -/
theorem hostChange_pc {s u : State} (h : s.HostChange u) : u.pc = s.pc ∨ u.pc ∈ startLabels := by
  cases h with
  | command hi =>
    cases hi with
    | accepted _ l f hl => exact .inr hl
    | rejected | failed => exact .inl rfl
  | unchanged | refused | ctrl | status | arg | phyaddr | pollint => exact .inl rfl

/-! ### The sequencer's turn -/

/-- An answer is dropped, or recorded and followed by the label's own step or by a bus error (R13, R262). -/
theorem answered_cases (s : State) (r : BusAnswer) :
    (s.inFlight = none ∧ s.answered r = s) ∨
    (∃ q v, s.inFlight = some q ∧ r = .ok v ∧ s.answered r = (s.record q r).afterOk v) ∨
    (∃ q e, s.inFlight = some q ∧ r = .err e ∧ s.answered r = (s.record q r).busError e) := by
  unfold State.answered
  cases s.inFlight with
  | none => exact .inl ⟨rfl, rfl⟩
  | some q =>
    cases r with
    | ok v => exact .inr (.inl ⟨q, v, rfl, rfl, rfl⟩)
    | err e => exact .inr (.inr ⟨q, e, rfl, rfl, rfl⟩)

/-- The sequencer's own turn changes nothing, or a delay has run out: in discovery or before a poll (R228, R240). -/
theorem delayEnd_cases (s : State) :
    s.delayEnd = s ∨ (s.pc = .dscD ∧ s.delayEnd = s.discoveryNext) ∨ (s.pc = .polD ∧ s.delayEnd = s.goto .polS) := by
  unfold State.delayEnd
  split
  · cases s.pc <;> simp
  · exact .inl rfl

/-- After a discovery delay: the next attempt, the next candidate, or no device (R228, R229). -/
theorem discoveryNext_cases (s : State) :
    (s.latch.att < discAttempts ∧ s.discoveryNext = s.goto .dscP) ∨
    s.discoveryNext = { s with latch := { s.latch with cand := s.latch.cand + 1 }, pc := .dscW } ∨
    s.discoveryNext = s.noDevice := by
  unfold State.discoveryNext
  split
  · exact .inl ⟨‹_›, rfl⟩
  · split
    · exact .inr (.inl rfl)
    · exact .inr (.inr rfl)

/-- A tick changes nothing, or lowers the counter of a delay that has not run out (R270). -/
theorem tick_cases (s : State) :
    s.tick = s ∨ ((s.pc = .dscD ∨ s.pc = .polD) ∧ s.latch.dcnt ≠ 0 ∧
      s.tick = { s with latch := { s.latch with dcnt := s.latch.dcnt - 1 } }) := by
  unfold State.tick
  split
  · exact .inr ⟨(‹_ ∧ _›).1, (‹_ ∧ _›).2, rfl⟩
  · exact .inl rfl

end Sys2Proof.Machine
end

section
/-! PROOFS. The invariant of the machine: it holds after reset, and every step of every agent keeps it. -/

namespace Sys2Proof.Machine

/-! ### The parts of the invariant -/

/-- LINK holds no status, or one that the generic decode produces (R140, R244). -/
def State.LinkOk (s : State) : Prop := ∀ st, s.regs.link = some st → st ∈ genericStatus

/-- The outcome of a running command: nothing has failed, and no error code is recorded (R163). -/
def State.NoError (s : State) : Prop := s.regs.err = false ∧ s.regs.errcode = .none ∧ s.regs.buserr = 0

theorem resolve_mem_genericStatus (n : Half) : resolve n ∈ genericStatus := by
  unfold resolve
  repeat' split
  all_goals decide

theorem linkOk_some {s : State} {st : LinkStatus} (h : s.regs.link = some st) (hst : st ∈ genericStatus) : s.LinkOk := by
  intro st' h'
  rw [h] at h'
  exact Option.some.inj h' ▸ hst

/-- With no command running nothing is asked of the latches. -/
theorem sequencerOk_of_not_busy {s : State} (h : s.busy = false) : s.SequencerOk := by
  obtain hpc | hpc := (busy_eq_false_iff s).1 h <;> simp only [State.SequencerOk, hpc]

theorem noError_of_busy {s : State} (h : s.Inv) (hb : s.busy = true) : s.NoError :=
  (h.outcome.cleared hb).2

/-- A cleared outcome is consistent at every label but FATAL. -/
theorem outcomeOk_of_cleared {s : State} (hd : s.busy = true → s.regs.done = false) (he : s.NoError)
    (hf : s.pc ≠ .fatal) : s.OutcomeOk := by
  obtain ⟨herr, hcode, hbus⟩ := he
  exact ⟨fun hb => ⟨hd hb, herr, hcode, hbus⟩, by simp [herr, hcode], fun _ => hbus, by simp [hcode, hf]⟩

/-- A command that has moved to a label of its own, its outcome still cleared. -/
theorem inv_of_cleared {s : State} (hd : s.regs.done = false) (he : s.NoError) (hf : s.pc ≠ .fatal)
    (hs : s.SequencerOk) (hl : s.LinkOk) : s.Inv :=
  ⟨outcomeOk_of_cleared (fun _ => hd) he hf, hs, hl⟩

/-- A consistent error at a label where no command runs (R260 to R263). -/
theorem inv_of_error {s : State} (hb : s.busy = false) (herr : s.regs.err = true) (hne : s.regs.errcode ≠ .none)
    (hcode : s.regs.errcode ≠ .bus → s.regs.buserr = 0) (hf : s.regs.errcode = .noDevice ↔ s.pc = .fatal)
    (hl : s.LinkOk) : s.Inv :=
  ⟨⟨by simp [hb], by simp [herr, hne], hcode, hf⟩, sequencerOk_of_not_busy hb, hl⟩

/-- The invariant does not look at the agents' data or at the history. -/
theorem inv_congr {s t : State} (h : s.Inv) (hp : t.params = s.params) (hr : t.regs = s.regs) (hpc : t.pc = s.pc)
    (hl : t.latch = s.latch) : t.Inv := by
  obtain ⟨⟨cleared, cause, code, fatal⟩, sequencer, link⟩ := h
  cases s
  cases t
  simp only at hp hr hpc hl
  subst hp hr hpc hl
  exact ⟨⟨cleared, cause, code, fatal⟩, sequencer, link⟩

/-! ### The ends of a command -/

theorem complete_inv {s : State} (he : s.NoError) (hl : s.LinkOk) : s.complete.Inv :=
  ⟨outcomeOk_of_cleared (fun hb => by cases hb) he (by simp), trivial, hl⟩

theorem busError_inv {s : State} (hl : s.LinkOk) (e : Word) : (s.busError e).Inv :=
  inv_of_error rfl rfl (by simp) (by simp) (by simp) hl

theorem noDevice_inv {s : State} (he : s.NoError) (hl : s.LinkOk) : s.noDevice.Inv :=
  inv_of_error rfl rfl (by simp) (fun _ => he.2.2) (by simp) hl

theorem failAtOnce_inv {s : State} (hpc : s.pc = .idle) (hl : s.LinkOk) {c : ErrCode}
    (hc : c = .illegal ∨ c = .addrUnknown) : (s.failAtOnce c).Inv := by
  have hb : (s.failAtOnce c).busy = false := not_busy_of_idle hpc
  obtain rfl | rfl := hc <;> exact inv_of_error hb rfl (by simp) (by simp) (by simp [hpc]) hl

/-! ### The agents -/

/-- Settles O2: nothing runs, no error stands, and LINK holds no status. -/
theorem resetMeetsTheInvariant : Obligations.ResetMeetsTheInvariant := by
  intro p
  exact inv_of_cleared rfl ⟨rfl, rfl, rfl⟩ (by simp [State.resetWith]) trivial (by intro st h; cases h)

theorem issueChange_inv {s u : State} (h : s.Inv) (hc : s.IssueChange u) : u.Inv := by
  cases hc with
  | rejected =>
    obtain ⟨⟨cleared, cause, code, fatal⟩, hseq, hlink⟩ := h
    exact ⟨⟨cleared, cause, code, fatal⟩, hseq, hlink⟩
  | accepted _ l f hl hok =>
    have hf : l ≠ .fatal := by rintro rfl; exact absurd hl (by decide)
    exact inv_of_cleared rfl ⟨rfl, rfl, rfl⟩ hf hok h.link
  | failed hpc c hc => exact failAtOnce_inv hpc h.link hc

theorem hostChange_inv {s t : State} (h : s.Inv) (hc : s.HostChange t) : t.Inv := by
  obtain ⟨⟨cleared, cause, code, fatal⟩, hseq, hlink⟩ := h
  cases hc with
  | unchanged | refused | ctrl => exact ⟨⟨cleared, cause, code, fatal⟩, hseq, hlink⟩
  | status d r =>
    have cleared' (hb : s.busy = true) : (s.regs.done && d) = false ∧ s.regs.err = false ∧
        s.regs.errcode = .none ∧ s.regs.buserr = 0 := by
      obtain ⟨hdone, he⟩ := cleared hb
      exact ⟨by simp [hdone], he⟩
    exact ⟨⟨cleared', cause, code, fatal⟩, hseq, hlink⟩
  | arg hb | phyaddr hb | pollint hb =>
    exact ⟨⟨cleared, cause, code, fatal⟩, sequencerOk_of_not_busy hb, hlink⟩
  | command hi => exact issueChange_inv ⟨⟨cleared, cause, code, fatal⟩, hseq, hlink⟩ hi

theorem afterOk_inv {s : State} (h : s.Inv) (hb : s.busy = true) (v : Half) : (s.afterOk v).Inv := by
  have hd : s.regs.done = false := (h.outcome.cleared hb).1
  have he : s.NoError := noError_of_busy h hb
  have hl : s.LinkOk := h.link
  have hs := h.sequencer
  have moved {t : State} (hr : t.regs = s.regs) (hf : t.pc ≠ .fatal) (hok : t.SequencerOk) : t.Inv :=
    inv_of_cleared (by rw [hr, hd]) (by rwa [State.NoError, hr]) hf hok (by rwa [State.LinkOk, hr])
  cases hpc : s.pc <;> simp only [State.SequencerOk, hpc] at hs <;> simp only [State.afterOk, hpc]
  case idle | fatal | dscD | polD => exact h
  case c22r | c45dr => exact complete_inv (s := s.setRdata v) he hl
  case c22w | c45dw | iniBM => exact complete_inv he hl
  case c45ca | c45rn | rstW | iniCA | iniRN | iniCO | iniDW => exact moved rfl (by simp) hs
  case c45co =>
    obtain hop | hop := hs
    · exact moved rfl (by simp [hop]) (by simp [State.SequencerOk, hop])
    · exact moved rfl (by simp [hop]) (by simp [State.SequencerOk, hop])
  case rstP =>
    split
    · exact moved rfl (by simp) hs
    · exact complete_inv he hl
  case dscW => exact moved rfl (by simp) ⟨hs.1, hs.2, by simp⟩
  case dscP =>
    obtain ⟨hop, hun, hatt⟩ := hs
    split
    · have hnext : (s.latch.att + 1).toNat = s.latch.att.toNat + 1 := by bv_omega
      refine moved rfl (by simp) ⟨hop, hun, ?_, ?_, BitVec.le_refl _⟩ <;> rw [State.missed_latch, hnext] <;> omega
    · exact complete_inv (s := s.setPhyaddr s.latch.cand) he hl
  case polS =>
    split
    · exact moved rfl (by simp) hs
    · exact complete_inv (s := s.setLink .down) he (linkOk_some rfl (by decide))
  case polA => exact moved rfl (by simp) hs
  case polP => exact complete_inv (s := s.setLink _) he (linkOk_some rfl (resolve_mem_genericStatus _))

theorem answered_inv {s : State} (h : s.Inv) (r : BusAnswer) : (s.answered r).Inv := by
  obtain ⟨-, ha⟩ | ⟨q, v, hq, -, ha⟩ | ⟨q, e, -, -, ha⟩ := answered_cases s r <;> rw [ha]
  · exact h
  · exact afterOk_inv (s := s.record q r) (inv_congr h rfl rfl rfl rfl) (busy_of_inFlight hq) v
  · exact busError_inv (s := s.record q r) h.link e

theorem discoveryNext_inv {s : State} (h : s.Inv) (hpc : s.pc = .dscD) : s.discoveryNext.Inv := by
  have hb : s.busy = true := by rw [State.busy, hpc]; rfl
  have hd : s.regs.done = false := (h.outcome.cleared hb).1
  have he : s.NoError := noError_of_busy h hb
  have hs := h.sequencer
  simp only [State.SequencerOk, hpc] at hs
  obtain ⟨hop, hun, -⟩ := hs
  obtain ⟨hatt, hn⟩ | hn | hn := discoveryNext_cases s <;> rw [hn]
  · exact inv_of_cleared hd he (by simp) ⟨hop, hun, BitVec.lt_def.1 hatt⟩ h.link
  · exact inv_of_cleared hd he (by simp) ⟨hop, hun⟩ h.link
  · exact noDevice_inv he h.link

theorem delayEnd_inv {s : State} (h : s.Inv) : s.delayEnd.Inv := by
  obtain hn | ⟨hpc, hn⟩ | ⟨hpc, hn⟩ := delayEnd_cases s <;> rw [hn]
  · exact h
  · exact discoveryNext_inv h hpc
  · have hb : s.busy = true := by rw [State.busy, hpc]; rfl
    have hs := h.sequencer
    simp only [State.SequencerOk, hpc] at hs
    obtain ⟨hop, haddr, -⟩ := hs
    exact inv_of_cleared (h.outcome.cleared hb).1 (noError_of_busy (s := s) h hb) (by simp) ⟨hop, haddr⟩ h.link

/-- A counter that is not 0 stays under its bound when it is lowered. -/
theorem sub_one_le_of_le {d b : Word} (hd : d ≠ 0) (h : d ≤ b) : d - 1 ≤ b := by bv_omega

theorem tick_inv {s : State} (h : s.Inv) : s.tick.Inv := by
  obtain hn | ⟨hpc, hd, hn⟩ := tick_cases s <;> rw [hn]
  · exact h
  · obtain ⟨⟨cleared, cause, code, fatal⟩, hs, hlink⟩ := h
    refine ⟨⟨cleared, cause, code, fatal⟩, ?_, hlink⟩
    obtain hpc | hpc := hpc <;> simp only [State.SequencerOk, hpc] at hs ⊢
    · obtain ⟨hop, hun, h1, h10, hcnt⟩ := hs
      exact ⟨hop, hun, h1, h10, sub_one_le_of_le hd hcnt⟩
    · obtain ⟨hop, haddr, hcnt⟩ := hs
      exact ⟨hop, haddr, sub_one_le_of_le hd hcnt⟩

theorem hardReset_inv (s : State) : s.hardReset.Inv :=
  inv_congr (resetMeetsTheInvariant s.params) rfl rfl rfl rfl

/-- Settles O3, by the agent whose turn it is. -/
theorem everyStepKeepsTheInvariant : Obligations.EveryStepKeepsTheInvariant := by
  intro s t h hstep
  have hturn : s.takeTurn.Inv := inv_congr h (by simp) (by simp) (by simp) (by simp)
  obtain ⟨-, heff⟩ | ⟨r, -, rfl⟩ | ⟨-, rfl⟩ | ⟨-, rfl⟩ | ⟨-, rfl⟩ := step_cases hstep
  · obtain ⟨u, hu, ht⟩ := hostEffect_change heff
    rw [ht]
    exact inv_congr (hostChange_inv h hu) rfl rfl rfl rfl
  · exact answered_inv hturn r
  · exact delayEnd_inv hturn
  · exact tick_inv hturn
  · exact hardReset_inv _

end Sys2Proof.Machine
end

section
/-! PROOFS. The registers as the host sees them: what each reads as, what each write does, and what no turn of the host can
disturb. -/

namespace Sys2Proof.Machine

/-! ### The words that the host reads -/

/-- A flag stands at its own bit and nowhere else. -/
theorem getLsbD_flagAt (b : Bool) (n i : Nat) (h : i < 32) : (flagAt b n).getLsbD i = (b && decide (i = n)) := by
  rw [flagAt, BitVec.getLsbD_shiftLeft, BitVec.getLsbD_setWidth, BitVec.getLsbD_ofBool]
  by_cases hi : i = n
  · simp [hi, show n < 32 by omega]
  · by_cases hlt : i < n
    · simp [hi, hlt]
    · simp [hi, show i - n ≠ 0 by omega]

/-- A bit of STATUS: ERRCODE from bit 8 up, and the five flags (R33). -/
theorem getLsbD_statusWord (s : State) (i : Nat) (h : i < 32) :
    (statusWord s).getLsbD i =
      ((decide (8 ≤ i) && s.regs.errcode.code.getLsbD (i - 8)) || (s.fatal && decide (i = 4)) ||
        (s.regs.rej && decide (i = 3)) || (s.regs.err && decide (i = 2)) || (s.regs.done && decide (i = 1)) ||
        (s.busy && decide (i = 0))) := by
  have hcode : (s.regs.errcode.code.setWidth 32 <<< 8).getLsbD i =
      (decide (8 ≤ i) && s.regs.errcode.code.getLsbD (i - 8)) := by
    by_cases h8 : 8 ≤ i
    · simp [h, h8, show ¬ i < 8 by omega]
    · simp [h8, show i < 8 by omega]
  simp only [statusWord, BitVec.getLsbD_or, hcode, getLsbD_flagAt _ _ i h]

theorem busy_eq (s : State) : s.busy = (s.pc != .idle && s.pc != .fatal) := by
  unfold State.busy
  cases s.pc <;> rfl

/-- Above the flags STATUS holds the bits of ERRCODE, from bit 8 up, and 0 (R33). -/
theorem getLsbD_statusWord_above_flags (s : State) (i : Nat) (h5 : 5 ≤ i) (h : i < 32) :
    (statusWord s).getLsbD i = (decide (8 ≤ i) && s.regs.errcode.code.getLsbD (i - 8)) := by
  rw [getLsbD_statusWord s i h]
  simp [show i ≠ 4 by omega, show i ≠ 3 by omega, show i ≠ 2 by omega, show i ≠ 1 by omega, show i ≠ 0 by omega]

theorem statusWord_errcode (s : State) : (statusWord s).extractLsb' 8 4 = s.regs.errcode.code := by
  apply word_ext
  intro i hi
  rw [BitVec.getLsbD_extractLsb', getLsbD_statusWord_above_flags s _ (by omega) (by omega)]
  simp [hi]

theorem statusWord_low_reserved (s : State) : (statusWord s).extractLsb' 5 3 = 0 := by
  apply word_ext
  intro i hi
  rw [BitVec.getLsbD_extractLsb', getLsbD_statusWord_above_flags s _ (by omega) (by omega)]
  simp [show ¬ 8 ≤ 5 + i by omega]

theorem statusWord_high_reserved (s : State) : (statusWord s).extractLsb' 12 20 = 0 := by
  apply word_ext
  intro i hi
  have hcode : s.regs.errcode.code.getLsbD (12 + i - 8) = false := BitVec.getLsbD_of_ge _ _ (by omega)
  rw [BitVec.getLsbD_extractLsb', getLsbD_statusWord_above_flags s _ (by omega) (by omega)]
  simp [hcode]

/-- Settles O56, from the bits of the word. -/
theorem statusWordFields : Obligations.StatusWordFields := by
  intro s
  rw [csrRead_status]
  have code {c : ErrCode} (h : s.regs.errcode = c) : (statusWord s).extractLsb' 8 4 = c.code := by
    rw [statusWord_errcode, h]
  refine ⟨?_, ?_, ?_, ?_, ?_, statusWord_low_reserved s, statusWord_errcode s, statusWord_high_reserved s,
    code, code, code, code, code⟩
  · rw [getLsbD_statusWord s 0 (by decide)]; simp [busy_eq]
  · rw [getLsbD_statusWord s 1 (by decide)]; simp
  · rw [getLsbD_statusWord s 2 (by decide)]; simp
  · rw [getLsbD_statusWord s 3 (by decide)]; simp
  · rw [getLsbD_statusWord s 4 (by decide)]; simp [State.fatal]

theorem linkWord_of_some {s : State} {st : LinkStatus} (h : s.regs.link = some st) : csrRead s 0x1C = st.word := by
  rw [csrRead_link, linkWord, h]

/-- VALID is bit 7 of every status (R140). -/
theorem linkStatus_word_valid (st : LinkStatus) : st.word.getLsbD 7 = true := by
  cases st with
  | down => rfl
  | up speed duplex =>
    rw [LinkStatus.word, BitVec.getLsbD_or, BitVec.getLsbD_or, BitVec.getLsbD_or, getLsbD_flagAt true 7 7 (by decide)]
    simp

/-- Settles O43: the two words of each speed by evaluation. -/
theorem linkWordEncoding : Obligations.LinkWordEncoding := by
  refine ⟨fun s h => by rw [csrRead_link, linkWord, h], fun s h => linkWord_of_some h, fun s st h => ?_, ?_⟩
  · rw [linkWord_of_some h]
    exact ⟨rfl, linkStatus_word_valid st⟩
  · decide

theorem statusWord_of_clear {s : State} (hb : s.busy = false) (hd : s.regs.done = false) (he : s.regs.err = false)
    (hr : s.regs.rej = false) (hf : s.fatal = false) (hc : s.regs.errcode = .none) : statusWord s = 0 := by
  simp [statusWord, flagAt, ErrCode.code, hb, hd, he, hr, hf, hc]

/-- What every slot reads as when the registers are those of reset and nothing runs (R54). -/
theorem reads_of_reset (p : Params) (t : State) (hr : t.regs = Regs.reset p) (hpc : t.pc = .idle) :
    csrRead t 0x00 = 0 ∧ csrRead t 0x04 = 0 ∧ csrRead t 0x08 = 0 ∧ csrRead t 0x0C = 0 ∧ csrRead t 0x10 = 0 ∧
      csrRead t 0x14 = (phyAddrByte p.phyAddrReset).setWidth 32 ∧
      csrRead t 0x18 = 0x000001F4 ∧ csrRead t 0x1C = 0 ∧ csrRead t 0x20 = 0 := by
  have read (off : Nat) : csrRead t off = csrRead (State.resetWith p) off := csrRead_congr hr hpc off
  simp only [read]
  exact ⟨rfl, statusWord_of_clear rfl rfl rfl rfl rfl rfl, rfl, rfl, rfl, rfl, rfl, rfl, rfl⟩

/-- Settles O1: after a reset turn the registers and the label are those of `State.resetWith`. -/
theorem hardwareResetValues : Obligations.HardwareResetValues := by
  refine ⟨fun s rest h => ⟨_, step_reset h, ?_⟩, ?_⟩
  · obtain ⟨h0, h4, h8, hC, h10, h14, h18, h1C, h20⟩ :=
      reads_of_reset s.params (s.turned .reset rest).hardReset (by simp) (by simp)
    exact ⟨h0, h4, h8, hC, h10, h14, h18, h1C, h20, rfl, rfl⟩
  · obtain ⟨h0, h4, h8, hC, h10, h14, h18, h1C, h20⟩ := reads_of_reset Params.default State.reset rfl rfl
    exact ⟨h0, h4, h8, hC, h10, h14, h18, h1C, h20, rfl⟩

theorem ctrlWord_reserved (s : State) : (ctrlWord s).extractLsb' 1 31 = 0 := by
  apply word_ext
  intro i hi
  rw [BitVec.getLsbD_extractLsb', ctrlWord, getLsbD_flagAt _ _ _ (by omega)]
  simp

theorem ctrlWord_ie (s : State) : (ctrlWord s).getLsbD 0 = s.regs.ie := by
  rw [ctrlWord, getLsbD_flagAt _ _ _ (by decide)]
  simp

theorem rdata_low_half (d : Half) : (d.setWidth 32).extractLsb' 0 16 = d := by
  apply word_ext
  intro i hi
  simp [hi, show i < 32 by omega]

theorem rdata_high_half (d : Half) : (d.setWidth 32).extractLsb' 16 16 = 0 := by
  apply word_ext
  intro i hi
  simp

theorem csrRead_phyaddr_known {s : State} {a : Addr5} (h : s.regs.phyaddr = .known a) :
    (csrRead s 0x14).toNat = a.toNat := by
  rw [csrRead_phyaddr, h]
  show ((a.setWidth 8).setWidth 32).toNat = a.toNat
  simp only [BitVec.toNat_setWidth]
  omega

/-- Settles O54: the register words, and that a read only notes what it returned. -/
theorem readsHaveNoSideEffect : Obligations.ReadsHaveNoSideEffect := by
  refine ⟨fun s => ?_, fun s off ps rest h h1 h2 => ?_⟩
  · exact ⟨ctrlWord_ie s, ctrlWord_reserved s, rfl, rfl, rdata_low_half _, rdata_high_half _,
      fun a h => csrRead_phyaddr_known h, fun h => by rw [csrRead_phyaddr, h]; rfl, rfl, rfl,
      fun off h => csrRead_reserved s h⟩
  · exact ⟨_, step_hostReads h h1 h2, rfl, rfl, rfl, rfl, rfl, rfl, fun o => csrRead_congr rfl rfl o⟩

/-! ### The writes -/

/-- Settles O51. -/
theorem statusIsWriteOneToClear : Obligations.StatusIsWriteOneToClear := by
  intro s v ps rest h
  rw [step_csrWrite h (by decide) (by decide) (by decide), csrWrite_status]
  cases v.getLsbD 1 <;> cases v.getLsbD 3 <;> simp [hostDone_eq]

/-- Settles O53: CTRL, ARG and POLLINT, and the slots that take nothing. -/
theorem plainRegisterWrites : Obligations.PlainRegisterWrites := by
  intro s off v ps rest h
  refine ⟨?_, ?_, ?_, fun hoff => ?_⟩
  · rintro rfl
    rw [step_csrWrite h (by decide) (by decide) (by decide), csrWrite_ctrl]
    rfl
  · rintro rfl hb
    rw [step_csrWrite h (by decide) (by decide) (by decide), csrWrite_arg, unlessBusy_of_not_busy (by simpa)]
    rfl
  · rintro rfl hb
    rw [step_csrWrite h (by decide) (by decide) (by decide), csrWrite_pollint, unlessBusy_of_not_busy (by simpa)]
    rfl
  · have hw : off ∉ writableSlots := by simp [writableSlots]; omega
    rw [step_csrWrite h (by omega) (by omega) (by omega), csrWrite_of_not_writable _ v hw]

/-- A legal byte is what PHYADDR reads as after it is written (R41). -/
theorem phyAddrByte_write_of_legal {v : Word} (old : PhyAddr)
    (h : (v.extractLsb' 0 8).toNat ≤ 0x1F ∨ v.extractLsb' 0 8 = 0xFF) :
    phyAddrByte (phyAddrWrite v old) = v.extractLsb' 0 8 := by
  unfold phyAddrWrite
  generalize v.extractLsb' 0 8 = b at h
  by_cases hb : b ≤ 0x1F
  · have hlt : b.toNat ≤ 0x1F := BitVec.le_def.1 hb
    simp only [if_pos hb, phyAddrByte]
    apply BitVec.eq_of_toNat_eq
    simp
    omega
  · obtain h | h := h
    · exact absurd (BitVec.le_def.2 h) hb
    · simp [h, phyAddrByte]

theorem phyAddrWrite_of_illegal {v : Word} (old : PhyAddr) (h1 : 0x20 ≤ (v.extractLsb' 0 8).toNat)
    (h2 : (v.extractLsb' 0 8).toNat ≤ 0xFE) : phyAddrWrite v old = old := by
  unfold phyAddrWrite
  generalize v.extractLsb' 0 8 = b at h1 h2
  have hle : ¬ b ≤ 0x1F := by bv_omega
  have hne : b ≠ 0xFF := by bv_omega
  simp only [if_neg hle, if_neg hne]

/-- Settles O52, from the two cases of the byte. -/
theorem phyaddrWriteIsLegalised : Obligations.PhyaddrWriteIsLegalised := by
  intro s v ps rest h hb
  refine ⟨{ s.hostDone ps rest with regs := { s.regs with phyaddr := phyAddrWrite v s.regs.phyaddr } },
    ?_, fun hv => ?_, fun h1 h2 => ?_, rfl⟩
  · rw [step_csrWrite h (by decide) (by decide) (by decide), csrWrite_phyaddr, unlessBusy_of_not_busy (by simpa)]
    rfl
  · rw [csrRead_phyaddr, phyAddrByte_write_of_legal _ hv]
  · rw [csrRead_phyaddr, phyAddrWrite_of_illegal _ h1 h2, csrRead_phyaddr]

/-- A write to a guarded slot, or to CMD, while BUSY = 1 (R38). -/
theorem step_write_of_busy {s : State} {off : Nat} {v : Word} {ps : List HostOp} {rest : List Turn}
    (h : s.HostWrites off v ps rest) (hb : s.busy = true)
    (hoff : off = 0x08 ∨ off = 0x0C ∨ off = 0x14 ∨ off = 0x18) : step s = .next (s.hostDone ps rest).reject := by
  have hb' : (s.hostDone ps rest).busy = true := by simpa
  obtain rfl | rfl | rfl | rfl := hoff
  · rw [step_csrWrite h (by decide) (by decide) (by decide), csrWrite_arg, unlessBusy_of_busy hb']
  · rw [step_cmdWrite h, issueChange_of_not_idle (cmdEffect_change _ v) (ne_idle_of_busy hb')]
  · rw [step_csrWrite h (by decide) (by decide) (by decide), csrWrite_phyaddr, unlessBusy_of_busy hb']
  · rw [step_csrWrite h (by decide) (by decide) (by decide), csrWrite_pollint, unlessBusy_of_busy hb']

/-- Settles O49, slot by slot. -/
theorem writesRefusedWhileBusy : Obligations.WritesRefusedWhileBusy := by
  intro s off v ps rest h h1 h2
  refine ⟨fun hb hoff => step_write_of_busy h hb hoff, ?_, fun hf hoff => ?_, fun hoff => ?_, ?_⟩
  · rintro hf rfl
    have hpc : (s.hostDone ps rest).pc ≠ .idle := by simp [hf]
    rw [step_cmdWrite h, issueChange_of_not_idle (cmdEffect_change _ v) hpc]
    rfl
  · have hb : (s.hostDone ps rest).busy = false := not_busy_of_fatal hf
    have hstep := step_csrWrite h h1 h2 (by omega)
    obtain rfl | rfl | rfl := hoff
    · rw [csrWrite_arg, unlessBusy_of_not_busy hb] at hstep
      exact ⟨_, hstep, rfl, fun _ => rfl, by simp, by simp⟩
    · rw [csrWrite_phyaddr, unlessBusy_of_not_busy hb] at hstep
      exact ⟨_, hstep, rfl, by simp, fun _ => rfl, by simp⟩
    · rw [csrWrite_pollint, unlessBusy_of_not_busy hb] at hstep
      exact ⟨_, hstep, rfl, by simp, by simp, fun _ => rfl⟩
  · refine ⟨_, step_csrWrite h h1 h2 (by omega), ?_⟩
    obtain rfl | hoff := hoff
    · rfl
    · have hw : off ∉ writableSlots := by simp [writableSlots]; omega
      rw [csrWrite_of_not_writable _ v hw]
      rfl
  · rintro rfl
    refine ⟨_, step_csrWrite h h1 h2 (by decide), fun hrej => ?_⟩
    rw [csrWrite_status] at hrej
    exact (Bool.and_eq_true_iff.1 hrej).1

/-! ### What the host cannot disturb -/

/-- Settles O15: a CMD write is one of the three issue changes. -/
theorem issueFrame : Obligations.IssueFrame := by
  intro i s t hturn hexec
  rw [exec_issued i hturn] at hexec
  injection hexec with hexec
  subst hexec
  have hc := issued_change s i
  obtain ⟨hp, hh, he, hie, harg, hrd, hphy, hpoll, hlink⟩ := issueChange_frame hc
  exact ⟨hp, hh, he, hie, harg, hrd, hphy, hpoll, hlink, issueChange_rej_of_idle hc, issueChange_of_not_idle hc⟩

/-- Settles O50: whatever the host does is one of its changes, and with a command running none of them reaches it. -/
theorem hostCannotDisturbARunningCommand : Obligations.HostCannotDisturbARunningCommand := by
  intro s t hb hstep hturn
  obtain ⟨-, heff⟩ | ⟨r, h, -⟩ | ⟨h, -⟩ | ⟨h, -⟩ | ⟨h, -⟩ := step_cases hstep
  case inl =>
    obtain ⟨u, hu, ht⟩ := hostEffect_change heff
    obtain ⟨hp, hh, hrd, hlink⟩ := hostChange_frame hu
    obtain ⟨hpc, hl, herr, hcode, hbus⟩ := hostChange_of_not_idle hu (ne_idle_of_busy hb)
    obtain ⟨harg, hphy, hpoll⟩ := hostChange_of_busy hu hb
    rw [ht]
    exact ⟨hpc, hl, hh, hp, harg, hphy, hpoll, hrd, hlink, herr, hcode, hbus⟩
  all_goals
    rw [h] at hturn
    cases hturn

end Sys2Proof.Machine
end

section
/-! PROOFS. What the sequencer's steps write and what they leave alone. -/

namespace Sys2Proof.Machine

/-! ### Turns that find nothing to do -/

theorem answered_of_not_busy {s : State} (h : s.busy = false) (r : BusAnswer) : s.answered r = s :=
  answered_of_idle r ((running_none_iff s).2 h)

theorem delayEnd_of_not_busy {s : State} (h : s.busy = false) : s.delayEnd = s :=
  delayEnd_of_idle ((running_none_iff s).2 h)

theorem delayEnd_of_not_delaying {s : State} (h : s.pc ≠ .dscD ∧ s.pc ≠ .polD) : s.delayEnd = s := by
  obtain hn | ⟨hpc, -⟩ | ⟨hpc, -⟩ := delayEnd_cases s
  · exact hn
  · exact absurd hpc h.1
  · exact absurd hpc h.2

theorem tick_of_not_delaying {s : State} (h : s.pc ≠ .dscD ∧ s.pc ≠ .polD) : s.tick = s := by
  obtain hn | ⟨hpc | hpc, -⟩ := tick_cases s
  · exact hn
  · exact absurd hpc h.1
  · exact absurd hpc h.2

/-- Settles O37: in FATAL no turn but reset reaches the sequencer, and the host reaches no result. -/
theorem fatalIsLeftOnlyByReset : Obligations.FatalIsLeftOnlyByReset := by
  intro s t hpc hstep hreset
  have hfatal : s.takeTurn.pc = .fatal := by simpa
  have hb : s.takeTurn.busy = false := not_busy_of_fatal hfatal
  obtain ⟨-, heff⟩ | ⟨r, -, rfl⟩ | ⟨-, rfl⟩ | ⟨-, rfl⟩ | ⟨h, -⟩ := step_cases hstep
  · obtain ⟨u, hu, ht⟩ := hostEffect_change heff
    obtain ⟨-, hh, hrd, hlink⟩ := hostChange_frame hu
    obtain ⟨hpc', hl, herr, hcode, hbus⟩ := hostChange_of_not_idle hu (by simp [hpc])
    rw [ht]
    exact ⟨hpc'.trans hpc, hl, hh, herr, hcode, hrd, hlink, hbus⟩
  · rw [answered_of_not_busy hb r]
    simp [hpc]
  · rw [delayEnd_of_not_busy hb]
    simp [hpc]
  · rw [tick_of_not_delaying (by rw [hfatal]; decide)]
    simp [hpc]
  · exact absurd h hreset

/-! ### The primitive in flight -/

theorem inFlight_congr {s t : State} (hp : t.params = s.params) (hpc : t.pc = s.pc) (hl : t.latch = s.latch) :
    t.inFlight = s.inFlight := by
  simp only [State.inFlight, hp, hpc, hl]

theorem not_delaying_of_inFlight {s : State} {q : BusRequest} (h : s.inFlight = some q) :
    s.pc ≠ .dscD ∧ s.pc ≠ .polD := by
  constructor <;> intro hpc <;> simp [State.inFlight, hpc] at h

@[simp] theorem afterOk_history (s : State) (v : Half) : (s.afterOk v).history = s.history := by
  unfold State.afterOk
  repeat' split
  all_goals simp

/-- An answer appends the one event of the primitive in flight (R186). -/
theorem answered_history {s : State} {q : BusRequest} (h : s.inFlight = some q) (r : BusAnswer) :
    (s.answered r).history = s.history ++ [BusEvent.of q r] := by
  unfold State.answered
  rw [h]
  cases r <;> simp

theorem answered_of_none {s : State} (h : s.inFlight = none) (r : BusAnswer) : s.answered r = s := by
  unfold State.answered
  rw [h]

/-- With a primitive in flight, the sequencer waits for its answer (R182). -/
theorem step_holds {s t : State} {q : BusRequest} (hq : s.inFlight = some q) (hstep : step s = .next t)
    (hbus : ∀ r, t.env.turn ≠ .bus r) (hreset : t.env.turn ≠ .reset) :
    t.inFlight = some q ∧ t.pc = s.pc ∧ t.latch = s.latch ∧ t.history = s.history := by
  have held {u : State} (hp : u.params = s.params) (hpc : u.pc = s.pc) (hl : u.latch = s.latch)
      (hh : u.history = s.history) :
      u.inFlight = some q ∧ u.pc = s.pc ∧ u.latch = s.latch ∧ u.history = s.history :=
    ⟨(inFlight_congr hp hpc hl).trans hq, hpc, hl, hh⟩
  have hnd : s.takeTurn.pc ≠ .dscD ∧ s.takeTurn.pc ≠ .polD := by simpa using not_delaying_of_inFlight hq
  obtain ⟨-, heff⟩ | ⟨r, h, -⟩ | ⟨-, rfl⟩ | ⟨-, rfl⟩ | ⟨h, -⟩ := step_cases hstep
  · obtain ⟨u, hu, ht⟩ := hostEffect_change heff
    obtain ⟨hp, hh, -, -⟩ := hostChange_frame hu
    obtain ⟨hpc, hl, -⟩ := hostChange_of_not_idle hu (ne_idle_of_busy (busy_of_inFlight hq))
    rw [ht]
    exact held hp hpc hl hh
  · exact absurd h (hbus r)
  · rw [delayEnd_of_not_delaying hnd]
    exact held (by simp) (by simp) (by simp) (by simp)
  · rw [tick_of_not_delaying hnd]
    exact held (by simp) (by simp) (by simp) (by simp)
  · exact absurd h hreset

/-! ### Runs up to the answer -/

theorem stepN_succ_next {s t : State} {n : Nat} (h : stepN (n + 1) s = .next t) :
    ∃ u, step s = .next u ∧ stepN n u = .next t := by
  simp only [stepN] at h
  cases hs : step s <;> simp only [hs, reduceCtorEq] at h
  exact ⟨_, rfl, h⟩

theorem stepN_add_next {s t : State} {m n : Nat} (h : stepN (m + n) s = .next t) :
    ∃ u, stepN m s = .next u ∧ stepN n u = .next t := by
  rw [stepN_add] at h
  cases hs : stepN m s <;> simp only [hs, reduceCtorEq] at h
  exact ⟨_, rfl, h⟩

theorem firstTurns_length (n : Nat) (turns : Nat → Turn) : (firstTurns n turns).length = n := by
  induction n generalizing turns with
  | zero => rfl
  | succ n ih => rw [firstTurns, List.length_cons, ih]

theorem exists_of_mem_firstTurns {n : Nat} {turns : Nat → Turn} {trn : Turn} (h : trn ∈ firstTurns n turns) :
    ∃ k, k < n ∧ turns k = trn := by
  induction n with
  | zero => cases h
  | succ n ih =>
    rw [firstTurns_succ, List.mem_append, List.mem_singleton] at h
    obtain h | rfl := h
    · obtain ⟨k, hk, hkt⟩ := ih h
      exact ⟨k, by omega, hkt⟩
    · exact ⟨n, by omega, rfl⟩

/-- Along turns that are neither answers nor resets the primitive stays in flight, and no event is added (R182). -/
theorem run_holds {q : BusRequest} {rest : List Turn} (turns : List Turn) {s t : State} (hq : s.inFlight = some q)
    (hsched : s.env.sched = turns ++ rest) (hturns : ∀ trn ∈ turns, trn ≠ .reset ∧ ∀ r, trn ≠ .bus r)
    (hrun : stepN turns.length s = .next t) :
    t.inFlight = some q ∧ t.history = s.history ∧ t.env.sched = rest := by
  induction turns generalizing s with
  | nil =>
    injection hrun with hrun
    subst hrun
    exact ⟨hq, rfl, hsched⟩
  | cons trn more ih =>
    obtain ⟨u, hstep, hrest⟩ := stepN_succ_next hrun
    obtain ⟨hsu, hturn⟩ := step_takes_its_turn hsched hstep
    obtain ⟨hreset, hbus⟩ := hturns trn (by simp)
    obtain ⟨hqu, -, -, hhu⟩ := step_holds hq hstep (by simpa [hturn] using hbus) (by simpa [hturn] using hreset)
    obtain ⟨hqt, hht, hst⟩ := ih hqu hsu (fun x hx => hturns x (by simp [hx])) hrest
    exact ⟨hqt, hht.trans hhu, hst⟩

/-- A live backend answers the primitive in flight at its first turn, unless a reset comes before (R182). -/
theorem answered_of_live {s : State} {q : BusRequest} (hq : s.inFlight = some q) {turns : Nat → Turn}
    (hlive : BackendLive turns) (hgo : s.GoesOn turns) :
    ∃ n t, stepN n (s.scheduled (firstTurns n turns)) = .next t ∧
      (Turn.reset ∈ firstTurns n turns ∨ ∃ r, t.env.turn = .bus r ∧ t.history = s.history ++ [BusEvent.of q r]) := by
  classical
  have hex : ∃ j, ∃ r, turns j = .bus r := by
    obtain ⟨j, r, -, hj⟩ := hlive 0
    exact ⟨j, r, hj⟩
  obtain ⟨j, ⟨r, hj⟩, hfirst⟩ : ∃ j, (∃ r, turns j = .bus r) ∧ ∀ k, k < j → ¬ ∃ r, turns k = .bus r :=
    ⟨Nat.find hex, Nat.find_spec hex, fun k hk => Nat.find_min hex hk⟩
  by_cases hreset : Turn.reset ∈ firstTurns j turns
  · obtain ⟨t, ht⟩ := hgo j
    exact ⟨j, t, ht, .inl hreset⟩
  · obtain ⟨t, ht⟩ := hgo (j + 1)
    refine ⟨j + 1, t, ht, .inr ⟨r, ?_⟩⟩
    obtain ⟨u, hu, hlast⟩ := stepN_add_next ht
    have hturns : ∀ trn ∈ firstTurns j turns, trn ≠ .reset ∧ ∀ r, trn ≠ .bus r := by
      intro trn htrn
      obtain ⟨k, hk, hkt⟩ := exists_of_mem_firstTurns htrn
      exact ⟨fun h => hreset (h ▸ htrn), fun r' h => hfirst k hk ⟨r', hkt.trans h⟩⟩
    obtain ⟨hqu, hhu, hsu⟩ := run_holds (q := q) (rest := [turns j]) (firstTurns j turns)
      (s := s.scheduled (firstTurns (j + 1) turns)) hq (firstTurns_succ j turns) hturns (by rwa [firstTurns_length])
    rw [hj] at hsu
    obtain ⟨t', hstep, hend⟩ := stepN_succ_next hlast
    injection hend with hend
    subst hend
    refine ⟨(step_takes_its_turn hsu hstep).2, ?_⟩
    rw [step_bus hsu] at hstep
    injection hstep with hstep
    rw [← hstep, answered_history (s := u.turned (.bus r) []) hqu, State.turned_history, hhu, State.scheduled_history]

/-- Settles O17: what an answer does, what every other turn leaves, and that a live backend answers. -/
theorem answersAppendThePrimitiveInFlight : Obligations.AnswersAppendThePrimitiveInFlight := by
  refine ⟨fun s r rest h => ⟨fun q hq => ⟨_, step_bus h, answered_history (s := s.turned (.bus r) rest) hq r⟩, fun hn => ?_⟩,
    fun s q hq => ⟨fun rest h => ?_, fun t hstep hbus hreset => step_holds hq hstep hbus hreset,
      fun turns hlive hgo => answered_of_live hq hlive hgo⟩⟩
  · rw [step_bus h, answered_of_none (s := s.turned (.bus r) rest) hn]
  · rw [step_seq h, delayEnd_of_not_delaying (s := s.turned .seq rest) (not_delaying_of_inFlight hq)]

/-! ### The registers that an Ok answer writes -/

/-- What an `Ok` answer does to the registers: nothing, or the command ends and at most one result register is written. -/
inductive State.OkWrites (s : State) (v : Half) (t : State) : Prop
  | kept (hr : t.regs = s.regs)
  | ended (hpc : t.pc = .idle) (hr : t.regs = { s.regs with done := true })
  | read (h : s.pc = .c22r ∨ s.pc = .c45dr) (hpc : t.pc = .idle) (hr : t.regs = { s.regs with rdata := v, done := true })
  | found (h : s.pc = .dscP) (hv : resetBit v = false) (hpc : t.pc = .idle)
      (hr : t.regs = { s.regs with phyaddr := .known s.latch.cand, done := true })
  | polled (st : LinkStatus) (h : s.pc = .polS ∧ st = .down ∨ s.pc = .polP ∧ st = resolve (s.latch.anar &&& v))
      (hpc : t.pc = .idle) (hr : t.regs = { s.regs with link := some st, done := true })

theorem afterOk_writes (s : State) (v : Half) : s.OkWrites v (s.afterOk v) := by
  cases hpc : s.pc <;> simp only [State.afterOk, hpc]
  case idle | fatal | dscD | polD | c45ca | c45rn | c45co | rstW | dscW | iniCA | iniRN | iniCO | iniDW | polA =>
    exact .kept rfl
  case c22r => exact .read (.inl hpc) rfl rfl
  case c45dr => exact .read (.inr hpc) rfl rfl
  case c22w | c45dw | iniBM => exact .ended rfl rfl
  case rstP =>
    split
    · exact .kept rfl
    · exact .ended rfl rfl
  case dscP =>
    split
    · exact .kept rfl
    · next hv => exact .found hpc (by simpa using hv) rfl rfl
  case polS =>
    split
    · exact .kept rfl
    · exact .polled .down (.inl ⟨hpc, rfl⟩) rfl rfl
  case polP => exact .polled _ (.inr ⟨hpc, rfl⟩) rfl rfl

/-- The writes are read off the registers, the label and the latches of the state before. -/
theorem okWrites_congr {s u t : State} {v : Half} (hr : u.regs = s.regs) (hpc : u.pc = s.pc) (hl : u.latch = s.latch)
    (h : u.OkWrites v t) : s.OkWrites v t := by
  cases h with
  | kept h => exact .kept (by rw [h, hr])
  | ended h h' => exact .ended h (by rw [h', hr])
  | read h h' h'' => exact .read (by rwa [← hpc]) h' (by rw [h'', hr])
  | found h hv h' h'' => exact .found (by rwa [← hpc]) hv h' (by rw [h'', hr, hl])
  | polled st h h' h'' => exact .polled st (by rwa [← hpc, ← hl]) h' (by rw [h'', hr])

theorem discoveryNext_results (s : State) :
    s.discoveryNext.regs.rdata = s.regs.rdata ∧ s.discoveryNext.regs.link = s.regs.link ∧
      s.discoveryNext.regs.phyaddr = s.regs.phyaddr := by
  obtain ⟨-, hn⟩ | hn | hn := discoveryNext_cases s <;> rw [hn] <;> exact ⟨rfl, rfl, rfl⟩

theorem delayEnd_results (s : State) :
    s.delayEnd.regs.rdata = s.regs.rdata ∧ s.delayEnd.regs.link = s.regs.link ∧
      s.delayEnd.regs.phyaddr = s.regs.phyaddr := by
  obtain hn | ⟨-, hn⟩ | ⟨-, hn⟩ := delayEnd_cases s <;> rw [hn]
  · exact ⟨rfl, rfl, rfl⟩
  · exact discoveryNext_results s
  · exact ⟨rfl, rfl, rfl⟩

theorem tick_regs (s : State) : s.tick.regs = s.regs := by
  obtain hn | ⟨-, -, hn⟩ := tick_cases s <;> rw [hn]

/-- WHO WRITES THE RESULTS: a step other than reset leaves RDATA and LINK, and as the sequencer's step PHYADDR, as they
were, or it is an `Ok` answer with the writes of its label (R39, R42, R44). -/
theorem step_results {s t : State} (hstep : step s = .next t) (hreset : t.env.turn ≠ .reset) :
    (t.regs.rdata = s.regs.rdata ∧ t.regs.link = s.regs.link ∧
      (t.env.turn.sequencer = true → t.regs.phyaddr = s.regs.phyaddr)) ∨
    ∃ v, t.env.turn = .bus (.ok v) ∧ s.OkWrites v t := by
  obtain ⟨hturn, heff⟩ | ⟨r, hturn, rfl⟩ | ⟨-, rfl⟩ | ⟨-, rfl⟩ | ⟨h, -⟩ := step_cases hstep
  · obtain ⟨u, hu, ht⟩ := hostEffect_change heff
    obtain ⟨-, -, hrd, hlink⟩ := hostChange_frame hu
    refine .inl ⟨by rw [ht]; exact hrd, by rw [ht]; exact hlink, fun hs => ?_⟩
    rw [hturn] at hs
    cases hs
  · obtain ⟨-, ha⟩ | ⟨q, v, -, rfl, ha⟩ | ⟨q, e, -, -, ha⟩ := answered_cases s.takeTurn r
    · exact .inl (by simp [ha])
    · refine .inr ⟨v, hturn, ?_⟩
      rw [ha]
      exact okWrites_congr (by simp) (by simp) (by simp) (afterOk_writes _ v)
    · exact .inl (by simp [ha])
  · exact .inl (by simp [delayEnd_results])
  · exact .inl (by simp [tick_regs])
  · exact absurd h hreset

/-- Settles O46: among the writes of an `Ok` answer, only the end of a read command writes RDATA. -/
theorem onlySuccessfulReadsWriteRdata : Obligations.OnlySuccessfulReadsWriteRdata := by
  intro s t hstep hne hreset
  obtain ⟨hrd, -⟩ | ⟨v, hturn, hw⟩ := step_results hstep hreset
  · exact absurd hrd hne
  · cases hw with
    | read h hpc hr => exact ⟨h, hpc, by rw [hr], by rw [hturn, hr]⟩
    | kept hr | ended _ hr | found _ _ _ hr | polled _ _ _ hr => exact absurd (by rw [hr]) hne

/-- Settles O47: among the writes of an `Ok` answer, only `found` writes PHYADDR. -/
theorem sequencerWritesPhyaddrOnlyWhenFound : Obligations.SequencerWritesPhyaddrOnlyWhenFound := by
  intro s t hstep hseq hne
  have hreset : t.env.turn ≠ .reset := by
    intro h
    rw [h] at hseq
    cases hseq
  obtain ⟨-, -, hphy⟩ | ⟨v, hturn, hw⟩ := step_results hstep hreset
  · exact absurd (hphy hseq) hne
  · cases hw with
    | found h hv hpc hr => exact ⟨h, hpc, by rw [hr], v, hturn, hv⟩
    | kept hr | ended _ hr | read _ _ hr | polled _ _ _ hr => exact absurd (by rw [hr]) hne

/-! ### The labels of a poll -/

/-- An `Ok` answer leads into the ANAR read from a BMSR read with both bits set, and into the ANLPAR read from the ANAR
read (R241, R242). -/
theorem afterOk_pc_cases (s : State) (v : Half) :
    ((s.afterOk v).pc ≠ .polA ∧ (s.afterOk v).pc ≠ .polP) ∨
    (s.pc = .polS ∧ anComplete v = true ∧ linkUp v = true ∧ (s.afterOk v).pc = .polA) ∨
    (s.pc = .polA ∧ (s.afterOk v).pc = .polP) := by
  cases hpc : s.pc <;> simp only [State.afterOk, hpc]
  case polA => exact .inr (.inr (by simp))
  case polS =>
    split
    · next hv =>
      rw [Bool.and_eq_true] at hv
      exact .inr (.inl ⟨trivial, hv.1, hv.2, rfl⟩)
    · exact .inl (by simp)
  case c45co => exact .inl (by split <;> simp)
  case rstP | dscP => exact .inl (by split <;> simp)
  all_goals exact .inl (by simp)

theorem delayEnd_pc_cases (s : State) : s.delayEnd.pc = s.pc ∨ (s.delayEnd.pc ≠ .polA ∧ s.delayEnd.pc ≠ .polP) := by
  obtain hn | ⟨-, hn⟩ | ⟨-, hn⟩ := delayEnd_cases s <;> rw [hn]
  · exact .inl rfl
  · obtain ⟨-, hn⟩ | hn | hn := discoveryNext_cases s <;> rw [hn] <;> exact .inr (by simp)
  · exact .inr (by simp)

theorem tick_pc (s : State) : s.tick.pc = s.pc := by
  obtain hn | ⟨-, -, hn⟩ := tick_cases s <;> rw [hn]

/-- How a step comes to the second and third read of a poll (R248). -/
theorem step_pc_cases {s t : State} (hstep : step s = .next t) :
    t.pc = s.pc ∨ (t.pc ≠ .polA ∧ t.pc ≠ .polP) ∨
    (∃ v, t.env.turn = .bus (.ok v) ∧ s.pc = .polS ∧ anComplete v = true ∧ linkUp v = true ∧ t.pc = .polA) ∨
    (s.pc = .polA ∧ t.pc = .polP) := by
  obtain ⟨-, heff⟩ | ⟨r, hturn, rfl⟩ | ⟨-, rfl⟩ | ⟨-, rfl⟩ | ⟨-, rfl⟩ := step_cases hstep
  · obtain ⟨u, hu, ht⟩ := hostEffect_change heff
    rw [ht]
    obtain hpc | hpc := hostChange_pc hu
    · exact .inl hpc
    · exact .inr (.inl ⟨fun h => absurd (h ▸ hpc) (by decide), fun h => absurd (h ▸ hpc) (by decide)⟩)
  · obtain ⟨-, ha⟩ | ⟨q, v, -, rfl, ha⟩ | ⟨q, e, -, -, ha⟩ := answered_cases s.takeTurn r
    · exact .inl (by simp [ha])
    · obtain hn | ⟨hS, hv1, hv2, hA⟩ | ⟨hA, hP⟩ := afterOk_pc_cases (s.takeTurn.record q (.ok v)) v
      · exact .inr (.inl (by rwa [ha]))
      · exact .inr (.inr (.inl ⟨v, hturn, by simpa using hS, hv1, hv2, by rwa [ha]⟩))
      · exact .inr (.inr (.inr ⟨by simpa using hA, by rwa [ha]⟩))
    · exact .inr (.inl (by simp [ha]))
  · obtain hpc | hn := delayEnd_pc_cases s.takeTurn
    · exact .inl (by simpa using hpc)
    · exact .inr (.inl hn)
  · exact .inl (by simp [tick_pc])
  · exact .inr (.inl (by simp))

/-- Settles O44: the writes of an `Ok` answer, and the ways into the ANAR and ANLPAR reads. -/
theorem onlyASuccessfulPollWritesLink : Obligations.OnlyASuccessfulPollWritesLink := by
  intro s t hstep
  refine ⟨fun hne hreset => ?_, fun hA hnA => ?_, fun hP hnP => ?_⟩
  · obtain ⟨-, hlink, -⟩ | ⟨v, hturn, hw⟩ := step_results hstep hreset
    · exact absurd hlink hne
    · cases hw with
      | polled st h hpc hr =>
        refine ⟨v, hturn, hpc, by rw [hr], ?_⟩
        obtain ⟨hS, rfl⟩ | ⟨hP, rfl⟩ := h
        · exact .inl ⟨hS, by rw [hr]⟩
        · exact .inr ⟨hP, by rw [hr]⟩
      | kept hr | ended _ hr | read _ _ hr | found _ _ _ hr => exact absurd (by rw [hr]) hne
  · obtain h | ⟨h, -⟩ | ⟨v, hturn, hS, hv1, hv2, -⟩ | ⟨h, -⟩ := step_pc_cases hstep
    · exact absurd (h.symm.trans hA) hnA
    · exact absurd hA h
    · exact ⟨hS, v, hturn, hv1, hv2⟩
    · exact absurd h hnA
  · obtain h | ⟨-, h⟩ | ⟨v, -, -, -, -, h⟩ | ⟨h, -⟩ := step_pc_cases hstep
    · exact absurd (h.symm.trans hP) hnP
    · exact absurd hP h
    · exact absurd (h.symm.trans hP) (by decide)
    · exact h

/-! ### Two polls -/

/-- Two machines at one label of POLL_LINK that agree on what a poll reads: the address, the ANAR latch and the delay
counter (R246). -/
structure State.PollAgrees (s s' : State) : Prop where
  pc : s'.pc = s.pc
  pa : s'.latch.pa = s.latch.pa
  anar : s'.latch.anar = s.latch.anar
  dcnt : s'.latch.dcnt = s.latch.dcnt

/-- The labels of POLL_LINK (R164, R240 to R243). -/
def State.Polling (s : State) : Prop := s.pc = .polD ∨ s.pc = .polS ∨ s.pc = .polA ∨ s.pc = .polP

theorem pollAgrees_inFlight {s s' : State} (hp : s.Polling) (h : s.PollAgrees s') : s'.inFlight = s.inFlight := by
  obtain hpc | hpc | hpc | hpc := hp <;> simp only [State.inFlight, h.pc, hpc, h.pa]

/-- The same answer leads both to the same label and latches, and where the poll ends, to the same LINK. -/
theorem pollAgrees_afterOk {s s' : State} (hp : s.Polling) (h : s.PollAgrees s') (v : Half) :
    (s.afterOk v).PollAgrees (s'.afterOk v) ∧
      ((s.afterOk v).pc = .idle → (s'.afterOk v).regs.link = (s.afterOk v).regs.link) := by
  obtain ⟨hpc', hpa, hanar, hdcnt⟩ := h
  obtain hpc | hpc | hpc | hpc := hp <;> rw [hpc] at hpc' <;> simp only [State.afterOk, hpc, hpc']
  · exact ⟨⟨hpc'.trans hpc.symm, hpa, hanar, hdcnt⟩, by simp⟩
  · split
    · exact ⟨⟨rfl, hpa, hanar, hdcnt⟩, by simp⟩
    · exact ⟨⟨rfl, hpa, hanar, hdcnt⟩, fun _ => rfl⟩
  · exact ⟨⟨rfl, hpa, rfl, hdcnt⟩, by simp⟩
  · exact ⟨⟨rfl, hpa, hanar, hdcnt⟩, fun _ => by simp [hanar]⟩

theorem polling_ne_idle {s : State} (hp : s.Polling) : s.pc ≠ .idle := by
  obtain hpc | hpc | hpc | hpc := hp <;> simp [hpc]

/-- An answer leads both to the same label and latches, with the same event, and where the poll ends without an error, to
the same LINK. -/
theorem pollAgrees_answered {s s' : State} (hp : s.Polling) (h : s.PollAgrees s') (r : BusAnswer) :
    (s.answered r).PollAgrees (s'.answered r) ∧
      ((s.answered r).pc = .idle → (∀ e, r ≠ .err e) → (s'.answered r).regs.link = (s.answered r).regs.link) ∧
      (s.answered r).history.drop s.history.length = (s'.answered r).history.drop s'.history.length := by
  have hin := pollAgrees_inFlight hp h
  cases hq : s.inFlight with
  | none =>
    rw [answered_of_none hq, answered_of_none (hin.trans hq)]
    exact ⟨h, fun hi => absurd hi (polling_ne_idle hp), by simp⟩
  | some q =>
    have hdrop : (s.answered r).history.drop s.history.length = (s'.answered r).history.drop s'.history.length := by
      simp [answered_history hq, answered_history (hin.trans hq)]
    rw [← and_assoc]
    refine ⟨?_, hdrop⟩
    unfold State.answered
    rw [hin, hq]
    obtain ⟨hpc, hpa, hanar, hdcnt⟩ := h
    cases r with
    | ok v =>
      obtain ⟨hagree, hlink⟩ :=
        pollAgrees_afterOk (s := s.record q (.ok v)) (s' := s'.record q (.ok v)) hp ⟨hpc, hpa, hanar, hdcnt⟩ v
      exact ⟨hagree, fun hi _ => hlink hi⟩
    | err e => exact ⟨⟨rfl, hpa, hanar, hdcnt⟩, fun _ hne => absurd rfl (hne e)⟩

/-- The delay of a poll ends for both or for neither. -/
theorem pollAgrees_delayEnd {s s' : State} (hp : s.Polling) (h : s.PollAgrees s') :
    s.delayEnd.PollAgrees s'.delayEnd ∧ s.delayEnd.pc ≠ .idle ∧ s.delayEnd.history = s.history ∧
      s'.delayEnd.history = s'.history := by
  have hagree := h
  obtain ⟨hpc', hpa, hanar, hdcnt⟩ := h
  unfold State.delayEnd
  rw [hdcnt, hpc']
  split
  · obtain hpc | hpc | hpc | hpc := hp <;> simp only [hpc]
    · exact ⟨⟨rfl, hpa, hanar, hdcnt⟩, by simp, rfl, rfl⟩
    all_goals exact ⟨hagree, by simp, trivial, trivial⟩
  · exact ⟨hagree, polling_ne_idle hp, rfl, rfl⟩

/-- Settles O45: on an answer and at its own turn the sequencer's step reads only what the two machines agree on. -/
theorem pollHasNoMemory : Obligations.PollHasNoMemory := by
  intro s s' t t' trn rest rest' hp hpc hpa hanar hdcnt hseq hs hs' hstep hstep'
  have h : (s.turned trn rest).PollAgrees (s'.turned trn rest') := ⟨hpc, hpa, hanar, hdcnt⟩
  have hp : (s.turned trn rest).Polling := hp
  cases trn with
  | host | tick | reset => cases hseq
  | seq =>
    rw [step_seq hs] at hstep
    rw [step_seq hs'] at hstep'
    injection hstep with hstep
    injection hstep' with hstep'
    subst hstep hstep'
    obtain ⟨⟨hpc, hpa, hanar, hdcnt⟩, hni, hh, hh'⟩ := pollAgrees_delayEnd hp h
    exact ⟨hpc, hpa, hanar, hdcnt, fun hi => absurd hi hni, by simp [hh, hh']⟩
  | bus r =>
    rw [step_bus hs] at hstep
    rw [step_bus hs'] at hstep'
    injection hstep with hstep
    injection hstep' with hstep'
    subst hstep hstep'
    obtain ⟨⟨hpc, hpa, hanar, hdcnt⟩, hlink, hdrop⟩ := pollAgrees_answered hp h r
    exact ⟨hpc, hpa, hanar, hdcnt, fun hi hne => hlink hi (fun e he => hne e (congrArg Turn.bus he)), hdrop⟩

end Sys2Proof.Machine
end

section
/-! PROOFS. The frame of the sequencer's steps, for every command at every label. -/

namespace Sys2Proof.Machine

/-- What a step of command `i` at the sequencer's turn leaves from `s` to `t` (R35, R36, R39, R42, R44, R49). -/
structure State.SequencerKeeps (i : Instr) (s t : State) : Prop where
  agents : t.params = s.params ∧ t.env = s.env
  hostRegs : t.regs.ie = s.regs.ie ∧ t.regs.arg = s.regs.arg ∧ t.regs.pollint = s.regs.pollint ∧
    t.regs.rej = s.regs.rej
  operands : t.latch.op = s.latch.op ∧ t.latch.pa = s.latch.pa ∧ t.latch.ra = s.latch.ra ∧
    t.latch.dev = s.latch.dev ∧ t.latch.regnum = s.latch.regnum ∧ t.latch.wdata = s.latch.wdata
  rdata : (∀ phy reg, i ≠ .c22Rd phy reg) → (∀ phy dev, i ≠ .c45Rd phy dev) → t.regs.rdata = s.regs.rdata
  discovery : i ≠ .phyReset → t.regs.phyaddr = s.regs.phyaddr ∧ t.latch.cand = s.latch.cand ∧
    t.latch.att = s.latch.att ∧ t.latch.dcnt = s.latch.dcnt
  poll : i ≠ .pollLink → t.regs.link = s.regs.link ∧ t.latch.anar = s.latch.anar

/-! ### What each operation of the sequencer keeps -/

section
variable {i : Instr} (s : State)

theorem keeps_refl : State.SequencerKeeps i s s := by constructor <;> simp

theorem goto_keeps (l : Label) : State.SequencerKeeps i s (s.goto l) := by constructor <;> simp

theorem complete_keeps : State.SequencerKeeps i s s.complete := by constructor <;> simp

theorem busError_keeps (e : Word) : State.SequencerKeeps i s (s.busError e) := by constructor <;> simp

theorem readEnds_keeps (v : Half)
    (hi : (∃ phy reg, i = .c22Rd phy reg) ∨ (∃ phy dev, i = .c45Rd phy dev)) :
    State.SequencerKeeps i s (s.setRdata v).complete := by
  obtain ⟨phy, reg, rfl⟩ | ⟨phy, dev, rfl⟩ := hi <;> constructor <;> simp

theorem found_keeps : State.SequencerKeeps .phyReset s s.found := by constructor <;> simp

theorem missed_keeps : State.SequencerKeeps .phyReset s s.missed := by constructor <;> simp

theorem attempts_keeps (n : BitVec 4) :
    State.SequencerKeeps .phyReset s { s with latch := { s.latch with att := n }, pc := .dscP } := by
  constructor <;> simp

theorem discoveryNext_keeps : State.SequencerKeeps .phyReset s s.discoveryNext := by
  obtain ⟨-, hn⟩ | hn | hn := discoveryNext_cases s <;> rw [hn] <;> constructor <;> simp

theorem pollEnds_keeps (st : LinkStatus) : State.SequencerKeeps .pollLink s (s.pollEnds st) := by
  constructor <;> simp

theorem advertised_keeps (v : Half) :
    State.SequencerKeeps .pollLink s { s with latch := { s.latch with anar := v }, pc := .polP } := by
  constructor <;> simp

/-- The event of a primitive is in no part of the frame. -/
theorem keeps_of_record {q : BusRequest} {r : BusAnswer} {t : State}
    (h : State.SequencerKeeps i (s.record q r) t) : State.SequencerKeeps i s t := by
  obtain ⟨agents, hostRegs, operands, rdata, discovery, poll⟩ := h
  exact ⟨agents, hostRegs, operands, rdata, discovery, poll⟩

end

section
variable {i : Instr} {s : State}

theorem busRead_keeps {pa ra : Addr5} {r : BusAnswer} {ok : Half → State → State}
    (h : ∀ v u, State.SequencerKeeps i u (ok v u)) : State.SequencerKeeps i s (s.busRead pa ra r ok) := by
  cases r with
  | ok v => exact keeps_of_record s (h v _)
  | err e => exact keeps_of_record s (busError_keeps _ e)

theorem busWrite_keeps {pa ra : Addr5} {w : Half} {r : BusAnswer} {ok : State → State}
    (h : ∀ u, State.SequencerKeeps i u (ok u)) : State.SequencerKeeps i s (s.busWrite pa ra w r ok) := by
  cases r with
  | ok v => exact keeps_of_record s (h _)
  | err e => exact keeps_of_record s (busError_keeps _ e)

/-- A write that only moves the sequencer on. -/
theorem writeGoto_keeps {pa ra : Addr5} {w : Half} {r : BusAnswer} {l : Label} :
    State.SequencerKeeps i s (s.busWrite pa ra w r fun u => u.goto l) :=
  busWrite_keeps fun u => goto_keeps u l

/-- At the sequencer's turn a command answers the backend or ends its delay. -/
theorem commandStep_keeps {t : State} {issue delay : State → State} {answer : BusAnswer → State → State}
    (hturn : s.env.turn.sequencer = true) (h : s.commandStep issue answer delay = .next t)
    (ha : ∀ r, State.SequencerKeeps i s (answer r s)) (hd : State.SequencerKeeps i s (delay s)) :
    State.SequencerKeeps i s t := by
  unfold State.commandStep at h
  cases htrn : s.env.turn with
  | host | tick | reset => rw [htrn] at hturn; cases hturn
  | bus r =>
    simp only [htrn] at h
    injection h with h
    exact h ▸ ha r
  | seq =>
    simp only [htrn] at h
    injection h with h
    exact h ▸ hd

end

/-! ### Every command -/

section
variable {s t : State} (hturn : s.env.turn.sequencer = true)
include hturn

theorem execC22Rd_keeps {phy reg : Addr5} (h : execC22Rd phy reg s = .next t) :
    State.SequencerKeeps (.c22Rd phy reg) s t := by
  unfold execC22Rd at h
  refine commandStep_keeps hturn h (fun r => ?_) (keeps_refl s)
  split
  · exact busRead_keeps fun v u => readEnds_keeps u v (.inl ⟨phy, reg, rfl⟩)
  · exact keeps_refl s

theorem execC22Wr_keeps {phy reg : Addr5} (h : execC22Wr phy reg s = .next t) :
    State.SequencerKeeps (.c22Wr phy reg) s t := by
  unfold execC22Wr at h
  refine commandStep_keeps hturn h (fun r => ?_) (keeps_refl s)
  split
  · exact busWrite_keeps complete_keeps
  · exact keeps_refl s

theorem execC45Rd_keeps {phy : Addr5} {dev : Byte} (h : execC45Rd phy dev s = .next t) :
    State.SequencerKeeps (.c45Rd phy dev) s t := by
  unfold execC45Rd at h
  refine commandStep_keeps hturn h (fun r => ?_) (keeps_refl s)
  dsimp only
  split
  · exact writeGoto_keeps
  · exact writeGoto_keeps
  · exact writeGoto_keeps
  · exact busRead_keeps fun v u => readEnds_keeps u v (.inr ⟨phy, dev, rfl⟩)
  · exact keeps_refl s

theorem execC45Wr_keeps {phy : Addr5} {dev : Byte} (h : execC45Wr phy dev s = .next t) :
    State.SequencerKeeps (.c45Wr phy dev) s t := by
  unfold execC45Wr at h
  refine commandStep_keeps hturn h (fun r => ?_) (keeps_refl s)
  dsimp only
  split
  · exact writeGoto_keeps
  · exact writeGoto_keeps
  · exact writeGoto_keeps
  · exact busWrite_keeps complete_keeps
  · exact keeps_refl s

theorem execPhyReset_keeps (h : execPhyReset s = .next t) :
    State.SequencerKeeps .phyReset s t := by
  unfold execPhyReset at h
  refine commandStep_keeps hturn h (fun r => ?_) ?_
  · dsimp only
    split
    · exact writeGoto_keeps
    · refine busRead_keeps fun v u => ?_
      split
      · exact goto_keeps u _
      · exact complete_keeps u
    · exact busWrite_keeps fun u => attempts_keeps u 0
    · refine busRead_keeps fun v u => ?_
      split
      · exact missed_keeps u
      · exact found_keeps u
    · exact keeps_refl s
  · split
    · exact discoveryNext_keeps s
    · exact keeps_refl s

theorem execPhyInit_keeps (h : execPhyInit s = .next t) :
    State.SequencerKeeps .phyInit s t := by
  unfold execPhyInit at h
  refine commandStep_keeps hturn h (fun r => ?_) (keeps_refl s)
  dsimp only
  split
  · exact writeGoto_keeps
  · exact writeGoto_keeps
  · exact writeGoto_keeps
  · exact writeGoto_keeps
  · exact busWrite_keeps complete_keeps
  · exact keeps_refl s

theorem execPollLink_keeps (h : execPollLink s = .next t) :
    State.SequencerKeeps .pollLink s t := by
  unfold execPollLink at h
  refine commandStep_keeps hturn h (fun r => ?_) ?_
  · dsimp only
    split
    · refine busRead_keeps fun v u => ?_
      split
      · exact pollEnds_keeps u _
      · split
        · exact pollEnds_keeps u _
        · exact goto_keeps u _
    · exact busRead_keeps fun v u => advertised_keeps u v
    · exact busRead_keeps fun v u => pollEnds_keeps u _
    · exact keeps_refl s
  · split
    · exact goto_keeps s _
    · exact keeps_refl s

theorem exec_keeps {i : Instr} (h : exec i s = .next t) : State.SequencerKeeps i s t := by
  cases i with
  | c22Rd => exact execC22Rd_keeps hturn h
  | c22Wr => exact execC22Wr_keeps hturn h
  | c45Rd => exact execC45Rd_keeps hturn h
  | c45Wr => exact execC45Wr_keeps hturn h
  | phyReset => exact execPhyReset_keeps hturn h
  | phyInit => exact execPhyInit_keeps hturn h
  | pollLink => exact execPollLink_keeps hturn h

end

/-- Settles O48, from the frame of each command. -/
theorem sequencerFrame : Obligations.SequencerFrame := by
  intro i s t hturn h
  obtain ⟨⟨hp, he⟩, ⟨hie, harg, hpoll, hrej⟩, ⟨hop, hpa, hra, hdev, hrn, hwd⟩, hrd, hdisc, hlink⟩ :=
    exec_keeps hturn h
  exact ⟨hp, he, hie, harg, hpoll, hrej, hop, hpa, hra, hdev, hrn, hwd, hrd, hdisc, hlink⟩

end Sys2Proof.Machine
end

section
/-! PROOFS. The memory family (spec/20_memory.md): accesses that are refused, the bus history under every step, the
end of a command, and the order of the events of a straight-line command. -/

namespace Sys2Proof.Machine

/-! ### Refused accesses -/

theorem reach_of_narrow {p : Params} {addr size : Nat} (hlo : p.csrBase ≤ addr) (hhi : addr < p.csrBase + 0x40)
    (hsize : size ≠ 4) : reach p addr size = .refused .accessWidth := by
  rw [reach, if_neg (by omega), if_pos hsize]

theorem reach_of_misaligned {p : Params} {addr : Nat} (hlo : p.csrBase ≤ addr) (hhi : addr < p.csrBase + 0x40)
    (halign : (addr - p.csrBase) % 4 ≠ 0) : reach p addr 4 = .refused .accessAlignment := by
  rw [reach, if_neg (by omega), if_neg (by decide), if_pos halign]

/-- An access of either kind is refused exactly as its address and width are (R84). -/
theorem step_of_refused {s : State} {a : HostAccess} {addr size : Nat} {ps : List HostOp} {rest : List Turn}
    {r : Refusal} (hsched : s.env.sched = .host :: rest) (hprog : s.env.prog = .access a :: ps)
    (ha : a = .read addr size ∨ ∃ v, a = .write addr size v) (hr : reach s.params addr size = .refused r) :
    step s = .refused r := by
  rw [step_access hsched hprog]
  obtain rfl | ⟨v, rfl⟩ := ha <;> simp only [State.hostAccess, State.hostDone_params, hr]

/-- An aligned 32-bit access in the window reaches its slot, and no slot stops the run (R83, R85). -/
theorem step_of_aligned {s : State} {a : HostAccess} {addr : Nat} {ps : List HostOp} {rest : List Turn}
    (hsched : s.env.sched = .host :: rest) (hprog : s.env.prog = .access a :: ps)
    (ha : a = .read addr 4 ∨ ∃ v, a = .write addr 4 v) (hlo : s.params.csrBase ≤ addr)
    (hhi : addr < s.params.csrBase + 0x40) (halign : (addr - s.params.csrBase) % 4 = 0) : ∃ t, step s = .next t := by
  obtain ⟨off, rfl⟩ := Nat.exists_eq_add_of_le hlo
  rw [Nat.add_sub_cancel_left] at halign
  obtain rfl | ⟨v, rfl⟩ := ha
  · exact ⟨_, step_hostReads ⟨hsched, hprog⟩ (by omega) halign⟩
  · exact ⟨_, step_hostWrites ⟨hsched, hprog⟩ (by omega) halign⟩

/-- Settles O55: the width is looked at first, then the alignment; what passes both reaches a slot. -/
theorem narrowAndMisalignedAccessesAreRefused : Obligations.NarrowAndMisalignedAccessesAreRefused := by
  intro s a addr size ps rest hsched hprog ha hlo hhi
  refine ⟨fun hsize => step_of_refused hsched hprog ha (reach_of_narrow hlo hhi hsize), ?_, ?_⟩
  · rintro rfl halign
    exact step_of_refused hsched hprog ha (reach_of_misaligned hlo hhi halign)
  · rintro rfl halign
    exact step_of_aligned hsched hprog ha hlo hhi halign

/-! ### The bus history -/

/-- A delay's end, with all that discovery does then, changes neither the parameters nor the history (R9, R186). -/
theorem delayEnd_frame (s : State) : s.delayEnd.params = s.params ∧ s.delayEnd.history = s.history := by
  obtain hn | ⟨-, hn⟩ | ⟨-, hn⟩ := delayEnd_cases s <;> rw [hn]
  · exact ⟨rfl, rfl⟩
  · obtain ⟨-, hn⟩ | hn | hn := discoveryNext_cases s <;> rw [hn] <;> exact ⟨rfl, rfl⟩
  · exact ⟨rfl, rfl⟩

theorem tick_frame (s : State) : s.tick.params = s.params ∧ s.tick.history = s.history := by
  obtain hn | ⟨-, -, hn⟩ := tick_cases s <;> rw [hn] <;> exact ⟨rfl, rfl⟩

@[simp] theorem takeTurn_inFlight (s : State) : s.takeTurn.inFlight = s.inFlight :=
  inFlight_congr (by simp) (by simp) (by simp)

/-- Settles O18, by the agent whose turn it is. -/
theorem historyGrowsByAnswersOnly : Obligations.HistoryGrowsByAnswersOnly := by
  intro s t hstep
  obtain ⟨-, heff⟩ | ⟨r, hturn, rfl⟩ | ⟨-, rfl⟩ | ⟨-, rfl⟩ | ⟨-, rfl⟩ := step_cases hstep
  · obtain ⟨-, hhist, -⟩ := heff
    exact .inl hhist
  · cases hq : s.takeTurn.inFlight with
    | none => exact .inl (by rw [answered_of_none hq, takeTurn_history])
    | some q => exact .inr ⟨q, r, by simpa using hq, hturn, by rw [answered_history hq, takeTurn_history]⟩
  · exact .inl (by simp [delayEnd_frame])
  · exact .inl (by simp [tick_frame])
  · exact .inl (by simp)

/-! ### The end of a command -/

/-- How `t` stands at the end of a command that ran in `s` (R229, R261, R262): DONE is set, and the error code is
what it was, or that of a bus error or of a search that found no device. -/
structure State.EndedIn (s t : State) : Prop where
  done : t.regs.done = true
  code : t.regs.errcode = s.regs.errcode ∨ t.regs.errcode = .bus ∨ t.regs.errcode = .noDevice

/-- An `Ok` answer moves a running command to another label of its own, or ends it without an error (R261). -/
theorem afterOk_busy_or_ended {s : State} (hb : s.busy = true) (v : Half) :
    (s.afterOk v).busy = true ∨ s.EndedIn (s.afterOk v) := by
  rw [State.busy] at hb
  cases hpc : s.pc <;> simp only [hpc, Label.busy, reduceCtorEq] at hb <;> simp only [State.afterOk, hpc]
  case c22r | c22w | c45dr | c45dw | iniBM | polP => exact .inr ⟨rfl, .inl rfl⟩
  case c45ca | c45rn | rstW | dscW | iniCA | iniRN | iniCO | iniDW | polA => exact .inl rfl
  case c45co => exact .inl (by split <;> rfl)
  case dscD | polD => exact .inl (by rw [State.busy, hpc]; rfl)
  case rstP | dscP | polS =>
    split
    · exact .inl rfl
    · exact .inr ⟨rfl, .inl rfl⟩

theorem answered_busy_or_ended {s : State} (hb : s.busy = true) (r : BusAnswer) :
    (s.answered r).busy = true ∨ s.EndedIn (s.answered r) := by
  obtain ⟨-, ha⟩ | ⟨q, v, -, -, ha⟩ | ⟨q, e, -, -, ha⟩ := answered_cases s r <;> rw [ha]
  · exact .inl hb
  · obtain hbusy | ⟨hdone, hcode⟩ := afterOk_busy_or_ended (s := s.record q r) hb v
    · exact .inl hbusy
    · exact .inr ⟨hdone, hcode⟩
  · exact .inr ⟨rfl, .inr (.inl rfl)⟩

theorem delayEnd_busy_or_ended {s : State} (hb : s.busy = true) : s.delayEnd.busy = true ∨ s.EndedIn s.delayEnd := by
  obtain hn | ⟨-, hn⟩ | ⟨-, hn⟩ := delayEnd_cases s <;> rw [hn]
  · exact .inl hb
  · obtain ⟨-, hn⟩ | hn | hn := discoveryNext_cases s <;> rw [hn]
    · exact .inl rfl
    · exact .inl rfl
    · exact .inr ⟨rfl, .inr (.inr rfl)⟩
  · exact .inl rfl

/-- The ends of a command by any agent but reset: only the sequencer ends what is running (R108). -/
theorem step_busy_or_ended {s t : State} (hstep : step s = .next t) (hb : s.busy = true)
    (hreset : t.env.turn ≠ .reset) : t.busy = true ∨ s.EndedIn t := by
  have hturn : s.takeTurn.busy = true := by simpa [State.busy] using hb
  have sameRegs {u : State} (h : u.busy = true ∨ s.takeTurn.EndedIn u) : u.busy = true ∨ s.EndedIn u :=
    h.imp_right fun ⟨hdone, hcode⟩ => ⟨hdone, by simpa using hcode⟩
  obtain ⟨-, heff⟩ | ⟨r, -, rfl⟩ | ⟨-, rfl⟩ | ⟨-, rfl⟩ | ⟨h, -⟩ := step_cases hstep
  · obtain ⟨u, hu, ht⟩ := hostEffect_change heff
    obtain ⟨hpc, -⟩ := hostChange_of_not_idle hu (ne_idle_of_busy hb)
    rw [ht]
    exact .inl (by simpa [State.busy, hpc] using hb)
  · exact sameRegs (answered_busy_or_ended hturn r)
  · exact sameRegs (delayEnd_busy_or_ended hturn)
  · exact .inl (by simpa [State.busy, tick_pc] using hb)
  · exact absurd h hreset

/-- With no error recorded and nothing running, the sequencer stands at IDLE and nothing is left of an error. -/
theorem idle_of_no_error {t : State} (h : t.OutcomeOk) (hb : t.busy = false) (herr : t.regs.err = false) :
    t.pc = .idle ∧ t.regs.errcode = .none ∧ t.regs.buserr = 0 := by
  obtain ⟨-, cause, code, fatal⟩ := h
  have hnone : t.regs.errcode = .none := by simpa [herr] using cause
  have hnf : t.pc ≠ .fatal := by simp [← fatal, hnone]
  exact ⟨((busy_eq_false_iff t).1 hb).resolve_right hnf, hnone, code (by simp [hnone])⟩

/-- Settles O19: the step is an end, before which no error code stood; the invariant of the state after it gives the
rest. -/
theorem commandEndSetsDone : Obligations.CommandEndSetsDone := by
  intro s t hinv hstep hb hnb hreset
  obtain ⟨hdone, hcode⟩ : s.EndedIn t := (step_busy_or_ended hstep hb hreset).resolve_left (by simp [hnb])
  obtain ⟨-, hnone, -⟩ := noError_of_busy hinv hb
  have hok : t.OutcomeOk := (everyStepKeepsTheInvariant s t hinv hstep).outcome
  rw [csrRead_status]
  refine ⟨hdone, ?_, ?_, idle_of_no_error hok hnb, fun herr => ?_⟩
  · rw [getLsbD_statusWord t 0 (by decide)]; simp [hnb]
  · rw [getLsbD_statusWord t 1 (by decide)]; simp [hdone]
  · exact hcode.resolve_left (by rw [hnone]; exact hok.cause.1 herr)

/-! ### The events of a straight-line command -/

theorem issuedSoFar_congr {s t : State} (hp : t.params = s.params) (hpc : t.pc = s.pc) (hl : t.latch = s.latch) :
    t.issuedSoFar = s.issuedSoFar := by
  simp only [State.issuedSoFar, hp, hpc, hl]

theorem nextOnLine_congr {s t : State} (hpc : t.pc = s.pc) (hl : t.latch = s.latch) :
    t.nextOnLine = s.nextOnLine := by
  simp only [State.nextOnLine, hpc, hl]

theorem issuedSoFar_of_not_busy {s : State} (h : s.busy = false) : s.issuedSoFar = none := by
  obtain hpc | hpc := (busy_eq_false_iff s).1 h <;> simp only [State.issuedSoFar, hpc]

/-- Every label of a straight line is a bus label (R203, R233). -/
theorem inFlight_of_issuedSoFar {s : State} {evs : List BusEvent} (h : s.issuedSoFar = some evs) :
    ∃ q, s.inFlight = some q := by
  unfold State.issuedSoFar at h
  unfold State.inFlight
  cases hpc : s.pc <;> simp only [hpc, reduceCtorEq] at h <;> exact ⟨_, rfl⟩

/-- THE LINE, LABEL BY LABEL: an `Ok` answer leads to the next label, which has the answered primitive behind it too, or
at the line's last label to the end (R203, R205, R207, R233, R234). -/
theorem afterOk_on_line {s : State} {evs : List BusEvent} {q : BusRequest} (hevs : s.issuedSoFar = some evs)
    (hq : s.inFlight = some q) (v : Half) :
    (s.nextOnLine = some (s.afterOk v).pc ∧ (s.afterOk v).issuedSoFar = some (evs ++ [BusEvent.of q (.ok v)])) ∨
    (s.nextOnLine = none ∧ (s.afterOk v).pc = .idle) := by
  unfold State.issuedSoFar at hevs
  unfold State.inFlight at hq
  unfold State.nextOnLine
  cases hpc : s.pc <;> simp only [hpc, reduceCtorEq, Option.some.injEq] at hevs hq <;> subst hevs hq <;>
    simp only [State.afterOk, hpc]
  case c45ca | c45rn | iniCA | iniRN | iniCO | iniDW => exact .inl ⟨rfl, rfl⟩
  case c45co =>
    refine .inl ⟨rfl, ?_⟩
    by_cases hop : s.latch.op = 0x3
    · simp only [hop, if_true]; rfl
    · simp only [hop, if_false]; rfl
  case c45dr | c45dw | iniBM => exact .inr ⟨trivial, rfl⟩

@[simp] theorem afterOk_params (s : State) (v : Half) : (s.afterOk v).params = s.params := by
  unfold State.afterOk
  repeat' split
  all_goals simp

/-- No step changes the parameters (R9). -/
theorem step_params {s t : State} (hstep : step s = .next t) : t.params = s.params := by
  obtain ⟨-, heff⟩ | ⟨r, -, rfl⟩ | ⟨-, rfl⟩ | ⟨-, rfl⟩ | ⟨-, rfl⟩ := step_cases hstep
  · exact heff.1
  · obtain ⟨-, ha⟩ | ⟨q, v, -, -, ha⟩ | ⟨q, e, -, -, ha⟩ := answered_cases s.takeTurn r <;> simp [ha]
  · simp [delayEnd_frame]
  · simp [tick_frame]
  · simp

/-- What a step of any agent does while the sequencer stands on a straight line with the events `evs` behind it and the
primitive `q` in flight. -/
inductive State.LineStep (s : State) (evs : List BusEvent) (q : BusRequest) (t : State) : Prop
  | held (turn : ∀ r, t.env.turn ≠ .bus r) (pc : t.pc = s.pc) (issued : t.issuedSoFar = some evs)
      (history : t.history = s.history)
  | givenUp (turn : ∀ v, t.env.turn ≠ .bus (.ok v)) (pc : t.pc = .idle)
  | moved (v : Half) (turn : t.env.turn = .bus (.ok v)) (next : s.nextOnLine = some t.pc)
      (issued : t.issuedSoFar = some (evs ++ [BusEvent.of q (.ok v)]))
      (history : t.history = s.history ++ [BusEvent.of q (.ok v)])
  | completed (v : Half) (turn : t.env.turn = .bus (.ok v)) (last : s.nextOnLine = none) (pc : t.pc = .idle)
      (history : t.history = s.history ++ [BusEvent.of q (.ok v)])

/-- The line is left only by an answer or a reset (R182, R262, R291). -/
theorem step_on_line {s t : State} {evs : List BusEvent} {q : BusRequest} (hevs : s.issuedSoFar = some evs)
    (hq : s.inFlight = some q) (hstep : step s = .next t) : s.LineStep evs q t := by
  have waits (hbus : ∀ r, t.env.turn ≠ .bus r) (hreset : t.env.turn ≠ .reset) : s.LineStep evs q t := by
    obtain ⟨-, hpc, hl, hh⟩ := step_holds hq hstep hbus hreset
    exact .held hbus hpc ((issuedSoFar_congr (step_params hstep) hpc hl).trans hevs) hh
  obtain ⟨hturn, -⟩ | ⟨r, hturn, rfl⟩ | ⟨hturn, -⟩ | ⟨hturn, -⟩ | ⟨hturn, rfl⟩ := step_cases hstep
  · exact waits (by simp [hturn]) (by simp [hturn])
  · have hq' : s.takeTurn.inFlight = some q := by simpa using hq
    have hh := answered_history hq' r
    rw [takeTurn_history] at hh
    cases r with
    | err e => exact .givenUp (by simp [hturn]) (by simp [State.answered, hq'])
    | ok v =>
      have ha : s.takeTurn.answered (.ok v) = (s.takeTurn.record q (.ok v)).afterOk v := by simp [State.answered, hq']
      have hline := afterOk_on_line (s := s.takeTurn.record q (.ok v))
        ((issuedSoFar_congr (by simp) (by simp) (by simp)).trans hevs) hq' v
      rw [nextOnLine_congr (s := s) (by simp) (by simp), ← ha] at hline
      obtain ⟨hnext, hissued⟩ | ⟨hlast, hpc⟩ := hline
      · exact .moved v hturn hnext hissued hh
      · exact .completed v hturn hlast hpc hh
  · exact waits (by simp [hturn]) (by simp [hturn])
  · exact waits (by simp [hturn]) (by simp [hturn])
  · exact .givenUp (fun v h => by rw [hturn] at h; cases h) (by simp)

/-- Settles O28: the step holds the line, gives the command up, moves one label on, or completes the command. -/
theorem straightLineCommandsStayInOrder : Obligations.StraightLineCommandsStayInOrder := by
  intro s t h0 evs hevs hhist hstep
  obtain ⟨q, hq⟩ := inFlight_of_issuedSoFar hevs
  have notIssued (hpc : t.pc = .idle) : t.issuedSoFar = none := issuedSoFar_of_not_busy (not_busy_of_idle hpc)
  have notBusy (hpc : t.pc = .idle) : t.busy = false := not_busy_of_idle hpc
  cases step_on_line hevs hq hstep with
  | held hturn hpc hissued hh =>
    refine ⟨fun evs' h => ?_, fun v _ _ h => absurd h (hturn _), fun _ => ⟨by simp [hissued], .inl hpc⟩⟩
    obtain rfl : evs = evs' := by simpa [hissued] using h
    rw [hh, hhist]
  | givenUp hturn hpc =>
    exact ⟨by simp [notIssued hpc], fun v _ _ h => absurd h (hturn v), by simp [notBusy hpc]⟩
  | moved v hturn hnext hissued hh =>
    refine ⟨fun evs' h => ?_, fun _ _ _ _ hnb => ?_, fun _ => ⟨by simp [hissued], .inr hnext⟩⟩
    · obtain rfl : evs ++ [BusEvent.of q (.ok v)] = evs' := by simpa [hissued] using h
      rw [hh, hhist, List.append_assoc]
    · simp [issuedSoFar_of_not_busy hnb] at hissued
  | completed v hturn hlast hpc hh =>
    refine ⟨by simp [notIssued hpc], fun v' q' hq' hturn' _ => ?_, by simp [notBusy hpc]⟩
    obtain rfl : q = q' := by simpa [hq] using hq'
    obtain rfl : v = v' := by simpa [hturn] using hturn'
    exact ⟨hlast, by rw [hh, hhist]⟩

end Sys2Proof.Machine
end

section
/-! PROOFS. The encoding family (spec/30_encoding.md): the CMD word both ways, the control word, the assembler's lines, and the
two waits its programs use. -/

namespace Sys2Proof.Machine

/-! ### Decoding what was encoded -/

theorem decodeCmd_encode (i : Instr) : decodeCmd (encode i) = .ok i := by
  cases i with
  | c22Rd phy reg => exact decode_cmdword 0x1 phy reg 0
  | c22Wr phy reg => exact decode_cmdword 0x2 phy reg 0
  | c45Rd phy dev => exact decode_cmdword 0x3 phy 0 dev
  | c45Wr phy dev => exact decode_cmdword 0x4 phy 0 dev
  | phyReset => exact decode_cmdword 0x5 0 0 0
  | phyInit => exact decode_cmdword 0x6 0 0 0
  | pollLink => exact decode_cmdword 0x7 0 0 0

/-- A command's four bytes decode to it, whatever bytes come after them (R82). -/
theorem decodeBytes_encodeBytes (i : Instr) (more : List Byte) : decodeBytes (encodeBytes i ++ more) = .ok i := by
  rw [encodeBytes, decodeBytes_bytesOfWord, decodeCmd_encode]

/-- The number of a command's word, as the opcode table writes it, decodes to the command (R122). -/
theorem decodeTableWord_encode (i : Instr) : decodeTableWord 32 (encode i).toNat = some i := by
  have hbytes : decodeBytes (bytesOfWord (encode i)) = .ok i := by
    simpa [encodeBytes] using decodeBytes_encodeBytes i []
  rw [decodeTableWord, tableWord_toNat, hbytes]
  rfl

/-- Settles O4: every command is well formed, so the round trip holds of each. -/
theorem decodeOfEncode : Obligations.DecodeOfEncode :=
  fun i _ => ⟨decodeCmd_encode i, decodeBytes_encodeBytes i, decodeTableWord_encode i⟩

/-- Settles O7: each example word is the encoding of its command. -/
theorem exampleWordsDecode : Obligations.ExampleWordsDecode :=
  ⟨decodeTableWord_encode (.c22Rd 1 1), decodeTableWord_encode (.c22Wr 7 0), decodeTableWord_encode (.c22Rd 31 31),
    decodeTableWord_encode (.c45Rd 1 1), decodeTableWord_encode (.c45Wr 0 3), decodeTableWord_encode (.c45Rd 2 0xE7),
    decodeTableWord_encode .phyReset, decodeTableWord_encode .phyInit, decodeTableWord_encode .pollLink⟩

/-! ### The opcode -/

/-- A word is accepted under an opcode 0x1 to 0x7, which is its command's, or rejected under another (R122, R125). -/
theorem decodeCmd_accepts_or_rejects (w : Word) :
    (1 ≤ (cmdOp w).toNat ∧ (cmdOp w).toNat ≤ 7 ∧ ∃ i, decodeCmd w = .ok i ∧ i.opcode = cmdOp w) ∨
    ((cmdOp w = 0 ∨ 8 ≤ (cmdOp w).toNat) ∧ decodeCmd w = .error (.illegalOpcode (cmdOp w))) := by
  obtain ⟨hop, hd⟩ | ⟨hop, hd⟩ | ⟨hop, hd⟩ | ⟨hop, hd⟩ | ⟨hop, hd⟩ | ⟨hop, hd⟩ | ⟨hop, hd⟩ | hrej := decodeCmd_cases w
  case inr => exact .inr hrej
  all_goals exact .inl ⟨by simp [hop], by simp [hop], _, hd, hop.symm⟩

theorem opcode_of_decodeCmd {w : Word} {i : Instr} (h : decodeCmd w = .ok i) : i.opcode = cmdOp w := by
  obtain ⟨-, -, j, hd, hop⟩ | ⟨-, hd⟩ := decodeCmd_accepts_or_rejects w
  · obtain rfl : j = i := Except.ok.inj (hd.symm.trans h)
    exact hop
  · cases hd.symm.trans h

/-- No field is used by PHY_RESET, PHY_INIT and POLL_LINK (R123). -/
theorem decodeCmd_congr_of_plain {w w' : Word} (hop : cmdOp w = cmdOp w') (h5 : 5 ≤ (cmdOp w).toNat)
    (h7 : (cmdOp w).toNat ≤ 7) : decodeCmd w = decodeCmd w' := by
  unfold decodeCmd
  rw [← hop]
  generalize (cmdOp w).toNat = n at *
  interval_cases n <;> rfl

/-- The Clause 22 commands use PHYAD and REGAD alone (R123). -/
theorem decodeCmd_congr_of_c22 {w w' : Word} (hop : cmdOp w = cmdOp w') (hphy : cmdPhyad w = cmdPhyad w')
    (hreg : cmdRegad w = cmdRegad w') (h : cmdOp w = 1 ∨ cmdOp w = 2) : decodeCmd w = decodeCmd w' := by
  unfold decodeCmd
  rw [← hop, ← hphy, ← hreg]
  obtain h | h := h <;> rw [h] <;> rfl

/-- The Clause 45 commands use PHYAD and DEVAD alone (R123). -/
theorem decodeCmd_congr_of_c45 {w w' : Word} (hop : cmdOp w = cmdOp w') (hphy : cmdPhyad w = cmdPhyad w')
    (hdev : cmdDevad w = cmdDevad w') (h : cmdOp w = 3 ∨ cmdOp w = 4) : decodeCmd w = decodeCmd w' := by
  unfold decodeCmd
  rw [← hop, ← hphy, ← hdev]
  obtain h | h := h <;> rw [h] <;> rfl

/-- Settles O5, by the fields that the commands of each group use. -/
theorem opcodeSelectsTheCommand : Obligations.OpcodeSelectsTheCommand :=
  ⟨fun _ _ => opcode_of_decodeCmd, fun _ _ hop =>
    ⟨decodeCmd_congr_of_plain hop, decodeCmd_congr_of_c22 hop, decodeCmd_congr_of_c45 hop⟩⟩

/-- The illegal opcodes are the others (R125, R126). -/
theorem illegalOpcode_iff (op : BitVec 4) : (op = 0 ∨ 8 ≤ op.toNat) ↔ ¬ (1 ≤ op.toNat ∧ op.toNat ≤ 7) := by
  bv_omega

theorem exists_decodeCmd_eq_ok_iff (w : Word) :
    (∃ i, decodeCmd w = .ok i) ↔ 1 ≤ (cmdOp w).toNat ∧ (cmdOp w).toNat ≤ 7 := by
  obtain ⟨h1, h7, i, hd, -⟩ | ⟨hop, hd⟩ := decodeCmd_accepts_or_rejects w
  · exact ⟨fun _ => ⟨h1, h7⟩, fun _ => ⟨i, hd⟩⟩
  · rw [illegalOpcode_iff] at hop
    simp [hd, hop]

theorem decodeCmd_eq_error_iff (w : Word) (r : DecodeReject) :
    decodeCmd w = .error r ↔ r = .illegalOpcode (cmdOp w) ∧ (cmdOp w = 0 ∨ 8 ≤ (cmdOp w).toNat) := by
  obtain ⟨h1, h7, i, hd, -⟩ | ⟨hop, hd⟩ := decodeCmd_accepts_or_rejects w
  · rw [illegalOpcode_iff]
    simp [hd, h1, h7]
  · rw [hd]
    exact ⟨fun h => ⟨(Except.error.inj h).symm, hop⟩, fun h => congrArg Except.error h.1.symm⟩

/-- Settles O6: acceptance and rejection are each decided by the opcode. -/
theorem illegalOpcodesAreRejected : Obligations.IllegalOpcodesAreRejected :=
  fun w => ⟨exists_decodeCmd_eq_ok_iff w, decodeCmd_eq_error_iff w⟩

/-! ### The MMD control word -/

/-- A bit of a control word: FUNC from bit 14 up, the identifier's low five bits, and 0 between them (R130, R132). -/
theorem getLsbD_ctlword (f : BitVec 2) (dev : Byte) (i : Nat) (h : i < 16) :
    (ctlword f dev).getLsbD i = ((decide (14 ≤ i) && f.getLsbD (i - 14)) || (decide (i < 5) && dev.getLsbD i)) := by
  interval_cases i <;> simp [ctlword]

theorem ctlword_func (f : BitVec 2) (dev : Byte) : (ctlword f dev).extractLsb' 14 2 = f := by
  apply word_ext
  intro i hi
  rw [BitVec.getLsbD_extractLsb', getLsbD_ctlword f dev _ (by omega)]
  simp [hi, show ¬ 14 + i < 5 by omega]

theorem ctlword_reserved (f : BitVec 2) (dev : Byte) : (ctlword f dev).extractLsb' 5 9 = 0 := by
  apply word_ext
  intro i hi
  rw [BitVec.getLsbD_extractLsb', getLsbD_ctlword f dev _ (by omega)]
  simp [show ¬ 14 ≤ 5 + i by omega]

theorem ctlword_dev (f : BitVec 2) (dev : Byte) : (ctlword f dev).extractLsb' 0 5 = dev.extractLsb' 0 5 := by
  apply word_ext
  intro i hi
  rw [BitVec.getLsbD_extractLsb', BitVec.getLsbD_extractLsb', getLsbD_ctlword f dev _ (by omega)]
  simp [hi, show ¬ 14 ≤ i by omega]

/-- Settles O8, from the bits of the word. -/
theorem controlWordFields : Obligations.ControlWordFields :=
  fun f dev => ⟨ctlword_func f dev, ctlword_reserved f dev, ctlword_dev f dev, rfl, rfl, rfl⟩

/-! ### The assembler -/

theorem assemble_of_wf {line : AsmLine} (h : line.wf = true) (base : Nat) :
    line.assemble base = some (line.expand base) := if_pos h

theorem assemble_of_not_wf {line : AsmLine} (h : ¬ line.wf = true) (base : Nat) : line.assemble base = none := if_neg h

section
variable (phy n v : Nat) (reg : RegOperand) (dev : DevOperand)

theorem c22Rd_wf_iff : (AsmLine.c22Rd phy reg).wf = true ↔ phy ≤ 31 ∧ reg.wf = true := by
  simp [AsmLine.wf, phyOk]

theorem c22Wr_wf_iff : (AsmLine.c22Wr phy reg v).wf = true ↔ phy ≤ 31 ∧ reg.wf = true ∧ v ≤ 0xFFFF := by
  simp [AsmLine.wf, phyOk, immOk, and_assoc]

theorem c45Rd_wf_iff : (AsmLine.c45Rd phy dev n).wf = true ↔ phy ≤ 31 ∧ dev.wf = true ∧ n ≤ 0xFFFF := by
  simp [AsmLine.wf, phyOk, immOk, and_assoc]

theorem c45Wr_wf_iff :
    (AsmLine.c45Wr phy dev n v).wf = true ↔ phy ≤ 31 ∧ dev.wf = true ∧ n ≤ 0xFFFF ∧ v ≤ 0xFFFF := by
  simp [AsmLine.wf, phyOk, immOk, and_assoc]

end

theorem vend_wf_iff (n : Nat) : (RegOperand.vend n).wf = true ↔ 16 ≤ n ∧ n ≤ 31 := by
  simp [RegOperand.wf]

theorem reg_wf_iff (n : Nat) : (RegOperand.reg n).wf = true ↔ n ≤ 31 := by
  simp [RegOperand.wf]

theorem dev_wf_iff (n : Nat) : (DevOperand.dev n).wf = true ↔ n ≤ 255 := by
  simp [DevOperand.wf]

/-- An operand in range is its own register address (R150). -/
theorem toNat_regNumber {n : Nat} (h : n ≤ 31) :
    (RegOperand.vend n).number.toNat = n ∧ (RegOperand.reg n).number.toNat = n :=
  ⟨Nat.mod_eq_of_lt (by omega), Nat.mod_eq_of_lt (by omega)⟩

theorem toNat_devNumber {n : Nat} (h : n ≤ 255) : (DevOperand.dev n).number.toNat = n :=
  Nat.mod_eq_of_lt (by omega)

/-- Settles O9: the range checks decide whether a line assembles, and the operands come back from the fields of the two words
it writes. -/
theorem assembledCommandsDecode : Obligations.AssembledCommandsDecode := by
  have imm {v : Nat} (hv : v ≤ 0xFFFF) : immOk v = true := decide_eq_true hv
  refine ⟨fun base phy n v reg dev hphy hn hv hreg hdev => ⟨?_, ?_, ?_, ?_⟩, fun base => ?_,
    fun base phy n v reg dev => ⟨?_, ?_, ?_, ?_⟩,
    fun n => ⟨vend_wf_iff n, reg_wf_iff n, dev_wf_iff n, toNat_regNumber, toNat_devNumber⟩,
    rfl, rfl, rfl, rfl, rfl, rfl, rfl, rfl⟩
  · exact ⟨_, assemble_of_wf ((c22Rd_wf_iff ..).2 ⟨hphy, hreg⟩) base, decode_cmdword 0x1 _ _ 0⟩
  · exact ⟨_, _, assemble_of_wf ((c22Wr_wf_iff ..).2 ⟨hphy, hreg, hv⟩) base,
      argWdata_argWord v 0 rfl (imm hv), argRegnum_argWord v 0 rfl, decode_cmdword 0x2 _ _ 0⟩
  · exact ⟨_, _, assemble_of_wf ((c45Rd_wf_iff ..).2 ⟨hphy, hdev, hn⟩) base,
      argWdata_argWord 0 n (imm hn) rfl, argRegnum_argWord 0 n (imm hn), decode_cmdword 0x3 _ 0 _⟩
  · exact ⟨_, _, assemble_of_wf ((c45Wr_wf_iff ..).2 ⟨hphy, hdev, hn, hv⟩) base,
      argWdata_argWord v n (imm hn) (imm hv), argRegnum_argWord v n (imm hn), decode_cmdword 0x4 _ 0 _⟩
  · refine ⟨rfl, decodeCmd_encode .phyReset, rfl, decodeCmd_encode .phyInit, rfl, decodeCmd_encode .pollLink, rfl, rfl,
      fun a ha => ?_, rfl, fun n hn => ?_, rfl, rfl, rfl, rfl⟩
    · exact assemble_of_wf (by simpa [AsmLine.wf] using ha) base
    · exact assemble_of_wf (by simp [AsmLine.wf]; omega) base
  · exact fun h => assemble_of_not_wf (by rw [c22Rd_wf_iff]; grind) base
  · exact fun h => assemble_of_not_wf (by rw [c22Wr_wf_iff]; grind) base
  · exact fun h => assemble_of_not_wf (by rw [c45Rd_wf_iff]; grind) base
  · exact fun h => assemble_of_not_wf (by rw [c45Wr_wf_iff]; grind) base

/-! ### The two waits -/

/-- The host's turn on the blocking wait: one STATUS read, and the wait stays while BUSY = 1 (R147, R187). -/
theorem step_waitIdle {s : State} {ps : List HostOp} {rest : List Turn} (hsched : s.env.sched = .host :: rest)
    (hprog : s.env.prog = .waitIdle :: ps) :
    step s = .next ((s.hostDone (if s.busy then .waitIdle :: ps else ps) rest).hostRead 0x04) := by
  rw [step_of_sched hsched]
  simp only [State.takeStep, State.turned_env, State.hostTurn, hprog, State.hostOp]
  rfl

/-- The host's turn on the suspending wait: no access, and the wait stays while IRQ = 0 (R268). -/
theorem step_waitIrq {s : State} {ps : List HostOp} {rest : List Turn} (hsched : s.env.sched = .host :: rest)
    (hprog : s.env.prog = .waitIrq :: ps) :
    step s = .next (s.hostDone (if irq s then ps else .waitIrq :: ps) rest) := by
  rw [step_of_sched hsched]
  simp only [State.takeStep, State.turned_env, State.hostTurn, hprog, State.hostOp]
  rfl

theorem csrRead_status_busy (s : State) : (csrRead s 0x04).getLsbD 0 = s.busy := by
  rw [csrRead_status, getLsbD_statusWord s 0 (by decide)]
  simp

/-- Settles O58: each wait changes the agents' data alone. -/
theorem waitingLeavesTheBlockAlone : Obligations.WaitingLeavesTheBlockAlone := by
  intro s ps rest hsched
  refine ⟨fun hprog => ⟨_, step_waitIdle hsched hprog, rfl, rfl, rfl, rfl, rfl, ?_⟩,
    fun hprog => ⟨_, step_waitIrq hsched hprog, rfl, rfl, rfl, rfl, rfl, rfl⟩⟩
  rw [csrRead_status_busy]
  rfl

end Sys2Proof.Machine
end

section
/-! PROOFS. The command-issue family (spec/40_command_issue.md): what a CMD write leaves at IDLE and elsewhere, and when the
interrupt rises. -/

namespace Sys2Proof.Machine

/-! ### A CMD write at IDLE -/

/-- The opcode of a word selects the arm of the decoder, which looks at the four fields alone (R122, R123). -/
theorem decodeCmd_of_cmdOp {w : Word} {op : BitVec 4} (h : cmdOp w = op) :
    decodeCmd w = decodeCmd (cmdword op (cmdPhyad w) (cmdRegad w) (cmdDevad w)) := by
  simp only [decodeCmd, cmdOp_cmdword, cmdPhyad_cmdword, cmdRegad_cmdword, cmdDevad_cmdword, h]

theorem cmdEffect_of_ok {w : Word} {i : Instr} (h : decodeCmd w = .ok i) (s : State) :
    s.cmdEffect w = s.issued i := by
  simp only [State.cmdEffect, h]

theorem cmdEffect_of_error {w : Word} {r : DecodeReject} (h : decodeCmd w = .error r) (s : State) :
    s.cmdEffect w = if s.pc = .idle then s.failAtOnce .illegal else s.reject := by
  simp only [State.cmdEffect, h]

theorem issued_of_idle {s : State} (h : s.pc = .idle) (i : Instr) : s.issued i = s.issuedIdle i := if_pos h

/-- The CMD write of a command at IDLE is accepted, or ends at once (R160). -/
theorem step_of_command {s : State} {w : Word} {i : Instr} {ps : List HostOp} {rest : List Turn}
    (hw : s.HostWrites 0x0C w ps rest) (hpc : s.pc = .idle) (hd : decodeCmd w = .ok i) :
    step s = .next ((s.hostDone ps rest).issuedIdle i) := by
  have hidle : (s.hostDone ps rest).pc = .idle := hpc
  rw [step_cmdWrite hw, cmdEffect_of_ok hd, issued_of_idle hidle]

/-- The CMD write of an illegal opcode at IDLE (R160, R162). -/
theorem step_of_illegal {s : State} {w : Word} {r : DecodeReject} {ps : List HostOp} {rest : List Turn}
    (hw : s.HostWrites 0x0C w ps rest) (hpc : s.pc = .idle) (hd : decodeCmd w = .error r) :
    step s = .next ((s.hostDone ps rest).failAtOnce .illegal) := by
  have hidle : (s.hostDone ps rest).pc = .idle := hpc
  rw [step_cmdWrite hw, cmdEffect_of_error hd, if_pos hidle]

/-- A CMD write of any word while a command runs and in FATAL (R38, R160). -/
theorem step_cmdWrite_of_not_idle {s : State} {w : Word} {ps : List HostOp} {rest : List Turn}
    (hw : s.HostWrites 0x0C w ps rest) (hpc : s.pc ≠ .idle) : step s = .next (s.hostDone ps rest).reject := by
  have hbusy : (s.hostDone ps rest).pc ≠ .idle := hpc
  rw [step_cmdWrite hw, issueChange_of_not_idle (cmdEffect_change _ w) hbusy]

/-! ### The PHY commands and the address (R164, R165) -/

section
variable {s : State} {a : Addr5}

theorem issuedIdle_phyReset_of_known (h : s.regs.phyaddr = .known a) :
    s.issuedIdle .phyReset = s.accept .rstW fun l => { l with op := 0x5, pa := a } := by
  simp only [State.issuedIdle, h]

theorem issuedIdle_phyReset_of_unknown (h : s.regs.phyaddr = .unknown) :
    s.issuedIdle .phyReset = s.accept .dscW fun l => { l with op := 0x5, cand := 0, att := 0 } := by
  simp only [State.issuedIdle, h]

theorem issuedIdle_phyInit_of_known (h : s.regs.phyaddr = .known a) :
    s.issuedIdle .phyInit = s.accept .iniCA fun l => { l with op := 0x6, pa := a } := by
  simp only [State.issuedIdle, h]

theorem issuedIdle_phyInit_of_unknown (h : s.regs.phyaddr = .unknown) :
    s.issuedIdle .phyInit = s.failAtOnce .addrUnknown := by
  simp only [State.issuedIdle, h]

theorem issuedIdle_pollLink_of_known (h : s.regs.phyaddr = .known a) :
    s.issuedIdle .pollLink = s.accept .polD fun l => { l with op := 0x7, pa := a, dcnt := s.regs.pollint } := by
  simp only [State.issuedIdle, h]

theorem issuedIdle_pollLink_of_unknown (h : s.regs.phyaddr = .unknown) :
    s.issuedIdle .pollLink = s.failAtOnce .addrUnknown := by
  simp only [State.issuedIdle, h]

end

/-- Settles O12: the opcode gives the command, and with it the latches and the start label. -/
theorem acceptanceLatchesAndStarts : Obligations.AcceptanceLatchesAndStarts := by
  intro s w ps rest hw hpc
  have issued {i : Instr} {op : BitVec 4} (hop : w.extractLsb' 0 4 = op)
      (hd : decodeCmd (cmdword op (cmdPhyad w) (cmdRegad w) (cmdDevad w)) = .ok i) :
      step s = .next ((s.hostDone ps rest).issuedIdle i) :=
    step_of_command hw hpc ((decodeCmd_of_cmdOp hop).trans hd)
  dsimp only
  refine ⟨fun hop => ?_, fun hop => ?_, fun hop => ?_, fun hop => ?_, fun hop a ha => ?_, fun hop ha => ?_,
    fun hop a ha => ?_, fun hop a ha => ?_⟩
  · rw [issued hop (decode_cmdword 0x1 _ _ _), hop]
    rfl
  · rw [issued hop (decode_cmdword 0x2 _ _ _), hop]
    rfl
  · rw [issued hop (decode_cmdword 0x3 _ _ _), hop, ← maskDev_cmdDevad]
    rfl
  · rw [issued hop (decode_cmdword 0x4 _ _ _), hop, ← maskDev_cmdDevad]
    rfl
  · rw [issued hop (decode_cmdword 0x5 _ _ _), issuedIdle_phyReset_of_known (s := s.hostDone ps rest) ha, hop]
    rfl
  · rw [issued hop (decode_cmdword 0x5 _ _ _), issuedIdle_phyReset_of_unknown (s := s.hostDone ps rest) ha, hop]
    rfl
  · rw [issued hop (decode_cmdword 0x6 _ _ _), issuedIdle_phyInit_of_known (s := s.hostDone ps rest) ha, hop]
    rfl
  · rw [issued hop (decode_cmdword 0x7 _ _ _), issuedIdle_pollLink_of_known (s := s.hostDone ps rest) ha, hop]
    rfl

/-- Settles O13: busy and FATAL are looked at before the opcode. -/
theorem cmdWriteChecksInOrder : Obligations.CmdWriteChecksInOrder := by
  intro s w ps rest hw
  refine ⟨step_cmdWrite_of_not_idle hw, fun hpc hop => ?_⟩
  have hd : decodeCmd w = .error (.illegalOpcode (cmdOp w)) := (decodeCmd_eq_error_iff w _).2 ⟨rfl, hop⟩
  exact step_of_illegal hw hpc hd

/-- Settles O14, command by command. -/
theorem unknownAddressEndsAtOnce : Obligations.UnknownAddressEndsAtOnce := by
  intro s i hturn hpc ha
  rw [exec_issued i hturn, issued_of_idle hpc]
  constructor
  · rintro (rfl | rfl)
    · rw [issuedIdle_phyInit_of_unknown ha]
      rfl
    · rw [issuedIdle_pollLink_of_unknown ha]
      rfl
  · rintro rfl
    exact ⟨_, rfl, by rw [issuedIdle_phyReset_of_unknown ha, State.accept_pc],
      by rw [issuedIdle_phyReset_of_unknown ha, State.accept_regs]⟩

/-! ### The interrupt -/

theorem irq_eq_csrRead (s : State) : irq s = ((csrRead s 0x00).getLsbD 0 && (csrRead s 0x04).getLsbD 1) := by
  have hdone : (csrRead s 0x04).getLsbD 1 = s.regs.done := by
    rw [csrRead_status, getLsbD_statusWord s 1 (by decide)]
    simp
  rw [csrRead_ctrl, ctrlWord_ie, hdone, irq]

theorem irq_eq_true_iff (s : State) : irq s = true ↔ s.regs.ie = true ∧ s.regs.done = true := Bool.and_eq_true_iff

/-- A step that leaves IE as it is and changes DONE only where it ends the running command (R33, R267). -/
structure State.DoneByEnd (s t : State) : Prop where
  ie : t.regs.ie = s.regs.ie
  done : t.regs.done = s.regs.done ∨ (s.busy = true ∧ t.busy = false)

theorem doneByEnd_of_regs {s t : State} (h : t.regs = s.regs) : s.DoneByEnd t := ⟨by rw [h], .inl (by rw [h])⟩

theorem okWrites_doneByEnd {s t : State} {v : Half} (hb : s.busy = true) (h : s.OkWrites v t) : s.DoneByEnd t := by
  cases h with
  | kept hr => exact doneByEnd_of_regs hr
  | ended hpc hr | read _ hpc hr | found _ _ hpc hr | polled _ _ hpc hr =>
    exact ⟨by rw [hr], .inr ⟨hb, not_busy_of_idle hpc⟩⟩

theorem answered_doneByEnd (s : State) (r : BusAnswer) : s.DoneByEnd (s.answered r) := by
  obtain ⟨-, ha⟩ | ⟨q, v, hq, -, ha⟩ | ⟨q, e, hq, -, ha⟩ := answered_cases s r <;> rw [ha]
  · exact doneByEnd_of_regs rfl
  · exact okWrites_doneByEnd (busy_of_inFlight hq)
      (okWrites_congr (u := s.record q r) rfl rfl rfl (afterOk_writes _ v))
  · exact ⟨rfl, .inr ⟨busy_of_inFlight hq, rfl⟩⟩

theorem delayEnd_doneByEnd (s : State) : s.DoneByEnd s.delayEnd := by
  obtain hn | ⟨hpc, hn⟩ | ⟨-, hn⟩ := delayEnd_cases s <;> rw [hn]
  · exact doneByEnd_of_regs rfl
  · obtain ⟨-, hn⟩ | hn | hn := discoveryNext_cases s <;> rw [hn]
    · exact doneByEnd_of_regs rfl
    · exact doneByEnd_of_regs rfl
    · exact ⟨rfl, .inr ⟨by rw [State.busy, hpc]; rfl, rfl⟩⟩
  · exact doneByEnd_of_regs rfl

/-- A rise of IRQ that comes of DONE alone: IE was set, and DONE was not (R267). -/
theorem done_rises_of_irq_rises {s t : State} (hie : t.regs.ie = s.regs.ie) (h0 : irq s = false) (h1 : irq t = true) :
    s.regs.ie = true ∧ s.regs.done = false ∧ t.regs.done = true := by
  obtain ⟨hi, hd⟩ := (irq_eq_true_iff t).1 h1
  rw [hie] at hi
  refine ⟨hi, ?_, hd⟩
  simpa [irq, hi] using h0

/-- The two ways in which IRQ rises at a turn of the host: the command it writes ends at once (R162, R165), or it
sets IE. -/
theorem hostChange_irq_rises {s u : State} (h : s.HostChange u) (h0 : irq s = false) (h1 : irq u = true) :
    (u.regs.ie = s.regs.ie ∧ s.pc = .idle ∧ (u.regs.errcode = .illegal ∨ u.regs.errcode = .addrUnknown)) ∨
    (s.regs.ie = false ∧ s.regs.done = true ∧ u.regs.done = true) := by
  cases h with
  | unchanged | refused | arg | phyaddr | pollint => exact absurd (h0.symm.trans h1) (by decide)
  | ctrl b =>
    obtain ⟨-, hd⟩ := (irq_eq_true_iff _).1 h1
    exact .inr ⟨by simpa [irq, show s.regs.done = true from hd] using h0, hd, hd⟩
  | status d r =>
    obtain ⟨hi, hd⟩ := (irq_eq_true_iff _).1 h1
    have hirq : irq s = true := (irq_eq_true_iff s).2 ⟨hi, (Bool.and_eq_true_iff.1 hd).1⟩
    exact absurd (h0.symm.trans hirq) (by decide)
  | command hi =>
    cases hi with
    | rejected => exact absurd (h0.symm.trans h1) (by decide)
    | accepted => exact absurd ((irq_eq_true_iff _).1 h1).2 (by simp)
    | failed hpc c hc => exact .inl ⟨rfl, hpc, hc⟩

/-- Settles O57, by the agent whose turn it is. -/
theorem interruptRisesOnlyAtAnEnd : Obligations.InterruptRisesOnlyAtAnEnd := by
  refine ⟨irq_eq_csrRead, fun s t hstep h0 h1 => ?_⟩
  have hturn : irq s.takeTurn = false := by simpa [irq] using h0
  have byEnd (h : s.takeTurn.DoneByEnd t) :
      s.regs.ie = true ∧ s.regs.done = false ∧ t.regs.done = true ∧ s.busy = true ∧ t.busy = false := by
    obtain ⟨hie, hdone⟩ := h
    rw [takeTurn_regs] at hie hdone
    obtain ⟨hi, hd, hd'⟩ := done_rises_of_irq_rises hie h0 h1
    have hend := hdone.resolve_left (by simp [hd, hd'])
    exact ⟨hi, hd, hd', by simpa [State.busy] using hend⟩
  obtain ⟨hhost, heff⟩ | ⟨r, -, ht⟩ | ⟨-, ht⟩ | ⟨-, ht⟩ | ⟨-, ht⟩ := step_cases hstep
  · obtain ⟨u, hu, ht⟩ := hostEffect_change heff
    have hr : t.regs = u.regs := by rw [ht]
    have h1u : irq u = true := by rwa [irq, ← hr]
    rw [hr]
    obtain ⟨hie, hpc, hcode⟩ | ⟨hie, hd, hd'⟩ := hostChange_irq_rises hu h0 h1u
    · obtain ⟨hi, hd, hd'⟩ := done_rises_of_irq_rises hie h0 h1u
      exact .inl ⟨hi, hd, hd', .inr ⟨hpc, hhost, hcode⟩⟩
    · exact .inr ⟨hie, hd, hd', hhost⟩
  · obtain ⟨hi, hd, hd', hend⟩ := byEnd (ht ▸ answered_doneByEnd _ r)
    exact .inl ⟨hi, hd, hd', .inl hend⟩
  · obtain ⟨hi, hd, hd', hend⟩ := byEnd (ht ▸ delayEnd_doneByEnd _)
    exact .inl ⟨hi, hd, hd', .inl hend⟩
  · obtain ⟨hi, hd, hd', hend⟩ := byEnd (doneByEnd_of_regs (ht ▸ tick_regs _))
    exact .inl ⟨hi, hd, hd', .inl hend⟩
  · rw [ht] at h1
    cases h1

end Sys2Proof.Machine
end

section
/-! PROOFS. The Clause 22 commands of the station-management family (spec/41_station_management.md): the one step of each when
the backend answers. -/

namespace Sys2Proof.Machine

/-! ### What an answer leaves with a primitive in flight -/

section
variable {s : State} {q : BusRequest} (h : s.inFlight = some q)
include h

theorem answered_ok (v : Half) : s.answered (.ok v) = (s.record q (.ok v)).afterOk v := by
  simp only [State.answered, h]

theorem answered_err (e : Word) : s.answered (.err e) = (s.record q (.err e)).busError e := by
  simp only [State.answered, h]

end

/-! ### The labels C22R and C22W -/

theorem inFlight_of_c22r {s : State} (h : s.pc = .c22r) : s.inFlight = some (.rd s.latch.pa s.latch.ra) := by
  simp only [State.inFlight, h]

theorem inFlight_of_c22w {s : State} (h : s.pc = .c22w) :
    s.inFlight = some (.wr s.latch.pa s.latch.ra s.latch.wdata) := by
  simp only [State.inFlight, h]

theorem afterOk_of_c22r {s : State} (h : s.pc = .c22r) (v : Half) : s.afterOk v = (s.setRdata v).complete := by
  simp only [State.afterOk, h]

theorem afterOk_of_c22w {s : State} (h : s.pc = .c22w) (v : Half) : s.afterOk v = s.complete := by
  simp only [State.afterOk, h]

section
variable {s : State} {r : BusAnswer} (hturn : s.env.turn = .bus r)
include hturn

/-- On an answer C22_RD takes its addresses from the latches, not from its operands (R112, R183). -/
theorem exec_c22Rd_answered (hpc : s.pc = .c22r) (phy reg : Addr5) : exec (.c22Rd phy reg) s = .next (s.answered r) := by
  have hrun : s.running = some (.c22Rd s.latch.pa s.latch.ra) := by simp only [State.running, hpc]
  calc exec (.c22Rd phy reg) s
    _ = exec (.c22Rd s.latch.pa s.latch.ra) s := by simp only [exec, execC22Rd, State.commandStep, hturn]
    _ = .next (s.answered r) := exec_answered hturn hrun

/-- On an answer C22_WR takes its addresses from the latches, not from its operands (R112, R185). -/
theorem exec_c22Wr_answered (hpc : s.pc = .c22w) (phy reg : Addr5) : exec (.c22Wr phy reg) s = .next (s.answered r) := by
  have hrun : s.running = some (.c22Wr s.latch.pa s.latch.ra) := by simp only [State.running, hpc]
  calc exec (.c22Wr phy reg) s
    _ = exec (.c22Wr s.latch.pa s.latch.ra) s := by simp only [exec, execC22Wr, State.commandStep, hturn]
    _ = .next (s.answered r) := exec_answered hturn hrun

end

/-- Settles O20: the answer meets the read in flight at C22R, and the step is its completion or its bus error. -/
theorem c22ReadCompletes : Obligations.C22ReadCompletes := by
  intro s phy reg hpc
  have hq := inFlight_of_c22r hpc
  refine ⟨fun v hturn => ?_, fun e hturn => ?_⟩
  · have hlabel : (s.record (.rd s.latch.pa s.latch.ra) (.ok v)).pc = .c22r := hpc
    rw [exec_c22Rd_answered hturn hpc, answered_ok hq, afterOk_of_c22r hlabel]
    rfl
  · rw [exec_c22Rd_answered hturn hpc, answered_err hq]
    rfl

/-- Settles O21: the answer meets the write in flight at C22W, and the step is its completion or its bus error. -/
theorem c22WriteCompletes : Obligations.C22WriteCompletes := by
  intro s phy reg hpc
  have hq := inFlight_of_c22w hpc
  refine ⟨fun v hturn => ?_, fun e hturn => ?_⟩
  · have hlabel : (s.record (.wr s.latch.pa s.latch.ra s.latch.wdata) (.ok v)).pc = .c22w := hpc
    rw [exec_c22Wr_answered hturn hpc, answered_ok hq, afterOk_of_c22w hlabel]
    rfl
  · rw [exec_c22Wr_answered hturn hpc, answered_err hq]
    rfl

end Sys2Proof.Machine
end

section
/-! PROOFS. The Clause 45 composites (spec/42_clause45.md): the masked identifier, the step at each of their labels, and the
run of a whole composite. -/

namespace Sys2Proof.Machine

/-! ### The masked identifier -/

section
variable {dev dev' : Byte} (h : maskDev dev = maskDev dev')
include h

theorem exec_c45Rd_congr (phy : Addr5) (s : State) : exec (.c45Rd phy dev) s = exec (.c45Rd phy dev') s := by
  simp only [exec, execC45Rd, h]

theorem exec_c45Wr_congr (phy : Addr5) (s : State) : exec (.c45Wr phy dev) s = exec (.c45Wr phy dev') s := by
  simp only [exec, execC45Wr, h]

end

/-- Settles O22: acceptance masks the identifier, and no other step of a composite looks at it. -/
theorem deviceIsMasked : Obligations.DeviceIsMasked := by
  intro s phy dev dev' hdev
  refine ⟨exec_c45Rd_congr hdev phy s, exec_c45Wr_congr hdev phy s, fun hturn hpc => ?_⟩
  have accepted (i : Instr) : exec i s = .next (s.issuedIdle i) := by rw [exec_issued i hturn, issued_of_idle hpc]
  exact ⟨⟨_, accepted _, rfl, ctlword_maskDev funcAddr dev, ctlword_maskDev funcRead dev⟩,
    ⟨_, accepted _, rfl, ctlword_maskDev funcAddr dev, ctlword_maskDev funcWrite dev⟩⟩

/-! ### The step on an answer -/

section
variable {s : State} {q : BusRequest} {rest : List Turn} (hq : s.inFlight = some q)
include hq

theorem step_ok {v : Half} (h : s.env.sched = .bus (.ok v) :: rest) :
    step s = .next (((s.turned (.bus (.ok v)) rest).record q (.ok v)).afterOk v) := by
  rw [step_bus h, answered_ok (s := s.turned (.bus (.ok v)) rest) hq]

theorem step_err {e : Word} (h : s.env.sched = .bus (.err e) :: rest) :
    step s = .next (((s.turned (.bus (.err e)) rest).record q (.err e)).busError e) := by
  rw [step_bus h, answered_err (s := s.turned (.bus (.err e)) rest) hq]

end

/-- Before a line's last label an `Ok` answer only moves the sequencer on (R203, R233). -/
theorem afterOk_of_nextOnLine {s : State} {l : Label} (h : s.nextOnLine = some l) (v : Half) :
    s.afterOk v = s.goto l := by
  unfold State.nextOnLine at h
  cases hpc : s.pc <;> simp only [hpc, Option.some.injEq, reduceCtorEq] at h <;> subst h <;>
    simp only [State.afterOk, hpc]

theorem step_ok_of_nextOnLine {s : State} {q : BusRequest} {l : Label} {v : Half} {rest : List Turn}
    (hq : s.inFlight = some q) (hnext : s.nextOnLine = some l) (h : s.env.sched = .bus (.ok v) :: rest) :
    step s = .next (((s.turned (.bus (.ok v)) rest).record q (.ok v)).goto l) := by
  have hnext' : ((s.turned (.bus (.ok v)) rest).record q (.ok v)).nextOnLine = some l := hnext
  rw [step_ok hq h, afterOk_of_nextOnLine hnext']

/-! ### The labels C45CA, C45RN and C45CO -/

section
variable {s : State}

theorem inFlight_of_c45ca (h : s.pc = .c45ca) :
    s.inFlight = some (.wr s.latch.pa mmdctl (ctlAddr s.latch.devByte)) := by
  simp only [State.inFlight, h]

theorem inFlight_of_c45rn (h : s.pc = .c45rn) : s.inFlight = some (.wr s.latch.pa mmddata s.latch.regnum) := by
  simp only [State.inFlight, h]

theorem inFlight_of_c45co (h : s.pc = .c45co) :
    s.inFlight = some (.wr s.latch.pa mmdctl
      (if s.latch.op = 0x3 then ctlRead s.latch.devByte else ctlWrite s.latch.devByte)) := by
  simp only [State.inFlight, h]

theorem nextOnLine_of_c45ca (h : s.pc = .c45ca) : s.nextOnLine = some .c45rn := by
  simp only [State.nextOnLine, h]

theorem nextOnLine_of_c45rn (h : s.pc = .c45rn) : s.nextOnLine = some .c45co := by
  simp only [State.nextOnLine, h]

theorem nextOnLine_of_c45co (h : s.pc = .c45co) :
    s.nextOnLine = some (if s.latch.op = 0x3 then .c45dr else .c45dw) := by
  simp only [State.nextOnLine, h]

end

/-- A write before a line's last label, on either answer. -/
theorem step_of_write_on_line {s : State} {pa ra : Addr5} {w : Half} {l : Label} {r : BusAnswer} {rest : List Turn}
    (hq : s.inFlight = some (.wr pa ra w)) (hnext : s.nextOnLine = some l) (h : s.env.sched = .bus r :: rest) :
    (∀ v, r = .ok v →
      step s = .next { s.turned (.bus r) rest with history := s.history ++ [.wrOk pa ra w], pc := l }) ∧
    (∀ e, r = .err e → step s = .next { s.turned (.bus r) rest with
      history := s.history ++ [.wrErr pa ra w e]
      regs := { s.regs with err := true, errcode := .bus, buserr := e, done := true }
      pc := .idle }) := by
  constructor
  · rintro v rfl
    exact step_ok_of_nextOnLine hq hnext h
  · rintro e rfl
    exact step_err hq h

/-- Settles O23, label by label. -/
theorem compositeStepsOneToThree : Obligations.CompositeStepsOneToThree := by
  intro s r rest h
  refine ⟨fun hpc => ?_, fun hpc => ?_, fun hpc hop => ?_, fun hpc hop => ?_⟩
  · exact step_of_write_on_line (inFlight_of_c45ca hpc) (nextOnLine_of_c45ca hpc) h
  · exact step_of_write_on_line (inFlight_of_c45rn hpc) (nextOnLine_of_c45rn hpc) h
  · exact step_of_write_on_line (by rw [inFlight_of_c45co hpc, if_pos hop]; rfl)
      (by rw [nextOnLine_of_c45co hpc, if_pos hop]) h
  · exact step_of_write_on_line (by rw [inFlight_of_c45co hpc, if_neg hop]; rfl)
      (by rw [nextOnLine_of_c45co hpc, if_neg hop]) h

/-! ### The labels C45DR and C45DW -/

section
variable {s : State}

theorem inFlight_of_c45dr (h : s.pc = .c45dr) : s.inFlight = some (.rd s.latch.pa mmddata) := by
  simp only [State.inFlight, h]

theorem inFlight_of_c45dw (h : s.pc = .c45dw) : s.inFlight = some (.wr s.latch.pa mmddata s.latch.wdata) := by
  simp only [State.inFlight, h]

theorem afterOk_of_c45dr (h : s.pc = .c45dr) (v : Half) : s.afterOk v = (s.setRdata v).complete := by
  simp only [State.afterOk, h]

theorem afterOk_of_c45dw (h : s.pc = .c45dw) (v : Half) : s.afterOk v = s.complete := by
  simp only [State.afterOk, h]

end

section
variable {s : State} {r : BusAnswer} (hturn : s.env.turn = .bus r)
include hturn

/-- On an answer C45_RD takes its operands from the latches (R112, R205). -/
theorem exec_c45Rd_answered (hpc : s.pc = .c45dr) (phy : Addr5) (dev : Byte) :
    exec (.c45Rd phy dev) s = .next (s.answered r) := by
  have hrun : s.running = some (.c45Rd s.latch.pa s.latch.devByte) := by simp only [State.running, hpc]
  calc exec (.c45Rd phy dev) s
    _ = exec (.c45Rd s.latch.pa s.latch.devByte) s := by simp only [exec, execC45Rd, State.commandStep, hturn]
    _ = .next (s.answered r) := exec_answered hturn hrun

/-- On an answer C45_WR takes its operands from the latches (R112, R207). -/
theorem exec_c45Wr_answered (hpc : s.pc = .c45dw) (phy : Addr5) (dev : Byte) :
    exec (.c45Wr phy dev) s = .next (s.answered r) := by
  have hrun : s.running = some (.c45Wr s.latch.pa s.latch.devByte) := by simp only [State.running, hpc]
  calc exec (.c45Wr phy dev) s
    _ = exec (.c45Wr s.latch.pa s.latch.devByte) s := by simp only [exec, execC45Wr, State.commandStep, hturn]
    _ = .next (s.answered r) := exec_answered hturn hrun

end

/-- Settles O24: the answer meets the read in flight at C45DR. -/
theorem c45ReadCompletes : Obligations.C45ReadCompletes := by
  intro s phy dev hpc
  have hq := inFlight_of_c45dr hpc
  refine ⟨fun v hturn => ?_, fun e hturn => ?_⟩
  · have hlabel : (s.record (.rd s.latch.pa mmddata) (.ok v)).pc = .c45dr := hpc
    rw [exec_c45Rd_answered hturn hpc, answered_ok hq, afterOk_of_c45dr hlabel]
    rfl
  · rw [exec_c45Rd_answered hturn hpc, answered_err hq]
    rfl

/-- Settles O25: the answer meets the write in flight at C45DW. -/
theorem c45WriteCompletes : Obligations.C45WriteCompletes := by
  intro s phy dev hpc
  have hq := inFlight_of_c45dw hpc
  refine ⟨fun v hturn => ?_, fun e hturn => ?_⟩
  · have hlabel : (s.record (.wr s.latch.pa mmddata s.latch.wdata) (.ok v)).pc = .c45dw := hpc
    rw [exec_c45Wr_answered hturn hpc, answered_ok hq, afterOk_of_c45dw hlabel]
    rfl
  · rw [exec_c45Wr_answered hturn hpc, answered_err hq]
    rfl

/-! ### The primitives that a composite still has to issue -/

/-- The four primitives of a composite with opcode `op` (R203, R205, R207). -/
def compositeRequests (op : BitVec 4) (pa : Addr5) (dev : Byte) (regnum wdata : Half) : List BusRequest :=
  [.wr pa mmdctl (ctlAddr dev), .wr pa mmddata regnum,
    .wr pa mmdctl (if op = 0x3 then ctlRead dev else ctlWrite dev),
    if op = 0x3 then .rd pa mmddata else .wr pa mmddata wdata]

/-- The primitives from the sequencer's label to the end of the composite, the one in flight first; none outside a
composite. -/
def State.compositeLeft (s : State) : List BusRequest :=
  let l := s.latch
  let requests := compositeRequests l.op l.pa l.devByte l.regnum l.wdata
  match s.pc with
  | .c45ca => requests
  | .c45rn => requests.drop 1
  | .c45co => requests.drop 2
  | .c45dr => [.rd l.pa mmddata]
  | .c45dw => [.wr l.pa mmddata l.wdata]
  | _ => []

/-- A composite does not see the bits of the identifier above the mask (R201). -/
theorem compositeRequests_maskDev (op : BitVec 4) (pa : Addr5) (dev : Byte) (regnum wdata : Half) :
    compositeRequests op pa ((maskDev dev).setWidth 8) regnum wdata = compositeRequests op pa dev regnum wdata := by
  simp only [compositeRequests, ctlAddr, ctlRead, ctlWrite, ctlword_maskDev]

section
variable {s : State} {q q' : BusRequest} {qs : List BusRequest}

theorem inFlight_of_compositeLeft (h : s.compositeLeft = q :: qs) : s.inFlight = some q := by
  cases hpc : s.pc <;>
    simp only [State.compositeLeft, hpc, compositeRequests, List.drop, List.cons.injEq, reduceCtorEq] at h <;>
    obtain ⟨rfl, -⟩ := h
  case c45ca => exact inFlight_of_c45ca hpc
  case c45rn => exact inFlight_of_c45rn hpc
  case c45co => exact inFlight_of_c45co hpc
  case c45dr => exact inFlight_of_c45dr hpc
  case c45dw => exact inFlight_of_c45dw hpc

/-- The next label of a composite has the primitives after the one in flight still to issue (R203). -/
theorem nextOnLine_of_compositeLeft (h : s.compositeLeft = q :: q' :: qs) :
    ∃ l, s.nextOnLine = some l ∧ (s.goto l).compositeLeft = q' :: qs := by
  cases hpc : s.pc <;>
    simp only [State.compositeLeft, hpc, compositeRequests, List.drop, List.cons.injEq, reduceCtorEq, and_false] at h
  case c45ca =>
    obtain ⟨-, rfl, rfl⟩ := h
    exact ⟨.c45rn, nextOnLine_of_c45ca hpc, rfl⟩
  case c45rn =>
    obtain ⟨-, rfl, rfl⟩ := h
    exact ⟨.c45co, nextOnLine_of_c45rn hpc, rfl⟩
  case c45co =>
    obtain ⟨-, rfl, rfl⟩ := h
    refine ⟨_, nextOnLine_of_c45co hpc, ?_⟩
    split <;> rfl

theorem pc_of_compositeLeft_read {pa ra : Addr5} (h : s.compositeLeft = [.rd pa ra]) : s.pc = .c45dr := by
  cases hpc : s.pc <;> simp [State.compositeLeft, hpc, compositeRequests] at h ⊢

theorem pc_of_compositeLeft_write {pa ra : Addr5} {w : Half} (h : s.compositeLeft = [.wr pa ra w]) :
    s.pc = .c45dw := by
  cases hpc : s.pc <;> simp [State.compositeLeft, hpc, compositeRequests] at h ⊢

end

/-! ### The run of a composite -/

/-- How `t` stands after a composite has gone on from `s` with the events `evs`: the primitives `left` are still to issue,
and the turns `turns` are still listed. -/
structure State.CompositeRun (s : State) (evs : List BusEvent) (left : List BusRequest) (turns : List Turn)
    (t : State) : Prop where
  left : t.compositeLeft = left
  sched : t.env.sched = turns
  history : t.history = s.history ++ evs
  regs : t.regs = s.regs
  params : t.params = s.params

theorem compositeRun_trans {s t u : State} {evs evs' : List BusEvent} {left left' : List BusRequest}
    {turns turns' : List Turn} (h : s.CompositeRun evs left turns t) (h' : t.CompositeRun evs' left' turns' u) :
    s.CompositeRun (evs ++ evs') left' turns' u := by
  refine ⟨h'.left, h'.sched, ?_, h'.regs.trans h.regs, h'.params.trans h.params⟩
  rw [h'.history, h.history, List.append_assoc]

/-- An `Ok` answer before the last primitive records it and leaves the others to issue. -/
theorem step_composite {s : State} {q q' : BusRequest} {qs : List BusRequest} {v : Half} {rest : List Turn}
    (hleft : s.compositeLeft = q :: q' :: qs) (h : s.env.sched = .bus (.ok v) :: rest) :
    ∃ t, step s = .next t ∧ s.CompositeRun [BusEvent.of q (.ok v)] (q' :: qs) rest t := by
  obtain ⟨l, hnext, hleft'⟩ := nextOnLine_of_compositeLeft hleft
  exact ⟨_, step_ok_of_nextOnLine (inFlight_of_compositeLeft hleft) hnext h, hleft', rfl, rfl, rfl, rfl⟩

/-- `Ok` answers to the primitives `done` leave the composite at the next one, `q`. -/
theorem run_composite {q : BusRequest} {qs : List BusRequest} {rest : List Turn} (done : List BusRequest)
    (oks : List Half) {s : State} (hlen : done.length = oks.length) (hleft : s.compositeLeft = done ++ q :: qs)
    (h : s.env.sched = oks.map (fun v => Turn.bus (.ok v)) ++ rest) :
    ∃ t, stepN oks.length s = .next t ∧
      s.CompositeRun (List.zipWith BusEvent.of done (oks.map .ok)) (q :: qs) rest t := by
  induction oks generalizing s done with
  | nil =>
    obtain rfl := List.length_eq_zero_iff.1 hlen
    exact ⟨s, rfl, hleft, h, by simp, rfl, rfl⟩
  | cons v oks ih =>
    obtain ⟨d, ds, rfl⟩ := List.exists_cons_of_length_eq_add_one hlen
    obtain ⟨q', qs', hqs⟩ : ∃ q' qs', ds ++ q :: qs = q' :: qs' := by cases ds <;> exact ⟨_, _, rfl⟩
    obtain ⟨u, hstep, hu⟩ := step_composite (hleft.trans (by rw [List.cons_append, hqs])) h
    obtain ⟨t, hrun, ht⟩ := ih ds (by simpa using hlen) (hu.left.trans hqs.symm) hu.sched
    exact ⟨t, by rw [List.length_cons, stepN_succ _ hstep, hrun], compositeRun_trans hu ht⟩

/-- The primitives of the composite that the CMD word `w` asks for, with ARG as it stands (R120, R121). -/
def State.compositeOf (s : State) (w : Word) : List BusRequest :=
  compositeRequests (cmdOp w) (cmdPhyad w) (cmdDevad w) (argRegnum s.regs.arg) (argWdata s.regs.arg)

theorem decodeCmd_of_composite {w : Word} (hop : cmdOp w = 0x3 ∨ cmdOp w = 0x4) :
    decodeCmd w = .ok (if cmdOp w = 0x3 then .c45Rd (cmdPhyad w) (cmdDevad w) else .c45Wr (cmdPhyad w) (cmdDevad w)) := by
  obtain hop | hop := hop <;> rw [decodeCmd_of_cmdOp hop, hop]
  · exact decode_cmdword 0x3 _ _ _
  · exact decode_cmdword 0x4 _ _ _

/-- The CMD write of a composite at IDLE clears the outcome and leaves all its primitives to issue (R163, R164). -/
theorem step_cmdWrite_composite {s : State} {w : Word} {ps : List HostOp} {rest : List Turn}
    (hw : s.HostWrites 0x0C w ps rest) (hpc : s.pc = .idle) (hop : cmdOp w = 0x3 ∨ cmdOp w = 0x4) :
    ∃ t, step s = .next t ∧ (s.accept .c45ca id).CompositeRun [] (s.compositeOf w) rest t := by
  refine ⟨_, step_of_command hw hpc (decodeCmd_of_composite hop), ?_⟩
  unfold State.compositeOf
  obtain hop | hop := hop <;> rw [hop, ← compositeRequests_maskDev]
  · exact ⟨rfl, rfl, (List.append_nil _).symm, rfl, rfl⟩
  · exact ⟨rfl, rfl, (List.append_nil _).symm, rfl, rfl⟩

/-- The CMD write of a composite and `Ok` answers to the primitives `done` leave it at the next one, `q`. -/
theorem run_from_cmdWrite {s : State} {w : Word} {ps : List HostOp} {rest : List Turn} {done : List BusRequest}
    {q : BusRequest} {qs : List BusRequest} {oks : List Half}
    (hw : s.HostWrites 0x0C w ps (oks.map (fun v => Turn.bus (.ok v)) ++ rest)) (hpc : s.pc = .idle)
    (hop : cmdOp w = 0x3 ∨ cmdOp w = 0x4) (hreq : s.compositeOf w = done ++ q :: qs)
    (hlen : done.length = oks.length) :
    ∃ t, stepN (oks.length + 1) s = .next t ∧
      (s.accept .c45ca id).CompositeRun (List.zipWith BusEvent.of done (oks.map .ok)) (q :: qs) rest t := by
  obtain ⟨u, hstep, hu⟩ := step_cmdWrite_composite hw hpc hop
  obtain ⟨t, hrun, ht⟩ := run_composite done oks hlen (hu.left.trans hreq) hu.sched
  exact ⟨t, by rw [stepN_succ _ hstep, hrun], compositeRun_trans hu ht⟩

theorem stepN_add_one {s t u : State} {n : Nat} (h : stepN n s = .next t) (hstep : step t = .next u) :
    stepN (n + 1) s = .next u := by
  rw [stepN_add, h]
  simp [stepN, hstep]

section
variable {s : State} {w : Word}

theorem compositeOf_read (hop : cmdOp w = 0x3) : s.compositeOf w =
    [.wr (cmdPhyad w) mmdctl (ctlAddr (cmdDevad w)), .wr (cmdPhyad w) mmddata (argRegnum s.regs.arg),
      .wr (cmdPhyad w) mmdctl (ctlRead (cmdDevad w))] ++ [.rd (cmdPhyad w) mmddata] := by
  rw [State.compositeOf, hop]
  rfl

theorem compositeOf_write (hop : cmdOp w = 0x4) : s.compositeOf w =
    [.wr (cmdPhyad w) mmdctl (ctlAddr (cmdDevad w)), .wr (cmdPhyad w) mmddata (argRegnum s.regs.arg),
      .wr (cmdPhyad w) mmdctl (ctlWrite (cmdDevad w))] ++ [.wr (cmdPhyad w) mmddata (argWdata s.regs.arg)] := by
  rw [State.compositeOf, hop]
  rfl

end

section
variable {s : State} {pa ra : Addr5} {v : Half} {rest : List Turn} (h : s.env.sched = .bus (.ok v) :: rest)
include h

theorem step_last_read (hleft : s.compositeLeft = [.rd pa ra]) :
    step s = .next (((s.turned (.bus (.ok v)) rest).record (.rd pa ra) (.ok v)).setRdata v).complete := by
  have hpc : ((s.turned (.bus (.ok v)) rest).record (.rd pa ra) (.ok v)).pc = .c45dr := pc_of_compositeLeft_read hleft
  rw [step_ok (inFlight_of_compositeLeft hleft) h, afterOk_of_c45dr hpc]

theorem step_last_write {x : Half} (hleft : s.compositeLeft = [.wr pa ra x]) :
    step s = .next ((s.turned (.bus (.ok v)) rest).record (.wr pa ra x) (.ok v)).complete := by
  have hpc : ((s.turned (.bus (.ok v)) rest).record (.wr pa ra x) (.ok v)).pc = .c45dw :=
    pc_of_compositeLeft_write hleft
  rw [step_ok (inFlight_of_compositeLeft hleft) h, afterOk_of_c45dw hpc]

end

/-- Settles O26: three `Ok` answers lead to the last primitive, and the fourth ends the command. -/
theorem compositeIssuesFourPrimitives : Obligations.CompositeIssuesFourPrimitives := by
  intro s w ps rest v1 v2 v3 v hw hpc
  refine ⟨fun hop => ?_, fun hop => ?_⟩
  · obtain ⟨t, hrun, ht⟩ := run_from_cmdWrite (oks := [v1, v2, v3]) hw hpc (.inl hop) (compositeOf_read hop) rfl
    refine ⟨_, stepN_add_one hrun (step_last_read ht.sched ht.left), ?_, ?_, rfl, ht.params⟩
    · simp only [State.complete_history, State.setRdata_history, State.record_history, State.turned_history, ht.history,
        List.append_assoc]
      rfl
    · simp only [State.complete_regs, State.setRdata_regs, State.record_regs, State.turned_regs, ht.regs,
        State.accept_regs]
  · obtain ⟨t, hrun, ht⟩ := run_from_cmdWrite (oks := [v1, v2, v3]) hw hpc (.inr hop) (compositeOf_write hop) rfl
    refine ⟨_, stepN_add_one hrun (step_last_write ht.sched ht.left), ?_, ?_, rfl, ht.params⟩
    · simp only [State.complete_history, State.record_history, State.turned_history, ht.history, List.append_assoc]
      rfl
    · simp only [State.complete_regs, State.record_regs, State.turned_regs, ht.regs, State.accept_regs]

/-- Settles O27: the primitives before the k-th are answered `Ok`, and the k-th ends the command in a bus error. -/
theorem compositeAbortsAtTheFirstFailure : Obligations.CompositeAbortsAtTheFirstFailure := by
  intro s w ps rest oks e hw hpc hop hlen
  have hlt : oks.length < (s.compositeOf w).length := hlen
  obtain ⟨done, qs, hreq, hdone, -⟩ := List.exists_of_set (a' := default) hlt
  generalize (s.compositeOf w)[oks.length] = q at hreq
  obtain ⟨t, hrun, ht⟩ := run_from_cmdWrite hw hpc hop hreq hdone
  refine ⟨_, stepN_add_one hrun (step_err (inFlight_of_compositeLeft ht.left) ht.sched), ?_, ?_, rfl⟩
  · have hevents : List.zipWith BusEvent.of (s.compositeOf w) (oks.map .ok ++ [.err e]) =
        List.zipWith BusEvent.of done (oks.map .ok) ++ [BusEvent.of q (.err e)] := by
      rw [hreq, List.zipWith_append (by simpa using hdone)]
      simp
    rw [State.busError_history, State.record_history, State.turned_history, ht.history, State.accept_history,
      List.append_assoc, ← hevents]
    rfl
  · rw [State.busError_regs, State.record_regs, State.turned_regs, ht.regs, State.accept_regs]

end Sys2Proof.Machine
end

section
/-! PROOFS. The steps of the PHY controller family (spec/43_phy_controller.md): PHY_RESET with a known address and in
discovery, PHY_INIT and POLL_LINK, label by label. -/

namespace Sys2Proof.Machine

/-! ### The step of the running command -/

/-- An `Ok` answer leads on whatever the history holds: the event of the primitive may as well be recorded after it. -/
theorem afterOk_record (s : State) (q : BusRequest) (r : BusAnswer) (v : Half) :
    (s.record q r).afterOk v = (s.afterOk v).record q r := by
  cases hpc : s.pc <;> simp only [State.afterOk, State.record_pc, hpc]
  case rstP | dscP | polS => split <;> rfl
  all_goals rfl

/-- Nor does it look at the agents' data. -/
theorem afterOk_turned (s : State) (trn : Turn) (rest : List Turn) (v : Half) :
    (s.turned trn rest).afterOk v = (s.afterOk v).turned trn rest := by
  cases hpc : s.pc <;> simp only [State.afterOk, State.turned_pc, hpc]
  case rstP | dscP | polS => split <;> rfl
  all_goals rfl

theorem step_ok_afterOk {s : State} {q : BusRequest} {v : Half} {rest : List Turn} (hq : s.inFlight = some q)
    (h : s.env.sched = .bus (.ok v) :: rest) :
    step s = .next (((s.afterOk v).turned (.bus (.ok v)) rest).record q (.ok v)) := by
  rw [step_ok hq h, afterOk_record, afterOk_turned]

section
variable {s : State} {i : Instr} {q : BusRequest} (hi : s.running = some i) (hq : s.inFlight = some q)
include hi hq

theorem exec_ok {v : Half} (hturn : s.env.turn = .bus (.ok v)) :
    exec i s = .next ((s.afterOk v).record q (.ok v)) := by
  rw [exec_answered hturn hi, answered_ok hq, afterOk_record]

theorem exec_err {e : Word} (hturn : s.env.turn = .bus (.err e)) :
    exec i s = .next ((s.record q (.err e)).busError e) := by
  rw [exec_answered hturn hi, answered_err hq]

/-- Before a line's last label an `Ok` answer records the primitive and moves the sequencer on (R233). -/
theorem exec_ok_of_nextOnLine {v : Half} {l : Label} (hnext : s.nextOnLine = some l)
    (hturn : s.env.turn = .bus (.ok v)) : exec i s = .next ((s.goto l).record q (.ok v)) := by
  rw [exec_ok hi hq hturn, afterOk_of_nextOnLine hnext]

end

/-- The labels of PHY_RESET (R221, R222, R225 to R228). -/
def phyResetLabels : List Label := [.rstW, .rstP, .dscW, .dscP, .dscD]

/-- The labels of PHY_INIT (R233). -/
def phyInitLabels : List Label := [.iniCA, .iniRN, .iniCO, .iniDW, .iniBM]

section
variable {s : State}

theorem running_phyReset (h : s.pc ∈ phyResetLabels) : s.running = some .phyReset := by
  unfold State.running
  cases hpc : s.pc <;> simp [hpc, phyResetLabels] at h ⊢

theorem running_phyInit (h : s.pc ∈ phyInitLabels) : s.running = some .phyInit := by
  unfold State.running
  cases hpc : s.pc <;> simp [hpc, phyInitLabels] at h ⊢

theorem running_pollLink (h : s.Polling) : s.running = some .pollLink := by
  obtain hpc | hpc | hpc | hpc := h <;> simp only [State.running, hpc]

/-! ### The labels of PHY_RESET -/

theorem inFlight_of_rstW (h : s.pc = .rstW) : s.inFlight = some (.wr s.latch.pa bmcr bmcrResetWord) := by
  simp only [State.inFlight, h]

theorem inFlight_of_rstP (h : s.pc = .rstP) : s.inFlight = some (.rd s.latch.pa bmcr) := by
  simp only [State.inFlight, h]

theorem inFlight_of_dscW (h : s.pc = .dscW) : s.inFlight = some (.wr s.latch.cand bmcr bmcrResetWord) := by
  simp only [State.inFlight, h]

theorem inFlight_of_dscP (h : s.pc = .dscP) : s.inFlight = some (.rd s.latch.cand bmcr) := by
  simp only [State.inFlight, h]

theorem inFlight_of_dscD (h : s.pc = .dscD) : s.inFlight = none := by
  simp only [State.inFlight, h]

theorem afterOk_of_rstW (h : s.pc = .rstW) (v : Half) : s.afterOk v = s.goto .rstP := by
  simp only [State.afterOk, h]

theorem afterOk_of_dscW (h : s.pc = .dscW) (v : Half) :
    s.afterOk v = { s with latch := { s.latch with att := 0 }, pc := .dscP } := by
  simp only [State.afterOk, h]

/-- The reset bit of a value read: still set, or clear (R222, R226). -/
theorem afterOk_of_rstP_set {v : Half} (h : s.pc = .rstP) (hv : resetBit v = true) : s.afterOk v = s.goto .rstP := by
  simp only [State.afterOk, h, hv, if_true]

theorem afterOk_of_rstP_clear {v : Half} (h : s.pc = .rstP) (hv : resetBit v = false) : s.afterOk v = s.complete := by
  simp only [State.afterOk, h, hv, Bool.false_eq_true, if_false]

theorem afterOk_of_dscP_set {v : Half} (h : s.pc = .dscP) (hv : resetBit v = true) : s.afterOk v = s.missed := by
  simp only [State.afterOk, h, hv, if_true]

theorem afterOk_of_dscP_clear {v : Half} (h : s.pc = .dscP) (hv : resetBit v = false) : s.afterOk v = s.found := by
  simp only [State.afterOk, h, hv, Bool.false_eq_true, if_false]

/-! ### The end of a discovery delay -/

theorem delayEnd_of_dcnt_ne_zero (h : s.latch.dcnt ≠ 0) : s.delayEnd = s := if_neg h

theorem delayEnd_of_dscD (hpc : s.pc = .dscD) (h : s.latch.dcnt = 0) : s.delayEnd = s.discoveryNext := by
  simp only [State.delayEnd, h, hpc, if_true]

theorem discoveryNext_of_attempts_left (h : s.latch.att.toNat < 10) : s.discoveryNext = s.goto .dscP :=
  if_pos h

theorem discoveryNext_of_candidates_left (hatt : 10 ≤ s.latch.att.toNat) (hcand : s.latch.cand.toNat < 31) :
    s.discoveryNext = { s with latch := { s.latch with cand := s.latch.cand + 1 }, pc := .dscW } := by
  have hatt' : ¬ s.latch.att < discAttempts := Nat.not_lt.2 hatt
  have hcand' : s.latch.cand < lastCandidate := hcand
  rw [State.discoveryNext, if_neg hatt', if_pos hcand']

theorem discoveryNext_of_exhausted (hatt : 10 ≤ s.latch.att.toNat) (hcand : s.latch.cand.toNat = 31) :
    s.discoveryNext = s.noDevice := by
  have hatt' : ¬ s.latch.att < discAttempts := Nat.not_lt.2 hatt
  have hcand' : ¬ s.latch.cand < lastCandidate := Nat.not_lt.2 hcand.ge
  rw [State.discoveryNext, if_neg hatt', if_neg hcand']

end

/-- Settles O29: the reset write leads to the poll, and the poll looks at the reset bit alone. -/
theorem knownAddressResetSteps : Obligations.KnownAddressResetSteps := by
  intro s v hturn
  refine ⟨fun hpc => ?_, fun hpc hv => ?_, fun hpc hv => ?_⟩
  all_goals have hrun : s.running = some .phyReset := running_phyReset (by rw [hpc]; decide)
  · rw [exec_ok hrun (inFlight_of_rstW hpc) hturn, afterOk_of_rstW hpc]
    rfl
  · rw [exec_ok hrun (inFlight_of_rstP hpc) hturn, afterOk_of_rstP_clear hpc hv]
    rfl
  · rw [exec_ok hrun (inFlight_of_rstP hpc) hturn, afterOk_of_rstP_set hpc hv]
    rfl

/-- Settles O31: the answer meets the reset write in flight at DSC_W. -/
theorem discoveryResetWrite : Obligations.DiscoveryResetWrite := by
  intro s hpc
  have hrun : s.running = some .phyReset := running_phyReset (by rw [hpc]; decide)
  have hq := inFlight_of_dscW hpc
  refine ⟨fun v hturn => ?_, fun e hturn => exec_err hrun hq hturn⟩
  rw [exec_ok hrun hq hturn, afterOk_of_dscW hpc]
  rfl

/-- Settles O32: the answer meets the read in flight at DSC_P, whose reset bit decides. -/
theorem discoveryRead : Obligations.DiscoveryRead := by
  intro s hpc
  have hrun : s.running = some .phyReset := running_phyReset (by rw [hpc]; decide)
  have hq := inFlight_of_dscP hpc
  refine ⟨fun e hturn => exec_err hrun hq hturn, fun v hturn hv => ?_, fun v hturn hv => ?_⟩
  · rw [exec_ok hrun hq hturn, afterOk_of_dscP_clear hpc hv]
    rfl
  · rw [exec_ok hrun hq hturn, afterOk_of_dscP_set hpc hv]
    rfl

/-- Settles O33: the delay has not run out, or discovery goes on to the next attempt, the next candidate or FATAL. -/
theorem discoveryDelayEnd : Obligations.DiscoveryDelayEnd := by
  intro s hturn hpc
  have hexec : exec .phyReset s = .next s.delayEnd :=
    exec_delayEnd hturn (running_phyReset (by rw [hpc]; decide))
  refine ⟨fun hd => ?_, fun hd hatt => ?_, fun hd hatt hcand => ?_, fun hd hatt hcand => ?_⟩
  · rw [hexec, delayEnd_of_dcnt_ne_zero hd]
  · rw [hexec, delayEnd_of_dscD hpc hd, discoveryNext_of_attempts_left hatt]
    rfl
  · rw [hexec, delayEnd_of_dscD hpc hd, discoveryNext_of_candidates_left hatt hcand]
  · rw [hexec, delayEnd_of_dscD hpc hd, discoveryNext_of_exhausted hatt hcand]
    rfl

/-! ### Runs that write no register -/

/-- How `t` stands after a run from `s` along `turns` that adds the events `evs` and writes no register: the turns `rest`
are still listed. -/
structure State.QuietRun (s : State) (turns : List Turn) (evs : List BusEvent) (rest : List Turn) (t : State) :
    Prop where
  run : stepN turns.length s = .next t
  sched : t.env.sched = rest
  history : t.history = s.history ++ evs
  regs : t.regs = s.regs
  params : t.params = s.params

theorem quietRun_refl {s : State} {rest : List Turn} (h : s.env.sched = rest) : s.QuietRun [] [] rest s :=
  ⟨rfl, h, (List.append_nil _).symm, rfl, rfl⟩

theorem quietRun_trans {s t u : State} {turns turns' rest rest' : List Turn} {evs evs' : List BusEvent}
    (h : s.QuietRun turns evs rest t) (h' : t.QuietRun turns' evs' rest' u) :
    s.QuietRun (turns ++ turns') (evs ++ evs') rest' u := by
  refine ⟨?_, h'.sched, ?_, h'.regs.trans h.regs, h'.params.trans h.params⟩
  · rw [List.length_append, stepN_add, h.run]
    exact h'.run
  · rw [h'.history, h.history, List.append_assoc]

/-- A step that issues no primitive. -/
theorem quietRun_of_step {s t : State} {trn : Turn} {rest : List Turn} (hstep : step s = .next t)
    (hsched : t.env.sched = rest) (hh : t.history = s.history) (hr : t.regs = s.regs) (hp : t.params = s.params) :
    s.QuietRun [trn] [] rest t :=
  ⟨stepN_succ 0 hstep, hsched, by rw [hh, List.append_nil], hr, hp⟩

/-- An `Ok` answer on which the command goes on. -/
theorem quietRun_ok {s : State} {q : BusRequest} {v : Half} {rest : List Turn} (hq : s.inFlight = some q)
    (hr : (s.afterOk v).regs = s.regs) (h : s.env.sched = .bus (.ok v) :: rest) :
    ∃ t, s.QuietRun [.bus (.ok v)] [BusEvent.of q (.ok v)] rest t ∧ t.pc = (s.afterOk v).pc ∧
      t.latch = (s.afterOk v).latch :=
  ⟨_, ⟨stepN_succ 0 (step_ok_afterOk hq h), rfl, congrArg (· ++ _) (afterOk_history s v), hr, afterOk_params s v⟩,
    rfl, rfl⟩

/-! ### The reset wait of a known PHY -/

/-- Reads that answer with the reset bit set leave the sequencer at RST_P, and only the history grows (R222, R223). -/
theorem run_resetWait (vs : List Half) {s : State} {rest : List Turn} (hpc : s.pc = .rstP)
    (h : s.env.sched = vs.map (fun v => Turn.bus (.ok v)) ++ rest) (hvs : ∀ v ∈ vs, resetBit v = true) :
    ∃ t, s.QuietRun (vs.map fun v => .bus (.ok v)) (vs.map fun v => .rdOk s.latch.pa bmcr v) rest t ∧
      t.pc = .rstP ∧ t.latch = s.latch := by
  induction vs generalizing s with
  | nil => exact ⟨s, quietRun_refl h, hpc, rfl⟩
  | cons v vs ih =>
    have hok := afterOk_of_rstP_set hpc (hvs v (by simp))
    obtain ⟨u, hu, hupc, hul⟩ := quietRun_ok (inFlight_of_rstP hpc) (by rw [hok]; rfl) h
    rw [hok] at hupc hul
    obtain ⟨t, ht, htpc, htl⟩ := ih hupc hu.sched fun x hx => hvs x (by simp [hx])
    rw [hul] at ht
    exact ⟨t, quietRun_trans hu ht, htpc, htl.trans hul⟩

/-- Settles O30: the wait runs on as long as the answers do, and RST_P is a busy label. -/
theorem knownAddressResetWaitIsUnbounded : Obligations.KnownAddressResetWaitIsUnbounded := by
  intro s vs rest hpc hsched hvs
  obtain ⟨t, ⟨hrun, -, hh, hr, -⟩, htpc, hl⟩ := run_resetWait vs hpc hsched hvs
  rw [List.length_map] at hrun
  have hbusy : (csrRead t 0x04).getLsbD 0 = true := by rw [csrRead_status_busy, State.busy, htpc]; rfl
  exact ⟨t, hrun, htpc, hbusy, hh, hr, hl⟩

/-! ### The labels of PHY_INIT -/

section
variable {s : State}

theorem inFlight_of_iniCA (h : s.pc = .iniCA) : s.inFlight = some (.wr s.latch.pa mmdctl (ctlAddr mmdPcs)) := by
  simp only [State.inFlight, h]

theorem inFlight_of_iniRN (h : s.pc = .iniRN) : s.inFlight = some (.wr s.latch.pa mmddata s.params.wucsrReg) := by
  simp only [State.inFlight, h]

theorem inFlight_of_iniCO (h : s.pc = .iniCO) : s.inFlight = some (.wr s.latch.pa mmdctl (ctlWrite mmdPcs)) := by
  simp only [State.inFlight, h]

theorem inFlight_of_iniDW (h : s.pc = .iniDW) : s.inFlight = some (.wr s.latch.pa mmddata 0) := by
  simp only [State.inFlight, h]

theorem inFlight_of_iniBM (h : s.pc = .iniBM) : s.inFlight = some (.wr s.latch.pa bmcr bmcrInitWord) := by
  simp only [State.inFlight, h]

theorem nextOnLine_of_iniCA (h : s.pc = .iniCA) : s.nextOnLine = some .iniRN := by
  simp only [State.nextOnLine, h]

theorem nextOnLine_of_iniRN (h : s.pc = .iniRN) : s.nextOnLine = some .iniCO := by
  simp only [State.nextOnLine, h]

theorem nextOnLine_of_iniCO (h : s.pc = .iniCO) : s.nextOnLine = some .iniDW := by
  simp only [State.nextOnLine, h]

theorem nextOnLine_of_iniDW (h : s.pc = .iniDW) : s.nextOnLine = some .iniBM := by
  simp only [State.nextOnLine, h]

theorem afterOk_of_iniBM (h : s.pc = .iniBM) (v : Half) : s.afterOk v = s.complete := by
  simp only [State.afterOk, h]

end

/-- The words that PHY_INIT writes to MMDCTL and BMCR (R99, R132, R233, R234). -/
theorem ctlAddr_pcs : ctlAddr mmdPcs = 0x0003 := by decide

theorem ctlWrite_pcs : ctlWrite mmdPcs = 0x4003 := by decide

theorem bmcrInitWord_eq : bmcrInitWord = 0x3200 := by decide

/-- Settles O38: four labels of the line, and the BMCR write that ends it. -/
theorem phyInitSteps : Obligations.PhyInitSteps := by
  intro s v hturn
  refine ⟨fun hpc => ?_, fun hpc => ?_, fun hpc => ?_, fun hpc => ?_, fun hpc => ?_⟩
  all_goals have hrun : s.running = some .phyInit := running_phyInit (by rw [hpc]; decide)
  · rw [← ctlAddr_pcs]
    exact exec_ok_of_nextOnLine hrun (inFlight_of_iniCA hpc) (nextOnLine_of_iniCA hpc) hturn
  · exact exec_ok_of_nextOnLine hrun (inFlight_of_iniRN hpc) (nextOnLine_of_iniRN hpc) hturn
  · rw [← ctlWrite_pcs]
    exact exec_ok_of_nextOnLine hrun (inFlight_of_iniCO hpc) (nextOnLine_of_iniCO hpc) hturn
  · exact exec_ok_of_nextOnLine hrun (inFlight_of_iniDW hpc) (nextOnLine_of_iniDW hpc) hturn
  · rw [exec_ok hrun (inFlight_of_iniBM hpc) hturn, afterOk_of_iniBM hpc, ← bmcrInitWord_eq]
    rfl

/-! ### The labels of POLL_LINK -/

section
variable {s : State}

theorem inFlight_of_polS (h : s.pc = .polS) : s.inFlight = some (.rd s.latch.pa bmsr) := by
  simp only [State.inFlight, h]

theorem inFlight_of_polA (h : s.pc = .polA) : s.inFlight = some (.rd s.latch.pa anar) := by
  simp only [State.inFlight, h]

theorem inFlight_of_polP (h : s.pc = .polP) : s.inFlight = some (.rd s.latch.pa anlpar) := by
  simp only [State.inFlight, h]

theorem delayEnd_of_polD (hpc : s.pc = .polD) (h : s.latch.dcnt = 0) : s.delayEnd = s.goto .polS := by
  simp only [State.delayEnd, h, hpc, if_true]

theorem afterOk_of_polS_up {v : Half} (h : s.pc = .polS) (han : anComplete v = true) (hl : linkUp v = true) :
    s.afterOk v = s.goto .polA := by
  simp only [State.afterOk, h, han, hl, Bool.and_self, if_true]

theorem afterOk_of_polS_down {v : Half} (h : s.pc = .polS) (hv : anComplete v = false ∨ linkUp v = false) :
    s.afterOk v = s.pollEnds .down := by
  have hv' : (anComplete v && linkUp v) = false := Bool.and_eq_false_iff.2 hv
  simp only [State.afterOk, h, hv', Bool.false_eq_true, if_false]

theorem afterOk_of_polA (h : s.pc = .polA) (v : Half) :
    s.afterOk v = { s with latch := { s.latch with anar := v }, pc := .polP } := by
  simp only [State.afterOk, h]

theorem afterOk_of_polP (h : s.pc = .polP) (v : Half) :
    s.afterOk v = s.pollEnds (resolve (s.latch.anar &&& v)) := by
  simp only [State.afterOk, h]

end

/-- Settles O39: the counter decides whether the delay ends. -/
theorem pollDelayEnd : Obligations.PollDelayEnd := by
  intro s hturn hpc
  have hexec : exec .pollLink s = .next s.delayEnd := exec_delayEnd hturn (running_pollLink (.inl hpc))
  refine ⟨fun hd => ?_, fun hd => ?_⟩
  · rw [hexec, delayEnd_of_dcnt_ne_zero hd]
  · rw [hexec, delayEnd_of_polD hpc hd]
    rfl

/-- Settles O40: the link bit counts only with auto-negotiation complete. -/
theorem pollStatusRead : Obligations.PollStatusRead := by
  intro s hpc
  have hrun : s.running = some .pollLink := running_pollLink (.inr (.inl hpc))
  have hq := inFlight_of_polS hpc
  refine ⟨fun e hturn => exec_err hrun hq hturn, fun v hturn hv => ?_, fun v hturn han hl => ?_⟩
  · rw [exec_ok hrun hq hturn, afterOk_of_polS_down hpc hv]
    rfl
  · rw [exec_ok hrun hq hturn, afterOk_of_polS_up hpc han hl]
    rfl

/-- Settles O41: the answer meets the ANAR read in flight at POL_A. -/
theorem pollAdvertisedRead : Obligations.PollAdvertisedRead := by
  intro s hpc
  have hrun : s.running = some .pollLink := running_pollLink (.inr (.inr (.inl hpc)))
  have hq := inFlight_of_polA hpc
  refine ⟨fun v hturn => ?_, fun e hturn => exec_err hrun hq hturn⟩
  rw [exec_ok hrun hq hturn, afterOk_of_polA hpc]
  rfl

/-- Settles O42: the answer meets the ANLPAR read in flight at POL_P, and `resolve` is the priority chain (R244). -/
theorem pollPartnerReadDecodes : Obligations.PollPartnerReadDecodes := by
  intro s hpc
  have hrun : s.running = some .pollLink := running_pollLink (.inr (.inr (.inr hpc)))
  have hq := inFlight_of_polP hpc
  refine ⟨fun p hturn => ?_, fun e hturn => exec_err hrun hq hturn⟩
  intro n status
  rw [exec_ok hrun hq hturn, afterOk_of_polP hpc]
  rfl

end Sys2Proof.Machine
end

section
/-! PROOFS. Discovery as a whole (spec/43_phy_controller.md, R224 to R231): the count of its primitives under every
interleaving, and the runs that adopt an address or end in FATAL. -/

namespace Sys2Proof.Machine

/-! ### The count of primitives, label by label -/

section
variable {s : State}

theorem discoveryCount_of_dscW (h : s.pc = .dscW) : s.discoveryCount = some (11 * s.latch.cand.toNat) := by
  simp only [State.discoveryCount, h]

theorem discoveryCount_of_dscP (h : s.pc = .dscP) :
    s.discoveryCount = some (11 * s.latch.cand.toNat + 1 + s.latch.att.toNat) := by
  simp only [State.discoveryCount, h]

theorem discoveryCount_of_dscD (h : s.pc = .dscD) :
    s.discoveryCount = some (11 * s.latch.cand.toNat + 1 + s.latch.att.toNat) := by
  simp only [State.discoveryCount, h]

/-- The count is that of a discovery label, and there are three. -/
theorem discovery_label {n : Nat} (h : s.discoveryCount = some n) : s.pc = .dscW ∨ s.pc = .dscP ∨ s.pc = .dscD := by
  unfold State.discoveryCount at h
  cases hpc : s.pc <;> simp [hpc] at h ⊢

theorem busy_of_discoveryCount {n : Nat} (h : s.discoveryCount = some n) : s.busy = true := by
  unfold State.busy
  obtain hpc | hpc | hpc := discovery_label h <;> rw [hpc] <;> rfl

theorem discoveryCount_of_not_busy (h : s.busy = false) : s.discoveryCount = none := by
  obtain hpc | hpc := (busy_eq_false_iff s).1 h <;> simp only [State.discoveryCount, hpc]

theorem att_of_dscP (h : s.Inv) (hpc : s.pc = .dscP) : s.latch.att.toNat < 10 := by
  have hseq := h.sequencer
  simp only [State.SequencerOk, hpc] at hseq
  exact hseq.2.2

theorem att_of_dscD (h : s.Inv) (hpc : s.pc = .dscD) : s.latch.att.toNat ≤ 10 := by
  have hseq := h.sequencer
  simp only [State.SequencerOk, hpc] at hseq
  obtain ⟨-, -, -, hatt, -⟩ := hseq
  exact hatt

/-- Below ten attempts the attempt counter does not wrap (R226). -/
theorem toNat_att_succ (h : s.latch.att.toNat < 10) : (s.latch.att + 1).toNat = s.latch.att.toNat + 1 := by bv_omega

/-- Below the last candidate the candidate counter does not wrap (R228). -/
theorem toNat_cand_succ (h : s.latch.cand.toNat < 31) : (s.latch.cand + 1).toNat = s.latch.cand.toNat + 1 := by
  bv_omega

end

theorem discoveryCount_congr {s t : State} (hpc : t.pc = s.pc) (hc : t.latch.cand = s.latch.cand)
    (ha : t.latch.att = s.latch.att) : t.discoveryCount = s.discoveryCount := by
  simp only [State.discoveryCount, hpc, hc, ha]

/-- What the history has grown by since `h0` primitives when discovery stands at a label, has exhausted the candidates, or
has ended without an error (R230). -/
structure State.Counted (h0 : Nat) (t : State) : Prop where
  label : ∀ m, t.discoveryCount = some m → t.history.length = h0 + m
  exhausted : t.pc = .fatal → t.history.length = h0 + 352
  found : t.pc = .idle → t.regs.err = false → ∃ c : Addr5, ∃ k, 1 ≤ k ∧ k ≤ 10 ∧
    t.regs.phyaddr = .known c ∧ t.history.length = h0 + 11 * c.toNat + 1 + k

theorem counted_at_label {h0 m : Nat} {t : State} (hm : t.discoveryCount = some m) (hlen : t.history.length = h0 + m) :
    t.Counted h0 := by
  have hb := busy_of_discoveryCount hm
  refine ⟨fun m' hm' => ?_, fun hpc => ?_, fun hpc => absurd hpc (ne_idle_of_busy hb)⟩
  · rwa [← Option.some.inj (hm.symm.trans hm')]
  · simp [not_busy_of_fatal hpc] at hb

theorem counted_of_error {h0 : Nat} {t : State} (hpc : t.pc = .idle) (herr : t.regs.err = true) : t.Counted h0 := by
  refine ⟨fun m hm => ?_, fun hf => ?_, fun _ h => ?_⟩
  · simp [discoveryCount_of_not_busy (not_busy_of_idle hpc)] at hm
  · simp [hpc] at hf
  · simp [herr] at h

theorem counted_of_found {h0 k : Nat} {t : State} {c : Addr5} (hpc : t.pc = .idle) (h1 : 1 ≤ k) (h10 : k ≤ 10)
    (hphy : t.regs.phyaddr = .known c) (hlen : t.history.length = h0 + 11 * c.toNat + 1 + k) : t.Counted h0 := by
  refine ⟨fun m hm => ?_, fun hf => ?_, fun _ _ => ⟨c, k, h1, h10, hphy, hlen⟩⟩
  · simp [discoveryCount_of_not_busy (not_busy_of_idle hpc)] at hm
  · simp [hpc] at hf

theorem counted_of_fatal {h0 : Nat} {t : State} (hpc : t.pc = .fatal) (hlen : t.history.length = h0 + 352) :
    t.Counted h0 := by
  refine ⟨fun m hm => ?_, fun _ => hlen, fun hi => ?_⟩
  · simp [discoveryCount_of_not_busy (not_busy_of_fatal hpc)] at hm
  · simp [hpc] at hi

section
variable {s : State} {h0 n : Nat} (hinv : s.Inv) (hn : s.discoveryCount = some n)
include hinv hn

/-- An `Ok` answer to a discovery primitive counts one more (R225 to R227). -/
theorem afterOk_counted {q : BusRequest} (hq : s.inFlight = some q) (hlen : s.history.length = h0 + n + 1) (v : Half) :
    (s.afterOk v).Counted h0 := by
  obtain hpc | hpc | hpc := discovery_label hn
  · rw [discoveryCount_of_dscW hpc, Option.some.injEq] at hn
    rw [afterOk_of_dscW hpc]
    refine counted_at_label (discoveryCount_of_dscP rfl) ?_
    change s.history.length = h0 + (11 * s.latch.cand.toNat + 1 + 0)
    omega
  · rw [discoveryCount_of_dscP hpc, Option.some.injEq] at hn
    have hatt := att_of_dscP hinv hpc
    cases hv : resetBit v with
    | true =>
      rw [afterOk_of_dscP_set hpc hv]
      refine counted_at_label (discoveryCount_of_dscD rfl) ?_
      simp only [State.missed_history, State.missed_latch, toNat_att_succ hatt]
      omega
    | false =>
      rw [afterOk_of_dscP_clear hpc hv]
      refine counted_of_found (k := s.latch.att.toNat + 1) rfl (by omega) (by omega) rfl ?_
      rw [State.found_history]
      omega
  · rw [inFlight_of_dscD hpc] at hq
    cases hq

variable (hlen : s.history.length = h0 + n)
include hlen

theorem answered_counted (r : BusAnswer) : (s.answered r).Counted h0 := by
  cases hq : s.inFlight with
  | none =>
    rw [answered_of_none hq]
    exact counted_at_label hn hlen
  | some q =>
    cases r with
    | err e =>
      rw [answered_err hq]
      exact counted_of_error rfl rfl
    | ok v =>
      rw [answered_ok hq]
      have hrecorded : (s.record q (.ok v)).Inv := inv_congr hinv rfl rfl rfl rfl
      exact afterOk_counted hrecorded hn hq (by simp [hlen, Nat.add_assoc]) v

/-- The end of a delay issues no primitive: the history stands at the next label's count, after ten attempts at the next
candidate's, and after the last candidate at 11 * 32 (R228 to R230). -/
theorem delayEnd_counted : s.delayEnd.Counted h0 := by
  have stays : s.Counted h0 := counted_at_label hn hlen
  by_cases hpc : s.pc = .dscD
  swap
  · rwa [delayEnd_of_not_delaying ⟨hpc, fun h => by simp [State.discoveryCount, h] at hn⟩]
  by_cases hd : s.latch.dcnt = 0
  swap
  · rwa [delayEnd_of_dcnt_ne_zero hd]
  rw [delayEnd_of_dscD hpc hd]
  have hatt := att_of_dscD hinv hpc
  rw [discoveryCount_of_dscD hpc, Option.some.injEq] at hn
  by_cases ha : s.latch.att.toNat < 10
  · rw [discoveryNext_of_attempts_left ha]
    exact counted_at_label (discoveryCount_of_dscP rfl) (by simp [hlen, ← hn])
  · by_cases hc : s.latch.cand.toNat < 31
    · rw [discoveryNext_of_candidates_left (by omega) hc]
      refine counted_at_label (discoveryCount_of_dscW rfl) ?_
      simp only [toNat_cand_succ hc, hlen]
      omega
    · have hlast : s.latch.cand.toNat = 31 := by have := s.latch.cand.isLt; omega
      rw [discoveryNext_of_exhausted (by omega) hlast]
      refine counted_of_fatal rfl ?_
      rw [State.noDevice_history]
      omega

end

/-- Settles O34: the agent whose turn it is counts on, or leaves the label and the history as they are. -/
theorem discoveryCountsPrimitives : Obligations.DiscoveryCountsPrimitives := by
  intro s t h0 n hinv hn hlen hstep
  suffices t.env.turn = .reset ∧ t.pc = .idle ∨ t.Counted h0 by
    obtain ⟨hturn, hpc⟩ | ⟨hlabel, hfatal, hfound⟩ := this
    · refine ⟨fun m hm => ?_, fun hf => ?_, fun _ _ h => absurd hturn h⟩
      · simp [discoveryCount_of_not_busy (not_busy_of_idle hpc)] at hm
      · simp [hpc] at hf
    · exact ⟨hlabel, hfatal, fun hpc herr _ => hfound hpc herr⟩
  have hinv' : s.takeTurn.Inv := inv_congr hinv (by simp) (by simp) (by simp) (by simp)
  have hn' : s.takeTurn.discoveryCount = some n := (discoveryCount_congr (by simp) (by simp) (by simp)).trans hn
  have hlen' : s.takeTurn.history.length = h0 + n := by simpa
  obtain ⟨-, heff⟩ | ⟨r, -, rfl⟩ | ⟨-, rfl⟩ | ⟨-, rfl⟩ | ⟨hturn, rfl⟩ := step_cases hstep
  · obtain ⟨u, hu, ht⟩ := hostEffect_change heff
    obtain ⟨-, hh, -, -⟩ := hostChange_frame hu
    obtain ⟨hpc, hl, -⟩ := hostChange_of_not_idle hu (ne_idle_of_busy (busy_of_discoveryCount hn))
    rw [ht]
    exact .inr (counted_at_label ((discoveryCount_congr hpc (by rw [hl]) (by rw [hl])).trans hn) (by rw [hh, hlen]))
  · exact .inr (answered_counted hinv' hn' hlen' r)
  · exact .inr (delayEnd_counted hinv' hn' hlen')
  · obtain htick | ⟨-, -, htick⟩ := tick_cases s.takeTurn <;> rw [htick] <;> exact .inr (counted_at_label hn' hlen')
  · exact .inl ⟨hturn, rfl⟩

/-! ### The run of one candidate -/

/-- Discovery stands at label `l` of candidate `c`, with `n` of its attempts made. -/
structure State.SearchesAt (s : State) (l : Label) (c : Addr5) (n : Nat) : Prop where
  pc : s.pc = l
  cand : s.latch.cand = c
  att : s.latch.att.toNat = n

section
variable {s : State} {rest : List Turn}

theorem run_resetWrite {v : Half} (hpc : s.pc = .dscW) (h : s.env.sched = .bus (.ok v) :: rest) :
    ∃ t, s.QuietRun [.bus (.ok v)] [.wrOk s.latch.cand bmcr bmcrResetWord] rest t ∧
      t.SearchesAt .dscP s.latch.cand 0 := by
  have hok := afterOk_of_dscW hpc v
  obtain ⟨t, ht, htpc, htl⟩ := quietRun_ok (inFlight_of_dscW hpc) (by rw [hok]) h
  rw [hok] at htpc htl
  exact ⟨t, ht, htpc, by rw [htl], by rw [htl]; rfl⟩

theorem tick_of_dscD (hpc : s.pc = .dscD) (hd : s.latch.dcnt ≠ 0) :
    s.tick = { s with latch := { s.latch with dcnt := s.latch.dcnt - 1 } } := if_pos ⟨.inl hpc, hd⟩

theorem quietRun_tick (hpc : s.pc = .dscD) (hd : s.latch.dcnt ≠ 0) (h : s.env.sched = .tick :: rest) :
    ∃ t, s.QuietRun [.tick] [] rest t ∧ t.pc = .dscD ∧ t.latch = { s.latch with dcnt := s.latch.dcnt - 1 } := by
  have hstep := step_tick h
  rw [tick_of_dscD (s := s.turned .tick rest) hpc hd] at hstep
  exact ⟨_, quietRun_of_step hstep rfl rfl rfl rfl, hpc, rfl⟩

/-- As many ticks as the counter asks for bring it to 0 (R270). -/
theorem run_ticks (d : Nat) {s : State} (hpc : s.pc = .dscD) (hd : s.latch.dcnt.toNat = d)
    (h : s.env.sched = List.replicate d .tick ++ rest) :
    ∃ t, s.QuietRun (List.replicate d .tick) [] rest t ∧ t.pc = .dscD ∧ t.latch = { s.latch with dcnt := 0 } := by
  induction d generalizing s with
  | zero =>
    have hzero : s.latch.dcnt = 0 := BitVec.eq_of_toNat_eq hd
    exact ⟨s, quietRun_refl h, hpc, by rw [← hzero]⟩
  | succ d ih =>
    have hne : s.latch.dcnt ≠ 0 := by rintro h0; simp [h0] at hd
    have hsub : (s.latch.dcnt - 1).toNat = d := by bv_omega
    obtain ⟨u, hu, hupc, hul⟩ := quietRun_tick hpc hne h
    obtain ⟨t, ht, htpc, htl⟩ := ih hupc (by rw [hul]; exact hsub) hu.sched
    rw [hul] at htl
    exact ⟨t, quietRun_trans hu ht, htpc, htl⟩

/-- The sequencer's own step at the end of a discovery delay. -/
theorem step_discoveryNext (hpc : s.pc = .dscD) (h0 : s.latch.dcnt = 0) (h : s.env.sched = .seq :: rest) :
    step s = .next (s.turned .seq rest).discoveryNext := by
  rw [step_seq h, delayEnd_of_dscD (s := s.turned .seq rest) hpc h0]

variable {d : Nat} (hd : s.params.discDelayTicks.toNat = d)
include hd

/-- A read that sees the reset bit set, and its delay (R226, R270). -/
theorem run_missedRead {c : Addr5} {n : Nat} {v : Half} (hs : s.SearchesAt .dscP c n) (hn : n < 10)
    (hv : resetBit v = true) (h : s.env.sched = .bus (.ok v) :: (List.replicate d .tick ++ rest)) :
    ∃ t, s.QuietRun (.bus (.ok v) :: List.replicate d .tick) [.rdOk c bmcr v] rest t ∧
      t.SearchesAt .dscD c (n + 1) ∧ t.latch.dcnt = 0 := by
  obtain ⟨hpc, rfl, rfl⟩ := hs
  have hok := afterOk_of_dscP_set hpc hv
  obtain ⟨u, hu, hupc, hul⟩ := quietRun_ok (inFlight_of_dscP hpc) (by rw [hok]; rfl) h
  rw [hok] at hupc hul
  obtain ⟨t, ht, htpc, htl⟩ := run_ticks d hupc (by rw [hul]; exact hd) hu.sched
  rw [hul] at htl
  exact ⟨t, quietRun_trans hu ht, ⟨htpc, by rw [htl]; rfl, by rw [htl]; exact toNat_att_succ hn⟩, by rw [htl]⟩

/-- A read that sees the reset bit set, its delay, and the way back to the next attempt. -/
theorem run_miss {c : Addr5} {n : Nat} {v : Half} (hs : s.SearchesAt .dscP c n) (hn : n + 1 < 10)
    (hv : resetBit v = true) (h : s.env.sched = missTurns d v ++ rest) :
    ∃ t, s.QuietRun (missTurns d v) [.rdOk c bmcr v] rest t ∧ t.SearchesAt .dscP c (n + 1) := by
  obtain ⟨u, hu, ⟨hpc, hcand, hatt⟩, h0⟩ :=
    run_missedRead (rest := .seq :: rest) hd hs (by omega) hv (by simpa [missTurns] using h)
  have hstep := step_discoveryNext hpc h0 hu.sched
  rw [discoveryNext_of_attempts_left (s := u.turned .seq rest) (hatt.trans_lt hn)] at hstep
  exact ⟨_, quietRun_trans hu (quietRun_of_step hstep rfl rfl rfl rfl), rfl, hcand, hatt⟩

end

/-- Fewer than ten attempts that see the reset bit set. -/
theorem run_misses {d : Nat} {rest : List Turn} {c : Addr5} (vs : List Half) {s : State} {n : Nat}
    (hd : s.params.discDelayTicks.toNat = d) (hs : s.SearchesAt .dscP c n) (hn : n + vs.length < 10)
    (hvs : ∀ v ∈ vs, resetBit v = true) (h : s.env.sched = vs.flatMap (missTurns d) ++ rest) :
    ∃ t, s.QuietRun (vs.flatMap (missTurns d)) (vs.map fun v => .rdOk c bmcr v) rest t ∧
      t.SearchesAt .dscP c (n + vs.length) := by
  induction vs generalizing s n with
  | nil => exact ⟨s, quietRun_refl h, hs⟩
  | cons v vs ih =>
    rw [List.length_cons] at hn
    rw [List.flatMap_cons, List.append_assoc] at h
    obtain ⟨u, hu, hus⟩ := run_miss hd hs (by omega) (hvs v (by simp)) h
    obtain ⟨t, ht, hts⟩ := ih (by rw [hu.params, hd]) hus (by omega) (fun x hx => hvs x (by simp [hx])) hu.sched
    rw [Nat.add_right_comm, Nat.add_assoc] at hts
    exact ⟨t, quietRun_trans hu ht, hts⟩

section
variable {s : State} {rest : List Turn} {d : Nat} {vs : List Half} (hd : s.params.discDelayTicks.toNat = d)
  (hpc : s.pc = .dscW) (h : s.env.sched = absentTurns d vs ++ rest)
include hd hpc h

/-- The reset write of a candidate and fewer than ten attempts (R225, R226). -/
theorem run_attempts (hlen : vs.length < 10) (hvs : ∀ v ∈ vs, resetBit v = true) :
    ∃ t, s.QuietRun (absentTurns d vs) (absentEvents s.latch.cand vs) rest t ∧
      t.SearchesAt .dscP s.latch.cand vs.length := by
  obtain ⟨u, hu, hus⟩ := run_resetWrite hpc h
  obtain ⟨t, ht, hts⟩ := run_misses vs (by rw [hu.params, hd]) hus (by omega) hvs hu.sched
  rw [Nat.zero_add] at hts
  exact ⟨t, quietRun_trans hu ht, hts⟩

/-- An absent candidate, up to the end of its tenth delay: only the sequencer's own turn is left (R228). -/
theorem run_tenAttempts (hvs : AbsentReads vs) :
    ∃ turns t, absentTurns d vs = turns ++ [.seq] ∧
      s.QuietRun turns (absentEvents s.latch.cand vs) (.seq :: rest) t ∧ t.SearchesAt .dscD s.latch.cand 10 ∧
      t.latch.dcnt = 0 := by
  obtain ⟨hlen, hset⟩ := hvs
  obtain ⟨us, v, rfl⟩ : ∃ us v, vs = us ++ [v] :=
    ⟨_, _, (List.dropLast_append_getLast (List.ne_nil_of_length_eq_add_one hlen)).symm⟩
  have hus : us.length = 9 := by simpa using hlen
  have hturns : absentTurns d (us ++ [v]) = (absentTurns d us ++ .bus (.ok v) :: List.replicate d .tick) ++ [.seq] := by
    simp [absentTurns, missTurns]
  have hevents : absentEvents s.latch.cand (us ++ [v]) =
      absentEvents s.latch.cand us ++ [.rdOk s.latch.cand bmcr v] := by simp [absentEvents]
  rw [hturns] at h
  obtain ⟨u, hu, hat⟩ := run_attempts (rest := .bus (.ok v) :: (List.replicate d .tick ++ .seq :: rest)) hd hpc
    (by simpa using h) (by omega) (fun x hx => hset x (by simp [hx]))
  rw [hus] at hat
  obtain ⟨t, ht, hts, h0⟩ := run_missedRead (by rw [hu.params, hd]) hat (by decide) (hset v (by simp)) hu.sched
  exact ⟨_, t, hturns, hevents ▸ quietRun_trans hu ht, hts, h0⟩

/-- An absent candidate before the last one: discovery goes on to the next address (R228). -/
theorem run_absentCandidate (hvs : AbsentReads vs) (hcand : s.latch.cand.toNat < 31) :
    ∃ t, s.QuietRun (absentTurns d vs) (absentEvents s.latch.cand vs) rest t ∧ t.pc = .dscW ∧
      t.latch.cand = s.latch.cand + 1 := by
  obtain ⟨turns, u, hturns, hu, ⟨hupc, hucand, huatt⟩, h0⟩ := run_tenAttempts hd hpc h hvs
  have hstep := step_discoveryNext hupc h0 hu.sched
  rw [discoveryNext_of_candidates_left (s := u.turned .seq rest) huatt.ge (by rwa [State.turned_latch, hucand])] at hstep
  have hlast := quietRun_trans hu (quietRun_of_step (trn := .seq) hstep rfl rfl rfl rfl)
  rw [← hturns, List.append_nil] at hlast
  exact ⟨_, hlast, rfl, congrArg (· + 1) hucand⟩

end

/-! ### The search -/

/-- The address that `n` candidates after the next one lead to. -/
theorem add_ofNat_succ (a : Addr5) (n : Nat) : a + BitVec.ofNat 5 (n + 1) = a + 1 + BitVec.ofNat 5 n := by bv_omega

/-- A row of absent candidates without the last one: discovery stands at the candidate after them. -/
theorem run_search {d : Nat} {rest : List Turn} (reads : List (List Half)) {s : State}
    (hd : s.params.discDelayTicks.toNat = d) (hpc : s.pc = .dscW) (hreads : ∀ vs ∈ reads, AbsentReads vs)
    (hcand : s.latch.cand.toNat + reads.length ≤ 31) (h : s.env.sched = searchTurns d reads ++ rest) :
    ∃ t, s.QuietRun (searchTurns d reads) (searchEvents s.latch.cand reads) rest t ∧ t.pc = .dscW ∧
      t.latch.cand = s.latch.cand + BitVec.ofNat 5 reads.length := by
  induction reads generalizing s with
  | nil => exact ⟨s, quietRun_refl h, hpc, by simp⟩
  | cons vs reads ih =>
    rw [List.length_cons] at hcand
    rw [searchTurns, List.flatMap_cons, List.append_assoc] at h
    obtain ⟨u, hu, hupc, hucand⟩ := run_absentCandidate hd hpc h (hreads vs (by simp)) (by omega)
    have hlt : u.latch.cand.toNat + reads.length ≤ 31 := by
      rw [hucand, toNat_cand_succ (by omega)]
      omega
    obtain ⟨t, ht, htpc, htcand⟩ :=
      ih (by rw [hu.params, hd]) hupc (fun x hx => hreads x (by simp [hx])) hlt hu.sched
    rw [hucand] at ht htcand
    refine ⟨t, quietRun_trans hu ht, htpc, ?_⟩
    rw [htcand, List.length_cons, add_ofNat_succ]

/-- Each absent candidate takes one write and ten reads (R230). -/
theorem searchEvents_length (a : Addr5) {reads : List (List Half)} (h : ∀ vs ∈ reads, AbsentReads vs) :
    (searchEvents a reads).length = 11 * reads.length := by
  induction reads generalizing a with
  | nil => rfl
  | cons vs reads ih =>
    have hvs : vs.length = 10 := (h vs (by simp)).1
    have hrest := ih (a + 1) fun x hx => h x (by simp [hx])
    simp only [searchEvents, absentEvents, List.length_append, List.length_cons, List.length_map, hvs, hrest]
    omega

theorem searchEvents_concat (a : Addr5) (reads : List (List Half)) (vs : List Half) :
    searchEvents a (reads ++ [vs]) = searchEvents a reads ++ absentEvents (a + BitVec.ofNat 5 reads.length) vs := by
  induction reads generalizing a with
  | nil => simp [searchEvents]
  | cons us reads ih =>
    rw [List.cons_append, searchEvents, searchEvents, ih, List.append_assoc, List.length_cons, add_ofNat_succ]

/-- Settles O35: the search passes the absent candidates, makes the misses of this one, and the next read adopts it. -/
theorem discoveryAdoptsTheFirstAnsweringAddress : Obligations.DiscoveryAdoptsTheFirstAnsweringAddress := by
  intro s reads misses v rest hpc hcand hlen hreads hmlen hmisses hv d c turns hsched
  obtain ⟨u, hu, hupc, hucand⟩ := run_search (rest := absentTurns d misses ++ .bus (.ok v) :: rest) reads rfl hpc
    hreads (by rw [hcand]; simpa using hlen) (by simpa [turns] using hsched)
  rw [hcand, zero_add] at hucand
  obtain ⟨t, ht, htpc, htcand, -⟩ := run_attempts (by rw [hu.params]) hupc hu.sched hmlen hmisses
  rw [hucand] at ht htcand
  obtain ⟨hrun, hts, hth, htr, -⟩ := quietRun_trans hu ht
  have hstep := step_ok_afterOk (inFlight_of_dscP htpc) hts
  rw [afterOk_of_dscP_clear htpc hv, htcand] at hstep
  rw [hcand, ← List.append_assoc] at hth
  have hhist : t.history ++ [.rdOk c bmcr v] =
      s.history ++ searchEvents 0 reads ++ absentEvents c misses ++ [.rdOk c bmcr v] := by rw [hth]
  refine ⟨(t.found.turned (.bus (.ok v)) rest).record (.rd c bmcr) (.ok v), ?_, rfl, ?_, hhist,
    (congrArg List.length hhist).trans ?_⟩
  · rw [List.length_append]
    exact stepN_add_one hrun hstep
  · simp only [State.record_regs, State.turned_regs, State.found_regs, htr, htcand]
    rfl
  · simp only [List.length_append, searchEvents_length 0 hreads, absentEvents, List.length_cons, List.length_map,
      List.length_nil]
    omega

/-- Settles O36: the search passes 31 absent candidates, and the tenth delay of the last ends in `noDevice`. -/
theorem discoveryExhaustionIsFatal : Obligations.DiscoveryExhaustionIsFatal := by
  intro s reads rest hpc hcand hlen hreads turns hsched
  have hcount := searchEvents_length 0 hreads
  obtain ⟨init, last, rfl⟩ : ∃ init last, reads = init ++ [last] :=
    ⟨_, _, (List.dropLast_append_getLast (List.ne_nil_of_length_eq_add_one hlen)).symm⟩
  have hinit : init.length = 31 := by simpa using hlen
  have hturns : turns = searchTurns s.params.discDelayTicks.toNat init ++
      absentTurns s.params.discDelayTicks.toNat last := by simp [turns, searchTurns]
  rw [hturns, List.append_assoc] at hsched
  obtain ⟨u, hu, hupc, hucand⟩ := run_search init rfl hpc (fun x hx => hreads x (by simp [hx]))
    (by rw [hcand, hinit]; decide) hsched
  obtain ⟨before, t, hbefore, ht, ⟨htpc, htcand, htatt⟩, h0⟩ :=
    run_tenAttempts (by rw [hu.params]) hupc hu.sched (hreads last (by simp))
  obtain ⟨hrun, hts, hth, htr, -⟩ := quietRun_trans hu ht
  have hstep := step_discoveryNext htpc h0 hts
  have h31 : t.latch.cand.toNat = 31 := by rw [htcand, hucand, hcand, hinit]; decide
  rw [discoveryNext_of_exhausted (s := t.turned .seq rest) htatt.ge h31] at hstep
  have hhist : t.history = s.history ++ searchEvents 0 (init ++ [last]) := by
    rw [hth, hucand, hcand, searchEvents_concat]
  refine ⟨(t.turned .seq rest).noDevice, ?_, rfl, ?_, hhist, (congrArg List.length hhist).trans ?_⟩
  · rw [hturns, hbefore, ← List.append_assoc, List.length_append]
    exact stepN_add_one hrun hstep
  · simp only [State.noDevice_regs, State.turned_regs, htr]
  · rw [List.length_append, hcount, hlen]

end Sys2Proof.Machine
end

section
/-! PROOFS. The exceptions family (spec/60_exceptions.md): a primitive that fails, a tick, and how long a delay lasts. -/

namespace Sys2Proof.Machine

/-! ### Bus errors -/

/-- Settles O16: the failing primitive in flight is recorded, and the bus error ends the command. -/
theorem busErrorEndsAnyCommand : Obligations.BusErrorEndsAnyCommand := by
  intro s q e rest hq hsched
  rw [step_err hq hsched]
  rfl

/-! ### Turns at a delay label -/

/-- The sequencer stands at a delay label (R226, R240). -/
def State.Delaying (s : State) : Prop := s.pc = .dscD ∨ s.pc = .polD

section
variable {s : State}

theorem tick_of_counting (hd : s.Delaying) (h : s.latch.dcnt ≠ 0) :
    s.tick = { s with latch := { s.latch with dcnt := s.latch.dcnt - 1 } } := if_pos ⟨hd, h⟩

theorem tick_of_not_counting (h : ¬ (s.Delaying ∧ s.latch.dcnt ≠ 0)) : s.tick = s := if_neg h

theorem inFlight_of_delaying (hd : s.Delaying) : s.inFlight = none := by
  obtain hpc | hpc := hd <;> simp only [State.inFlight, hpc]

theorem ne_idle_of_delaying (hd : s.Delaying) : s.pc ≠ .idle := by
  obtain hpc | hpc := hd <;> simp [hpc]

/-- The counter's number falls with every tick, and stays at 0 (R270). -/
theorem toNat_dcnt_tick (hd : s.Delaying) : s.tick.latch.dcnt.toNat = s.latch.dcnt.toNat - 1 := by
  by_cases h : s.latch.dcnt = 0
  · rw [tick_of_not_counting fun hc => hc.2 h, h]
    rfl
  · rw [tick_of_counting hd h]
    bv_omega

/-- With the counter at 0 the sequencer's own step leaves the label (R228, R240). -/
theorem delayEnd_leaves (hd : s.Delaying) (h : s.latch.dcnt = 0) : s.delayEnd.pc ≠ s.pc := by
  obtain hpc | hpc := hd
  · rw [delayEnd_of_dscD hpc h, hpc]
    obtain ⟨-, hn⟩ | hn | hn := discoveryNext_cases s <;> simp [hn]
  · simp [delayEnd_of_polD hpc h, hpc]

end

/-- Settles O59: the two branches of a tick. -/
theorem tickLowersTheDelayCounter : Obligations.TickLowersTheDelayCounter := by
  intro s rest hsched
  refine ⟨fun hd hne => ?_, fun hn => ?_⟩ <;> rw [step_tick hsched]
  · rw [tick_of_counting (s := s.turned .tick rest) hd hne]
    rfl
  · rw [tick_of_not_counting (s := s.turned .tick rest) hn]

/-! ### How long a delay lasts -/

/-- `t` is `s` after `n` ticks of its delay, with nothing issued: at the same label, the counter lower by `n` or at 0. -/
structure State.DelaysTo (s : State) (n : Nat) (t : State) : Prop where
  pc : t.pc = s.pc
  dcnt : t.latch.dcnt.toNat = s.latch.dcnt.toNat - n
  history : t.history = s.history

theorem delaysTo_trans {s t u : State} {m n : Nat} (h : s.DelaysTo m t) (h' : t.DelaysTo n u) :
    s.DelaysTo (m + n) u :=
  ⟨h'.pc.trans h.pc, by rw [h'.dcnt, h.dcnt, Nat.sub_sub], h'.history.trans h.history⟩

/-- No turn but a reset ends a delay before the counter is 0, and then only the sequencer's own does (R271, R316). -/
theorem step_delays {s t : State} (hd : s.Delaying) (hstep : step s = .next t) (hreset : t.env.turn ≠ .reset)
    (hseq : t.env.turn = .seq → s.latch.dcnt ≠ 0) : s.DelaysTo ([t.env.turn].count .tick) t := by
  have hd' : s.takeTurn.Delaying := by simpa [State.Delaying] using hd
  have taken : s.DelaysTo 0 s.takeTurn := ⟨by simp, by simp, by simp⟩
  obtain ⟨hturn, heff⟩ | ⟨r, hturn, ht⟩ | ⟨hturn, ht⟩ | ⟨hturn, ht⟩ | ⟨hturn, -⟩ := step_cases hstep <;>
    simp only [hturn, List.count_singleton, beq_iff_eq, reduceCtorEq, if_true, if_false]
  · obtain ⟨u, hu, ht⟩ := hostEffect_change heff
    obtain ⟨-, hh, -, -⟩ := hostChange_frame hu
    obtain ⟨hpc, hl, -⟩ := hostChange_of_not_idle hu (ne_idle_of_delaying hd)
    rw [ht]
    exact ⟨hpc, by simp [hl], hh⟩
  · rw [ht, answered_of_none (inFlight_of_delaying hd')]
    exact taken
  · rw [ht, delayEnd_of_dcnt_ne_zero (by simpa using hseq hturn)]
    exact taken
  · rw [ht]
    exact ⟨by simp [tick_pc], by simp [toNat_dcnt_tick hd'], by simp [tick_frame]⟩
  · exact absurd hturn hreset

theorem stepN_sched {rest : List Turn} (turns : List Turn) {s t : State} (hsched : s.env.sched = turns ++ rest)
    (hrun : stepN turns.length s = .next t) : t.env.sched = rest := by
  induction turns generalizing s with
  | nil =>
    injection hrun with hrun
    rwa [← hrun]
  | cons trn more ih =>
    obtain ⟨u, hstep, hrest⟩ := stepN_succ_next hrun
    exact ih (step_takes_its_turn hsched hstep).1 hrest

/-- As long as no turn of the sequencer comes with the counter at 0, a run without reset stays in the delay. -/
theorem run_delays {rest : List Turn} (turns : List Turn) {s t : State} (hd : s.Delaying)
    (hsched : s.env.sched = turns ++ rest) (hreset : Turn.reset ∉ turns)
    (hseq : ∀ before after, turns = before ++ .seq :: after → before.count .tick < s.latch.dcnt.toNat)
    (hrun : stepN turns.length s = .next t) : s.DelaysTo (turns.count .tick) t := by
  induction turns generalizing s with
  | nil =>
    injection hrun with hrun
    subst hrun
    exact ⟨rfl, rfl, rfl⟩
  | cons trn more ih =>
    obtain ⟨u, hstep, hrest⟩ := stepN_succ_next hrun
    obtain ⟨hsu, rfl⟩ := step_takes_its_turn hsched hstep
    rw [List.mem_cons, not_or] at hreset
    obtain ⟨hne, hmore⟩ := hreset
    have hu := step_delays hd hstep (Ne.symm hne) fun h h0 => by
      have := hseq [] more (by rw [h, List.nil_append])
      simp [h0] at this
    have hud : u.Delaying := by rwa [State.Delaying, hu.pc]
    have split_count (l : List Turn) : (u.env.turn :: l).count .tick = [u.env.turn].count .tick + l.count .tick :=
      List.count_append (l₁ := [u.env.turn])
    rw [split_count]
    refine delaysTo_trans hu (ih hud hsu hmore (fun before after h => ?_) hrest)
    have := hseq (u.env.turn :: before) after (by rw [h, List.cons_append])
    rw [split_count] at this
    rw [hu.dcnt]
    omega

/-! ### Endless orders of turns -/

section
variable {turns : Nat → Turn}

theorem firstTurns_eq_append {n : Nat} {before after : List Turn} {trn : Turn}
    (h : firstTurns n turns = before ++ trn :: after) :
    before.length < n ∧ turns before.length = trn ∧ firstTurns before.length turns = before := by
  induction n generalizing turns before with
  | zero => simp [firstTurns] at h
  | succ n ih =>
    rw [firstTurns] at h
    cases before with
    | nil => exact ⟨Nat.succ_pos n, (List.cons.inj h).1, rfl⟩
    | cons x before =>
      obtain ⟨rfl, htail⟩ := List.cons.inj h
      obtain ⟨hlt, htrn, hbefore⟩ := ih htail
      exact ⟨Nat.succ_lt_succ hlt, htrn, by rw [List.length_cons, firstTurns, hbefore]⟩

theorem ticks_monotone (turns : Nat → Turn) : Monotone fun n => (firstTurns n turns).count .tick :=
  monotone_nat_of_le_succ fun n => by rw [firstTurns_succ, List.count_append]; exact Nat.le_add_right _ _

/-- Fair ticks come as often as a counter asks for (R271). -/
theorem exists_ticks_ge (h : TicksFair turns) (d : Nat) : ∃ n, d ≤ (firstTurns n turns).count .tick := by
  induction d with
  | zero => exact ⟨0, Nat.zero_le _⟩
  | succ d ih =>
    obtain ⟨n, hn⟩ := ih
    obtain ⟨j, hnj, hj⟩ := h n
    refine ⟨j + 1, ?_⟩
    rw [firstTurns_succ, List.count_append, hj, List.count_singleton_self]
    exact Nat.succ_le_succ (hn.trans (ticks_monotone turns hnj))

variable {s : State}

/-- The last step of a run along the first `k + 1` turns takes turn `k`. -/
theorem goesOn_last_step (hgo : s.GoesOn turns) (k : Nat) :
    ∃ u t, stepN k (s.scheduled (firstTurns (k + 1) turns)) = .next u ∧ u.env.sched = [turns k] ∧ step u = .next t ∧
      stepN (k + 1) (s.scheduled (firstTurns (k + 1) turns)) = .next t := by
  obtain ⟨t, ht⟩ := hgo (k + 1)
  obtain ⟨u, hu, hlast⟩ := stepN_add_next ht
  obtain ⟨t', hstep, hend⟩ := stepN_succ_next hlast
  injection hend with hend
  exact ⟨u, t, hu, stepN_sched (firstTurns k turns) (firstTurns_succ k turns) (by rwa [firstTurns_length]),
    by rw [hstep, hend], ht⟩

variable (hd : s.Delaying) (hgo : s.GoesOn turns)
include hd

/-- A run stays in the delay if every turn of the sequencer on its way finds the counter not yet at 0. -/
theorem firstTurns_delays {n : Nat} {rest : List Turn} {t : State} (hreset : Turn.reset ∉ firstTurns n turns)
    (hseq : ∀ k, k < n → turns k = .seq → (firstTurns k turns).count .tick < s.latch.dcnt.toNat)
    (hrun : stepN n (s.scheduled (firstTurns n turns ++ rest)) = .next t) :
    s.DelaysTo ((firstTurns n turns).count .tick) t := by
  have early (before after : List Turn) (h : firstTurns n turns = before ++ .seq :: after) :
      before.count .tick < s.latch.dcnt.toNat := by
    obtain ⟨hlt, hturn, hbefore⟩ := firstTurns_eq_append h
    rw [← hbefore]
    exact hseq _ hlt hturn
  have ht := run_delays (firstTurns n turns) (s := s.scheduled (firstTurns n turns ++ rest)) hd rfl hreset early
    (by rwa [firstTurns_length])
  exact ⟨ht.pc, ht.dcnt, ht.history⟩

include hgo

/-- Under fair ticks the counter reaches 0, unless a reset comes before (R271). -/
theorem delay_runs_out (hfair : TicksFair turns) :
    ∃ n t, stepN n (s.scheduled (firstTurns n turns)) = .next t ∧
      ((t.pc = s.pc ∧ t.latch.dcnt = 0) ∨ Turn.reset ∈ firstTurns n turns) := by
  have hex := exists_ticks_ge hfair s.latch.dcnt.toNat
  obtain ⟨n, hn, hfirst⟩ : ∃ n, s.latch.dcnt.toNat ≤ (firstTurns n turns).count .tick ∧
      ∀ k, k < n → ¬ s.latch.dcnt.toNat ≤ (firstTurns k turns).count .tick :=
    ⟨Nat.find hex, Nat.find_spec hex, fun k hk => Nat.find_min hex hk⟩
  obtain ⟨t, ht⟩ := hgo n
  refine ⟨n, t, ht, ?_⟩
  by_cases hreset : Turn.reset ∈ firstTurns n turns
  · exact .inr hreset
  · have htn := firstTurns_delays hd (rest := []) hreset (fun k hk _ => Nat.lt_of_not_le (hfirst k hk))
      (by rwa [List.append_nil])
    exact .inl ⟨htn.pc, BitVec.eq_of_toNat_eq (htn.dcnt.trans (Nat.sub_eq_zero_of_le hn))⟩

theorem delay_left_by_reset {k : Nat} (hk : turns k = .reset) :
    ∃ n t, stepN n (s.scheduled (firstTurns n turns)) = .next t ∧ t.pc ≠ s.pc := by
  obtain ⟨u, t, -, hsu, hstep, ht⟩ := goesOn_last_step hgo k
  rw [hk] at hsu
  rw [step_reset hsu] at hstep
  injection hstep with hstep
  refine ⟨k + 1, t, ht, ?_⟩
  rw [← hstep, State.hardReset_pc]
  exact (ne_idle_of_delaying hd).symm

/-- Without a reset, the first turn of the sequencer that finds the counter at 0 leaves the label (R271). -/
theorem delay_left_by_sequencer (hfair : TicksFair turns) (hseq : SequencerFair turns)
    (hreset : ∀ k, turns k ≠ .reset) :
    ∃ n t, stepN n (s.scheduled (firstTurns n turns)) = .next t ∧ t.pc ≠ s.pc := by
  have hex : ∃ j, turns j = .seq ∧ s.latch.dcnt.toNat ≤ (firstTurns j turns).count .tick := by
    obtain ⟨n, hn⟩ := exists_ticks_ge hfair s.latch.dcnt.toNat
    obtain ⟨j, hnj, hj⟩ := hseq n
    exact ⟨j, hj, hn.trans (ticks_monotone turns hnj)⟩
  obtain ⟨j, ⟨hj, hticks⟩, hfirst⟩ : ∃ j, (turns j = .seq ∧ s.latch.dcnt.toNat ≤ (firstTurns j turns).count .tick) ∧
      ∀ k, k < j → ¬ (turns k = .seq ∧ s.latch.dcnt.toNat ≤ (firstTurns k turns).count .tick) :=
    ⟨Nat.find hex, Nat.find_spec hex, fun k hk => Nat.find_min hex hk⟩
  obtain ⟨u, t, hu, hsu, hstep, ht⟩ := goesOn_last_step hgo j
  rw [firstTurns_succ] at hu
  have hnone : Turn.reset ∉ firstTurns j turns := fun h => by
    obtain ⟨k, -, hk⟩ := exists_of_mem_firstTurns h
    exact hreset k hk
  have hsteps := firstTurns_delays hd hnone (fun k hk hkt => Nat.lt_of_not_le fun hle => hfirst k hk ⟨hkt, hle⟩) hu
  have hzero : u.latch.dcnt = 0 := BitVec.eq_of_toNat_eq (hsteps.dcnt.trans (Nat.sub_eq_zero_of_le hticks))
  have hud : u.Delaying := by rwa [State.Delaying, hsteps.pc]
  rw [hj] at hsu
  rw [step_seq hsu] at hstep
  injection hstep with hstep
  refine ⟨j + 1, t, ht, ?_⟩
  rw [← hstep, ← hsteps.pc]
  exact delayEnd_leaves (s := u.turned .seq []) hud hzero

end

/-- Settles O60: the run up to the asked ticks, the step at counter 0, and the two ends of an endless order of turns. -/
theorem delaysLastAtLeastTheirTicks : Obligations.DelaysLastAtLeastTheirTicks := by
  refine ⟨fun s t turns rest hd hsched hreset hrun hlt => ?_, fun s rest hd h0 hsched => ?_,
    fun s turns hd hfair hgo => ⟨delay_runs_out hd hgo hfair, fun hseq => ?_⟩⟩
  · have ht := run_delays turns hd hsched hreset (fun before after h => ?_) hrun
    · exact ⟨ht.pc, ht.dcnt, ht.history⟩
    · have hle : before.count .tick ≤ turns.count .tick := by rw [h, List.count_append]; exact Nat.le_add_right _ _
      exact hle.trans_lt hlt
  · exact ⟨_, step_seq hsched, delayEnd_leaves (s := s.turned .seq rest) hd h0⟩
  · by_cases hreset : ∃ k, turns k = .reset
    · obtain ⟨k, hk⟩ := hreset
      exact delay_left_by_reset hd hgo hk
    · exact delay_left_by_sequencer hd hgo hfair hseq (not_exists.1 hreset)

end Sys2Proof.Machine
end
